-- ==== Sys2Proof/Word.lean ====
section
/-! DEFINITION. The widths of the block: a 32-bit register or command word, a byte on the wire, a line level
(spec/00_scope.md R5, R7). Every value is unsigned. -/

namespace Sys2Proof

/-- A register of the window, a command word or an operand word: 32 bits (R5 `WORD`). Bit `i` has weight `2^i` (R7). -/
abbrev Word := BitVec 32

/-- A byte of a payload or on the wire, 0 to 255 (R7). -/
abbrev Byte := BitVec 8

/-- A line level or one bit of the wire: `true` is 1 (high), `false` is 0 (low). -/
abbrev Level := Bool

/-- A pin number as a command encodes it, 0 to 63 (R81). -/
abbrev PinField := BitVec 6

/-- A host agent (R6): the threads of the host process, numbered. -/
abbrev AgentId := Nat

end Sys2Proof
end

