-- ==== Sys2Proof/Config.lean ====
section
/-! DEFINITION. What an implementation fixes (the parameters of spec/00_scope.md R5) and the free values the environment
supplies (R8 `draw`). The parameters are plain data held in the state, so that every statement about a state holds for every
value of them; the free values are constants without a body, so that nothing can be proved of their value. -/

namespace Sys2Proof

/-- `WINDOW_SIZE` (R5): bytes in the mapped register window. -/
def Config.windowSize : Nat := 4096

/-- The parameters of R5 that the source leaves open. `NUM_PINS` is the length of the state's pin list; `BASE` is a draw of
OPEN (R100). -/
structure Params where
  /-- `SET_OFF`: byte offset of set word 0. -/
  setOff : Nat
  /-- `CLR_OFF`: byte offset of clear word 0. -/
  clrOff : Nat
  /-- `LEV_OFF`: byte offset of level word 0. -/
  levOff : Nat
  /-- `FN_INPUT`: function-select code for input. -/
  fnInput : BitVec 3
  /-- `FN_OUTPUT`: function-select code for output. -/
  fnOutput : BitVec 3
  /-- `CLOCK_RATE`: ticks per second of the counter. -/
  clockRate : Nat
  deriving DecidableEq, Repr

/-- The defaults of R5. DESIGN CHOICE (log 1): the reset state takes them; no statement about all states does. -/
def Config.defaultParams : Params where
  setOff := 0x1C
  clrOff := 0x28
  levOff := 0x34
  fnInput := 0b000#3
  fnOutput := 0b001#3
  clockRate := 10000000

/-- The default of `NUM_PINS` (R5). -/
def Config.defaultNumPins : Nat := 54

/-- What the host platform answers to OPEN's three questions (R100): the base address of the detected platform, or `none`
where it is unknown; whether the physical-memory device opens; whether the map call succeeds. -/
structure PlatformAnswer where
  detected : Option Nat
  deviceOpened : Bool
  mapped : Bool
  deriving DecidableEq, Repr, Inhabited

namespace Machine

/-- `bus.dir`, the block's one status flag (R22). -/
inductive BusDir where
  | writing
  | reading
  deriving DecidableEq, Repr, Inhabited

/-- The bus registers a procedure reads, each holding a value. -/
structure BusRegs where
  scl : Nat
  sda : Nat
  dir : BusDir
  halfPeriod : Nat
  quarterPeriod : Nat
  lastEdge : Nat
  deriving DecidableEq, Repr, Inhabited

end Machine

/-- FREE VALUE (log 4): the `n`-th word with the pin environment's levels, and the reserved bits, of a level-register read
(R26, R27). -/
opaque Config.freeLevels : Nat → Word

/-- FREE VALUE (log 4): the `n`-th word with the reserved bits of a function-select read (R25). -/
opaque Config.freeReserved : Nat → Word

/-- FREE VALUE (log 4): how far the `n`-th counter read lies past the least value that R240 and R241 allow it. -/
opaque Config.freeDelay : Nat → Nat

/-- FREE VALUE (log 4): the `n`-th answer of the host platform (R100). -/
opaque Config.freePlatform : Nat → PlatformAnswer

/-- FREE VALUE (log 11): the values the bus registers that hold none have at the `n`-th reading that finds such a register (R30). -/
opaque Config.freeRegisters : Nat → Machine.BusRegs

end Sys2Proof
end

