-- ==== Sys2Proof/Syntax.lean ====
section
/-! DEFINITION. The commands a host agent issues, one constructor for each row of spec/opcode_table.json
(spec/30_encoding.md R86). The operands are those of the abstract operations (R70); `WellFormed.lean` gives the ranges
that a command word can encode. -/

namespace Sys2Proof

/-- The 21 operations of R86. -/
inductive Instr where
  /-- OPEN (R100): attach the register window. -/
  | openMap
  /-- CLOSE (R101): unmap the window. -/
  | closeMap
  /-- RDW off (R102): read the word of the window at byte offset `off`. -/
  | rdw (off : Nat)
  /-- WRW off, value (R103): write a word of the window. -/
  | wrw (off : Nat) (value : Word)
  /-- PCFGO pin (R120): make the pin an output. -/
  | pcfgo (pin : PinField)
  /-- PCFGI pin (R121): make the pin an input. -/
  | pcfgi (pin : PinField)
  /-- PSET pin, lv (R122): drive the pin's output value. -/
  | pset (pin : PinField) (lv : Level)
  /-- PGET pin (R123): read the pin's level. -/
  | pget (pin : PinField)
  /-- I2CINIT scl, sda, F (R141): create the bus. -/
  | i2cinit (scl sda : PinField) (freq : Word)
  /-- I2CDISP (R142): dispose of the bus. -/
  | i2cdisp
  /-- SETWM (R143): switch SDA to writing. -/
  | setwm
  /-- SETRM (R144): switch SDA to reading. -/
  | setrm
  /-- WBIT b (R145): send one bit. -/
  | wbit (b : Level)
  /-- RBIT (R146): receive one bit. -/
  | rbit
  /-- START (R147): produce a START condition. -/
  | start
  /-- STOP (R148): produce a STOP condition. -/
  | stop
  /-- WBYTE byte (R170): send a byte and read the acknowledge. -/
  | wbyte (v : Byte)
  /-- RBYTE ack (R171): receive a byte; `ackflag = true` acknowledges it. -/
  | rbyte (ackflag : Bool)
  /-- WBYTES list (R172): send bytes up to the first NACK. -/
  | wbytes (data : List Byte)
  /-- WRITE addr, reg, data (R173): the register write transaction. -/
  | write (addr reg : Byte) (data : List Byte)
  /-- READ addr, reg, n (R174): the register read transaction. -/
  | read (addr reg n : Byte)
  deriving DecidableEq, Repr

end Sys2Proof
end

