-- ==== Sys2Proof/WellFormed.lean ====
section
/-! DEFINITION. Which commands a command word and its operand words can encode: the operand ranges of
spec/30_encoding.md R80, R84 and R85. A pin, an address, a count and `F` that are out of range for the hardware do encode,
and raise ConfigurationError at execution (R77). -/

namespace Sys2Proof

/-- The operand ranges of the encoding: a 12-bit window offset (R80) and an 8-bit payload length (R84, R85). -/
def Instr.wf : Instr → Bool
  | .openMap => true
  | .closeMap => true
  | .rdw off => decide (off < 4096)
  | .wrw off _ => decide (off < 4096)
  | .pcfgo _ => true
  | .pcfgi _ => true
  | .pset _ _ => true
  | .pget _ => true
  | .i2cinit _ _ _ => true
  | .i2cdisp => true
  | .setwm => true
  | .setrm => true
  | .wbit _ => true
  | .rbit => true
  | .start => true
  | .stop => true
  | .wbyte _ => true
  | .rbyte _ => true
  | .wbytes data => decide (data.length < 256)
  | .write _ _ data => decide (data.length < 256)
  | .read _ _ _ => true

end Sys2Proof
end

