-- ==== Sys2Proof/Decode.lean ====
section
/-! DEFINITION. The command encoding of spec/30_encoding.md (R75 to R86): opcodes and formats as one table, the decoder
(R76), total and rejecting by name, the encoder written from the same formats, and the assembler text (R88). -/

namespace Sys2Proof

/-- The operations as the opcode map of R86 lists them, without operands. -/
inductive Op where
  | opn | cls | rdw | wrw | pcfgo | pcfgi | pset | pget | i2cinit | i2cdisp | setwm | setrm | wbit | rbit
  | start | stop | wbyte | rbyte | wbytes | write | read
  deriving DecidableEq, Repr

/-- The rows of R86, in its order. -/
def Op.all : List Op :=
  [.opn, .cls, .rdw, .wrw, .pcfgo, .pcfgi, .pset, .pget, .i2cinit, .i2cdisp, .setwm, .setrm, .wbit, .rbit,
   .start, .stop, .wbyte, .rbyte, .wbytes, .write, .read]

/-- The opcode column of R86. -/
def Op.code : Op → BitVec 8
  | .opn => 0x01#8
  | .cls => 0x02#8
  | .rdw => 0x03#8
  | .wrw => 0x04#8
  | .pcfgo => 0x10#8
  | .pcfgi => 0x11#8
  | .pset => 0x12#8
  | .pget => 0x13#8
  | .i2cinit => 0x20#8
  | .i2cdisp => 0x21#8
  | .setwm => 0x22#8
  | .setrm => 0x23#8
  | .wbit => 0x24#8
  | .rbit => 0x25#8
  | .start => 0x26#8
  | .stop => 0x27#8
  | .wbyte => 0x28#8
  | .rbyte => 0x29#8
  | .wbytes => 0x2A#8
  | .write => 0x2B#8
  | .read => 0x2C#8

/-- The mnemonic column of R86. -/
def Op.mnemonic : Op → String
  | .opn => "OPEN"
  | .cls => "CLOSE"
  | .rdw => "RDW"
  | .wrw => "WRW"
  | .pcfgo => "PCFGO"
  | .pcfgi => "PCFGI"
  | .pset => "PSET"
  | .pget => "PGET"
  | .i2cinit => "I2CINIT"
  | .i2cdisp => "I2CDISP"
  | .setwm => "SETWM"
  | .setrm => "SETRM"
  | .wbit => "WBIT"
  | .rbit => "RBIT"
  | .start => "START"
  | .stop => "STOP"
  | .wbyte => "WBYTE"
  | .rbyte => "RBYTE"
  | .wbytes => "WBYTES"
  | .write => "WRITE"
  | .read => "READ"

/-- The bits that the operation's format requires to be 0: N (R78), M (R80), P (R81; only PSET has `lv`), I (R82), B, Y and
A (R83), L (R84), X (R85). -/
def Op.mustBeZero : Op → Word
  | .opn => 0x00FFFFFF#32
  | .cls => 0x00FFFFFF#32
  | .rdw => 0x00FFF000#32
  | .wrw => 0x00FFF000#32
  | .pcfgo => 0x00FFFFC0#32
  | .pcfgi => 0x00FFFFC0#32
  | .pset => 0x00FFFF80#32
  | .pget => 0x00FFFFC0#32
  | .i2cinit => 0x00FFF000#32
  | .i2cdisp => 0x00FFFFFF#32
  | .setwm => 0x00FFFFFF#32
  | .setrm => 0x00FFFFFF#32
  | .wbit => 0x00FFFFFE#32
  | .rbit => 0x00FFFFFF#32
  | .start => 0x00FFFFFF#32
  | .stop => 0x00FFFFFF#32
  | .wbyte => 0x00FFFF00#32
  | .rbyte => 0x00FFFEFF#32
  | .wbytes => 0x00FFFF00#32
  | .write => 0x00000000#32
  | .read => 0x00000000#32

/-- The row of R86 with this opcode, if there is one. -/
def Op.ofCode (code : BitVec 8) : Option Op := Op.all.find? fun o => o.code == code

/-- The opcode of a command word: bits `[31:24]` (R75). -/
def opcodeOf (c : Word) : BitVec 8 := c.extractLsb' 24 8

/-- How many payload words `n` bytes take: `ceil(n/4)` (R79). -/
def payloadWords (n : Nat) : Nat := (n + 3) / 4

/-- How many operand words follow the command word `c` of this operation (R79, R86). -/
def Op.operandWords (o : Op) (c : Word) : Nat :=
  match o with
  | .wrw => 1
  | .i2cinit => 1
  | .wbytes => payloadWords (c.extractLsb' 0 8).toNat
  | .write => payloadWords (c.extractLsb' 0 8).toNat
  | _ => 0

/-- The four payload bytes of a word, the first in the lowest bits (R79). -/
def wordBytes (w : Word) : List Byte :=
  [w.extractLsb' 0 8, w.extractLsb' 8 8, w.extractLsb' 16 8, w.extractLsb' 24 8]

/-- Why the decoder gives no operation (R76, R77). -/
inductive Reject where
  /-- The opcode is not in the opcode map: refused (R77). -/
  | unlistedOpcode (c : Word)
  /-- A bit that the format marks 0 is 1: refused (R77). -/
  | mustBeZero (c : Word)
  /-- A payload byte past the length is not 0: refused (R77). -/
  | padding (c : Word)
  /-- The agent has not issued all the operand words the command takes. Not a case of the spec, where a command is issued
  whole (log 9). -/
  | incomplete (c : Word)
  /-- No command word has been issued. -/
  | noCommand
  deriving DecidableEq, Repr

/-- The payload of `n` bytes held in `ws`, refused where a padding byte is not 0 (R76, R79). -/
def takePayload (c : Word) (n : Nat) (ws : List Word) : Except Reject (List Byte) :=
  let bytes := ws.flatMap wordBytes
  if (bytes.drop n).all (· == 0#8) then .ok (bytes.take n) else .error (.padding c)

/-- The abstract operation with its fields (R76, last line), from the command word and its operand words. -/
def assemble (o : Op) (c : Word) (operands : List Word) : Except Reject Instr :=
  match o with
  | .opn => .ok .openMap
  | .cls => .ok .closeMap
  | .rdw => .ok (.rdw (c.extractLsb' 0 12).toNat)
  | .wrw => .ok (.wrw (c.extractLsb' 0 12).toNat (operands.headD 0#32))
  | .pcfgo => .ok (.pcfgo (c.extractLsb' 0 6))
  | .pcfgi => .ok (.pcfgi (c.extractLsb' 0 6))
  | .pset => .ok (.pset (c.extractLsb' 0 6) (c.getLsbD 6))
  | .pget => .ok (.pget (c.extractLsb' 0 6))
  | .i2cinit => .ok (.i2cinit (c.extractLsb' 0 6) (c.extractLsb' 6 6) (operands.headD 0#32))
  | .i2cdisp => .ok .i2cdisp
  | .setwm => .ok .setwm
  | .setrm => .ok .setrm
  | .wbit => .ok (.wbit (c.getLsbD 0))
  | .rbit => .ok .rbit
  | .start => .ok .start
  | .stop => .ok .stop
  | .wbyte => .ok (.wbyte (c.extractLsb' 0 8))
  | .rbyte => .ok (.rbyte (c.getLsbD 8))
  | .wbytes => (takePayload c (c.extractLsb' 0 8).toNat operands).map .wbytes
  | .write =>
    (takePayload c (c.extractLsb' 0 8).toNat operands).map (.write (c.extractLsb' 16 8) (c.extractLsb' 8 8))
  | .read => .ok (.read (c.extractLsb' 16 8) (c.extractLsb' 8 8) (c.extractLsb' 0 8))

/-- The decoder of R76: the operation at the head of the words an agent has issued, and the words after it. -/
def decode : List Word → Except Reject (Instr × List Word)
  | [] => .error .noCommand
  | c :: rest =>
    match Op.ofCode (opcodeOf c) with
    | none => .error (.unlistedOpcode c)
    | some o =>
      if c &&& o.mustBeZero ≠ 0#32 then .error (.mustBeZero c)
      else if rest.length < o.operandWords c then .error (.incomplete c)
      else (assemble o c (rest.take (o.operandWords c))).map fun i => (i, rest.drop (o.operandWords c))

/-- How many words the command that starts with `c` takes, known from that word alone (R75). A word with an unlisted opcode
is one word. -/
def commandLength (c : Word) : Nat :=
  match Op.ofCode (opcodeOf c) with
  | none => 1
  | some o => 1 + o.operandWords c

/-! ## The encoder -/

/-- A payload as words, four bytes each, the first in the lowest bits, padded with zero bytes (R79). -/
def packPayload : List Byte → List Word
  | [] => []
  | [a] => [0#8 ++ 0#8 ++ 0#8 ++ a]
  | [a, b] => [0#8 ++ 0#8 ++ b ++ a]
  | [a, b, c] => [0#8 ++ c ++ b ++ a]
  | a :: b :: c :: d :: rest => (d ++ c ++ b ++ a) :: packPayload rest

/-- Format N (R78). -/
def wordN (o : Op) : Word := o.code ++ 0#24
/-- Format M (R80). -/
def wordM (o : Op) (off : Nat) : Word := o.code ++ (0#12 ++ BitVec.ofNat 12 off)
/-- Format P (R81). -/
def wordP (o : Op) (lv : Bool) (pin : PinField) : Word := o.code ++ (0#17 ++ BitVec.ofBool lv ++ pin)
/-- Format I (R82). -/
def wordI (o : Op) (scl sda : PinField) : Word := o.code ++ (0#12 ++ sda ++ scl)
/-- Format B (R83). -/
def wordB (o : Op) (b : Bool) : Word := o.code ++ (0#23 ++ BitVec.ofBool b)
/-- Format Y (R83), and format L (R84) with the length in the byte's place. -/
def wordY (o : Op) (v : Byte) : Word := o.code ++ (0#16 ++ v)
/-- Format A (R83). -/
def wordA (o : Op) (a : Bool) : Word := o.code ++ (0#15 ++ BitVec.ofBool a ++ 0#8)
/-- Format X (R85). -/
def wordX (o : Op) (addr reg n : Byte) : Word := o.code ++ (addr ++ reg ++ n)

/-- The words of a well-formed command (R75, R78 to R86). -/
def encode : Instr → List Word
  | .openMap => [wordN .opn]
  | .closeMap => [wordN .cls]
  | .rdw off => [wordM .rdw off]
  | .wrw off value => [wordM .wrw off, value]
  | .pcfgo pin => [wordP .pcfgo false pin]
  | .pcfgi pin => [wordP .pcfgi false pin]
  | .pset pin lv => [wordP .pset lv pin]
  | .pget pin => [wordP .pget false pin]
  | .i2cinit scl sda freq => [wordI .i2cinit scl sda, freq]
  | .i2cdisp => [wordN .i2cdisp]
  | .setwm => [wordN .setwm]
  | .setrm => [wordN .setrm]
  | .wbit b => [wordB .wbit b]
  | .rbit => [wordN .rbit]
  | .start => [wordN .start]
  | .stop => [wordN .stop]
  | .wbyte v => [wordY .wbyte v]
  | .rbyte a => [wordA .rbyte a]
  | .wbytes data => wordY .wbytes (BitVec.ofNat 8 data.length) :: packPayload data
  | .write addr reg data => wordX .write addr reg (BitVec.ofNat 8 data.length) :: packPayload data
  | .read addr reg n => [wordX .read addr reg n]

/-! ## Table words -/

/-- The words of the command whose bits are `w`, numbered as spec/opcode_table.json numbers them: the command word is bits
31 to 0, and operand word `j` is the `j`-th group of 32 bits above it. Bits from `nbits` on are 0. -/
def tableWords (nbits w : Nat) : List Word :=
  let v := w % 2 ^ nbits
  let c : Word := BitVec.ofNat 32 v
  c :: (List.range (commandLength c - 1)).map fun j => BitVec.ofNat 32 (v / 2 ^ (32 * (j + 1)))

/-- The instruction the decoder reads from those words. -/
def decodeTableWord (nbits w : Nat) : Option Instr :=
  match decode (tableWords nbits w) with
  | .ok (i, _) => some i
  | .error _ => none

/-! ## Assembler text (R88) -/

/-- Numbers separated by a comma and a space. -/
def commaList : List Nat → String
  | [] => ""
  | [n] => toString n
  | n :: rest => toString n ++ ", " ++ commaList rest

/-- A byte list in the assembler's brackets. -/
def bytesAsm (data : List Byte) : String := "[" ++ commaList (data.map BitVec.toNat) ++ "]"

/-- The command in the assembler text of R88, numbers in decimal. -/
def Instr.asm : Instr → String
  | .openMap => "OPEN"
  | .closeMap => "CLOSE"
  | .rdw off => "RDW " ++ toString off
  | .wrw off value => "WRW " ++ commaList [off, value.toNat]
  | .pcfgo pin => "PCFGO " ++ toString pin.toNat
  | .pcfgi pin => "PCFGI " ++ toString pin.toNat
  | .pset pin lv => "PSET " ++ commaList [pin.toNat, lv.toNat]
  | .pget pin => "PGET " ++ toString pin.toNat
  | .i2cinit scl sda freq => "I2CINIT " ++ commaList [scl.toNat, sda.toNat, freq.toNat]
  | .i2cdisp => "I2CDISP"
  | .setwm => "SETWM"
  | .setrm => "SETRM"
  | .wbit b => "WBIT " ++ toString b.toNat
  | .rbit => "RBIT"
  | .start => "START"
  | .stop => "STOP"
  | .wbyte v => "WBYTE " ++ toString v.toNat
  | .rbyte a => if a then "RBYTE ack" else "RBYTE nack"
  | .wbytes data => "WBYTES " ++ bytesAsm data
  | .write addr reg data => "WRITE " ++ commaList [addr.toNat, reg.toNat] ++ ", " ++ bytesAsm data
  | .read addr reg n => "READ " ++ commaList [addr.toNat, reg.toNat, n.toNat]

end Sys2Proof
end

