-- ==== Sys2Proof/Machine/State.lean ====
section
/-! DEFINITION. The machine's state as plain data: every piece of state of spec/10_state.md, the fault reasons of
spec/60_exceptions.md R210, and the state at the start of the process (R37). -/

namespace Sys2Proof.Machine

/-- Whether an access to the window is a read or a write (R104). -/
inductive AccessKind where
  | read
  | write
  deriving DecidableEq, Repr

/-- Why the model gives no meaning to what happened (R210). Raising one appends it to `State.faults` (R35); every later step of
the machine then answers it. The first seven are the spec's. All are SAFE: no run goes past them. -/
inductive Fault where
  /-- Raised by OPEN with the map open (R100). Safe. -/
  | alreadyOpen
  /-- Raised by RDW and WRW at an offset that is no multiple of 4 (R53). Safe. -/
  | misalignedOffset (off : Nat)
  /-- Raised by RDW and WRW at an offset of 4096 or more, which only the abstract syntax can name (R53). Safe. -/
  | outsideWindow (off : Nat)
  /-- Raised by a read of a SET or CLR word, a write of a LEV word, and any access to an unlisted offset (R104). Safe. -/
  | unmodelledRegister (off : Nat) (kind : AccessKind)
  /-- Raised by a bus command other than I2CINIT while the bus is unconfigured (R140). Safe. -/
  | notConfigured
  /-- Raised by I2CINIT while the bus is configured (R141). Safe. -/
  | alreadyConfigured
  /-- Raised by a bus command while another agent's bus command is in flight (R212). Safe. -/
  | concurrentBusUse
  /-- The model's own (log 10): raised by a register access of an operation in flight after another agent has closed the map;
  R55 and R56 give an access its effect only while the map is open. Safe. -/
  | mapClosedInFlight (off : Nat) (kind : AccessKind)
  /-- The model's own (log 12): raised by an operation in flight whose locals are not answers its micro-steps can have had.
  No run reaches such a state. Safe. -/
  | sequencerLost
  deriving DecidableEq, Repr

/-- Why a step gives no next state at all. -/
inductive Refusal where
  /-- Raised by an arm of `exec` whose instruction has no meaning yet. No arm is left so. Safe. -/
  | notModelled (mnemonic : String)
  /-- Raised by a step that finds a command word whose operand words have not all been issued (log 9): the spec has commands
  issued whole. Safe. -/
  | incompleteCommand (c : Word)
  deriving DecidableEq, Repr

/-- The errors of R200. -/
inductive Error where
  | platformDetectionFailure
  | privilegeFailure
  | mappingFailure
  | configurationError
  | protocolViolation
  | registerMapUnavailable
  deriving DecidableEq, Repr

/-- The result value of an operation, by R87. -/
inductive Value where
  | none
  | word (w : Word)
  | bit (b : Level)
  | bool (b : Bool)
  | byte (v : Byte)
  | bytes (vs : List Byte)
  deriving DecidableEq, Repr

/-- The result record an operation returns to its agent (R9, R87): OK with a value, or an error without one. -/
inductive Reply where
  | ok (v : Value)
  | error (e : Error)
  deriving DecidableEq, Repr

/-- One entry of the event history (R36), tagged with the host agent that made it. -/
inductive Event where
  | memRead (a : AgentId) (off : Nat) (v : Word)
  | memWrite (a : AgentId) (off : Nat) (v : Word)
  | tick (a : AgentId) (t : Nat)
  | completed (a : AgentId) (i : Instr) (r : Reply)
  deriving DecidableEq, Repr

/-- A Digital Pin's direction attribute (R29). -/
inductive PinDir where
  | input
  | output
  deriving DecidableEq, Repr

/-- One pin: its function-select field and output latch in the controller (R23), and its Digital Pin attributes (R29). -/
structure Pin where
  /-- `fsel[p]`, the 3-bit function-select field. -/
  fsel : BitVec 3
  /-- `latch[p]`, the output value last set through SET and CLR. -/
  latch : Level
  /-- `pin[p].dir`. -/
  dir : Option PinDir
  /-- `pin[p].last`. -/
  last : Option Level
  deriving DecidableEq, Repr

/-- The Register Map's attributes (R28). -/
structure RegisterMap where
  isOpen : Bool
  base : Option Nat
  deriving DecidableEq, Repr

/-- `bus.cfg` (R30). -/
inductive BusCfg where
  | unconfigured
  | configured
  deriving DecidableEq, Repr

/-- The I2C master's registers (R30). `none` is the spec's own value of a register before I2CINIT and after I2CDISP. -/
structure Bus where
  cfg : BusCfg
  scl : Option Nat
  sda : Option Nat
  dir : Option BusDir
  halfPeriod : Option Nat
  quarterPeriod : Option Nat
  lastEdge : Option Nat
  owner : Option AgentId
  deriving DecidableEq, Repr

/-- What a step of an operation has been answered: the values an operation's `locals` are computed from (R21). -/
inductive Answer where
  /-- The word a `MemRead` returned. -/
  | word (w : Word)
  /-- A `MemWrite` was made. -/
  | written
  /-- The counter value a `Tick` or a `WaitUntil` returned. -/
  | time (t : Nat)
  /-- The bus registers as they were read between two micro-steps. -/
  | regs (b : BusRegs)
  /-- The host platform's answers. -/
  | platform (p : PlatformAnswer)
  deriving DecidableEq, Repr

/-- A host agent's sequencer state `seq[a]` (R21). The position `k` and the locals of the operation in flight are functions of
the answers it has had so far (log 12). -/
inductive Seq where
  | idle
  | busy (op : Instr) (locals : List Answer)
  deriving DecidableEq, Repr

/-- A host agent: its sequencer, and the command words it has issued that no operation has begun from (R33, R75). -/
structure HostAgent where
  seq : Seq
  pending : List Word
  deriving DecidableEq, Repr

/-- An agent that does nothing and has nothing to issue. -/
def HostAgent.none : HostAgent where
  seq := .idle
  pending := []

/-- The draws of one kind: the answers the environment has ready, and how many free values have been taken after they ran
out. The MODEL's own (log 4). -/
structure Draws (α : Type) where
  ready : List α
  taken : Nat
  deriving DecidableEq, Repr

/-- Everything outside the block that answers it (R6.2 to R6.4). The MODEL's own (log 4). -/
structure Environment where
  /-- One word for each level-register read: the levels of the pins that are no outputs, and the reserved bits (R26, R27). -/
  levels : Draws Word
  /-- One word for each function-select read: its reserved bits (R25). -/
  reserved : Draws Word
  /-- One number for each counter read: how far it lies past the least value allowed (R240, R241). -/
  delays : Draws Nat
  /-- One answer for each OPEN (R100). -/
  platform : Draws PlatformAnswer
  /-- One set of values for each reading of the bus registers that finds one holding none (R30, log 11). -/
  registers : Draws BusRegs
  deriving DecidableEq, Repr

/-- The state of the block, of the host agents, and of what the environment has ready for them. -/
structure State where
  /-- The parameters of R5; no step changes them. -/
  params : Params
  /-- `map.open` and `map.base` (R28). -/
  map : RegisterMap
  /-- The pins, pin `p` at index `p`; `NUM_PINS` is the length (R5, R23, R29). -/
  pins : List Pin
  /-- The I2C master's registers (R30). -/
  bus : Bus
  /-- The host agents, agent `a` at index `a`; one past the end is `HostAgent.none` (R6, R21). -/
  agents : List HostAgent
  /-- The MODEL's own (log 5): the agent that moves when `sched` is empty. -/
  turn : AgentId
  /-- The MODEL's own (log 5): whose micro-steps come next in the total order of R57. -/
  sched : List AgentId
  /-- The counter value last read (R240). -/
  clock : Nat
  /-- The fault reasons (R35). -/
  faults : List Fault
  /-- Whether a command word has been refused (R35). -/
  refused : Bool
  /-- The event history (R36). -/
  history : List Event
  /-- What the environment has ready. The MODEL's own (log 4). -/
  env : Environment
  deriving DecidableEq, Repr

/-- A pin at the start of the process. PRESUMED (log 2): function select 0b000 and latch 0, the power-on values of the family
whose register layout R5 takes; the attributes are none (R29). -/
def Pin.initial : Pin where
  fsel := 0b000#3
  latch := false
  dir := none
  last := none

/-- The bus before I2CINIT (R30, R37). -/
def Bus.initial : Bus where
  cfg := .unconfigured
  scl := none
  sda := none
  dir := none
  halfPeriod := none
  quarterPeriod := none
  lastEdge := none
  owner := none

/-- `T0`, the counter at the start of the process. DESIGN CHOICE (log 3): the value of spec/95_test_vectors.md. -/
def initialClock : Nat := 1000

/-- An environment with no answer ready: every draw is a free value. DESIGN CHOICE (log 4). -/
def Environment.free : Environment where
  levels := ⟨[], 0⟩
  reserved := ⟨[], 0⟩
  delays := ⟨[], 0⟩
  platform := ⟨[], 0⟩
  registers := ⟨[], 0⟩

/-- The start of the host process (R37, R230). -/
def State.reset : State where
  params := Config.defaultParams
  map := { isOpen := false, base := none }
  pins := List.replicate Config.defaultNumPins Pin.initial
  bus := Bus.initial
  agents := []
  turn := 0
  sched := []
  clock := initialClock
  faults := []
  refused := false
  history := []
  env := Environment.free

end Sys2Proof.Machine
end

