-- ==== Sys2Proof/Machine/Operands.lean ====
section
/-! DEFINITION. The values operations compute from their operands: the register helpers of spec/30_encoding.md R71, the wire
encoding (R72, R73) and the tick counts of spec/42_i2c_primitives.md R153. -/

namespace Sys2Proof.Machine

/-- `ceil(a / b)` for `b > 0`, as R153 computes it. -/
def ceilDiv (a b : Nat) : Nat := (a + b - 1) / b

/-- Pins whose function-select fields share a word (R5 `FSEL_PER_WORD`). -/
def fselPerWord : Nat := 10

/-- Bits of one function-select field (R5 `FSEL_BITS`). -/
def fselBits : Nat := 3

/-- Pins in a word of SET, CLR and LEV (R5, R26). -/
def pinsPerBank : Nat := 32

/-- `fselOff(p)` of R71, `FSEL_OFF` being 0. -/
def fselOff (p : Nat) : Nat := 4 * (p / fselPerWord)

/-- `fselShift(p)` of R71. -/
def fselShift (p : Nat) : Nat := fselBits * (p % fselPerWord)

/-- `fselMask(p)` of R71. -/
def fselMask (p : Nat) : Word := 7#32 <<< fselShift p

/-- `setOff(p)` of R71. -/
def setOff (P : Params) (p : Nat) : Nat := P.setOff + 4 * (p / pinsPerBank)

/-- `clrOff(p)` of R71. -/
def clrOff (P : Params) (p : Nat) : Nat := P.clrOff + 4 * (p / pinsPerBank)

/-- `levOff(p)` of R71. -/
def levOff (P : Params) (p : Nat) : Nat := P.levOff + 4 * (p / pinsPerBank)

/-- `bitMask(p)` of R71. -/
def bitMask (p : Nat) : Word := 1#32 <<< (p % pinsPerBank)

/-- The word a direction change writes: `(w AND NOT fselMask(p)) OR (fn << fselShift(p))` (R120, R121). -/
def withFsel (w : Word) (p : Nat) (fn : BitVec 3) : Word :=
  (w &&& ~~~fselMask p) ||| (fn.setWidth 32 <<< fselShift p)

/-- `addrByte(a, rw)` of R73: the address in bits `[7:1]` and the R/W bit in bit 0, 1 for a read. -/
def addrByte (addr : Byte) (rw : Bool) : Byte := (addr <<< 1) ||| (BitVec.ofBool rw).setWidth 8

/-- The bits of a byte in the order of the wire, most significant first (R72). -/
def msbFirst (v : Byte) : List Level :=
  [v.getLsbD 7, v.getLsbD 6, v.getLsbD 5, v.getLsbD 4, v.getLsbD 3, v.getLsbD 2, v.getLsbD 1, v.getLsbD 0]

/-- The byte whose bits came in this order, most significant first (R72, R171). -/
def ofMsbFirst (bits : List Level) : Byte :=
  bits.foldl (fun v b => (v <<< 1) ||| (BitVec.ofBool b).setWidth 8) 0#8

/-- `H` of R153, the minimum half period in ticks. -/
def halfPeriodTicks (clockRate freq : Nat) : Nat := ceilDiv clockRate (2 * freq)

/-- `Q` of R153, the quarter period in ticks. -/
def quarterPeriodTicks (clockRate freq : Nat) : Nat := ceilDiv clockRate (4 * freq)

end Sys2Proof.Machine
end

