-- ==== Sys2Proof/Machine/Flags.lean ====
section
/-! DEFINITION. What the window's registers hold and do: the address map of spec/20_memory.md R54, the words a read of FSEL and
LEV returns (spec/10_state.md R25 to R27, R55), what a write does to the pins (R56), and the acknowledge's polarity (R72). The
block's one status flag is `bus.dir` (R22). -/

namespace Sys2Proof.Machine

/-- The word whose bits below `n` are `f` of their number, the others 0. -/
def wordOfBits (f : Nat → Bool) : Nat → Word
  | 0 => 0#32
  | n + 1 => wordOfBits f n ||| ((BitVec.ofBool (f n)).setWidth 32 <<< n)

/-- A modelled register of the window (R25, R26), by its array and word number. -/
inductive WindowReg where
  | fsel (w : Nat)
  | set (w : Nat)
  | clr (w : Nat)
  | lev (w : Nat)
  deriving DecidableEq, Repr

/-- The word number of offset `off` in an array of `words` words from `base`. -/
def wordIn (base words off : Nat) : Option Nat :=
  if base ≤ off ∧ (off - base) % 4 = 0 ∧ (off - base) / 4 < words then some ((off - base) / 4) else none

/-- The address map of R54, for `n` pins: the register at a byte offset, if one is modelled there. -/
def windowReg (P : Params) (n off : Nat) : Option WindowReg :=
  match wordIn 0 (ceilDiv n fselPerWord) off with
  | some w => some (.fsel w)
  | none =>
    match wordIn P.levOff (ceilDiv n pinsPerBank) off with
    | some w => some (.lev w)
    | none =>
      match wordIn P.setOff (ceilDiv n pinsPerBank) off with
      | some w => some (.set w)
      | none =>
        match wordIn P.clrOff (ceilDiv n pinsPerBank) off with
        | some w => some (.clr w)
        | none => none

/-- The line level of a pin at a level-register read (R27): its latch if it is an output, else the level drawn. -/
def lineLevel (P : Params) (x : Pin) (drawn : Level) : Level :=
  if x.fsel = P.fnOutput then x.latch else drawn

/-- The word a read of function-select word `w` returns (R25, R55): each pin's field, and the drawn word in the reserved
bits. -/
def fselWord (pins : List Pin) (w : Nat) (drawn : Word) : Word :=
  wordOfBits (fun i =>
    match pins[10 * w + i / fselBits]? with
    | some x => if i < 30 then x.fsel.getLsbD (i % fselBits) else drawn.getLsbD i
    | none => drawn.getLsbD i) 32

/-- The word a read of level word `w` returns (R26, R55): each pin's line level, and the drawn word in the reserved bits. -/
def levWord (P : Params) (pins : List Pin) (w : Nat) (drawn : Word) : Word :=
  wordOfBits (fun i =>
    match pins[32 * w + i]? with
    | some x => lineLevel P x (drawn.getLsbD i)
    | none => drawn.getLsbD i) 32

/-- `f` of each pin's number and record, the first pin's number being `p`. -/
def mapPinsFrom (f : Nat → Pin → Pin) (p : Nat) : List Pin → List Pin
  | [] => []
  | x :: rest => f p x :: mapPinsFrom f (p + 1) rest

/-- `f` of each pin's number and record. -/
def mapPins (f : Nat → Pin → Pin) (pins : List Pin) : List Pin := mapPinsFrom f 0 pins

/-- Only the record of pin `p` changed. -/
def updatePin (p : Nat) (f : Pin → Pin) (pins : List Pin) : List Pin :=
  mapPins (fun q x => if q = p then f x else x) pins

/-- The pins after a write of `v` to function-select word `w` (R25, R56): each field written, reserved bits ignored. -/
def writeFsel (w : Nat) (v : Word) (pins : List Pin) : List Pin :=
  mapPins (fun p x => if p / fselPerWord = w then { x with fsel := v.extractLsb' (fselShift p) 3 } else x) pins

/-- The pins after a write of `v` to a SET word (`lv = true`) or a CLR word (`lv = false`) `w` (R26, R56): the latches its
one-bits name. -/
def writeLatch (lv : Level) (w : Nat) (v : Word) (pins : List Pin) : List Pin :=
  mapPins (fun p x => if p / pinsPerBank = w ∧ v.getLsbD (p % pinsPerBank) then { x with latch := lv } else x) pins

/-- The pins after a write of `v` to a register of the window, or `none` where the write faults (R56, R104). -/
def writePins (P : Params) (off : Nat) (v : Word) (pins : List Pin) : Option (List Pin) :=
  match windowReg P pins.length off with
  | some (.fsel w) => some (writeFsel w v pins)
  | some (.set w) => some (writeLatch true w v pins)
  | some (.clr w) => some (writeLatch false w v pins)
  | some (.lev _) => none
  | none => none

/-- Whether the level of the ninth pulse is an acknowledge: "ACK = data held low by the receiver" (R72). -/
def isAck (level : Level) : Bool := !level

/-- The level a byte's receiver drives on the ninth pulse (R72, R171). -/
def ackLevel (ackflag : Bool) : Level := !ackflag

end Sys2Proof.Machine
end

