-- ==== Sys2Proof/Machine/Ops.lean ====
section
/-! DEFINITION. The named operations on the state: the primitives of spec/00_scope.md R8 (`MemRead`, `MemWrite`, `Tick`,
`WaitUntil`, `draw`, `fault`, `refuse`), the assignments `x <- v` the rules make, and the delivery of a result or an error to the
agent (spec/60_exceptions.md R209, R213). -/

namespace Sys2Proof.Machine

/-! ## Draws (R8) -/

/-- The next answer: one the environment has ready, else the next free value. -/
def Draws.value {α : Type} (free : Nat → α) (d : Draws α) : α :=
  match d.ready with
  | x :: _ => x
  | [] => free d.taken

/-- The draws after that answer has been taken. -/
def Draws.next {α : Type} (d : Draws α) : Draws α :=
  match d.ready with
  | _ :: rest => { d with ready := rest }
  | [] => { d with taken := d.taken + 1 }

/-- The draws after `n` answers have been taken. -/
def Draws.skip {α : Type} : Nat → Draws α → Draws α
  | 0, d => d
  | n + 1, d => Draws.skip n d.next

/-- The word the next level-register read draws (R26, R27). -/
def State.nextLevels (s : State) : Word := s.env.levels.value Config.freeLevels

/-- The word the `n`-th level-register read from now draws; the next one is number 0. -/
def State.levelsAt (s : State) (n : Nat) : Word := (s.env.levels.skip n).value Config.freeLevels

/-- The word the next function-select read draws (R25). -/
def State.nextReserved (s : State) : Word := s.env.reserved.value Config.freeReserved

/-- How far the next counter read lies past the least value allowed (R240, R241). -/
def State.nextDelay (s : State) : Nat := s.env.delays.value Config.freeDelay

/-- The platform's next answer (R100). -/
def State.nextPlatform (s : State) : PlatformAnswer := s.env.platform.value Config.freePlatform

/-! ## Reading the state -/

/-- `NUM_PINS` (R5). -/
def State.numPins (s : State) : Nat := s.pins.length

/-- A pin number that names no pin. -/
def Pin.absent : Pin where
  fsel := 0#3
  latch := false
  dir := none
  last := none

/-- The record of pin `p` (R23, R29). -/
def State.pin (s : State) (p : Nat) : Pin := s.pins.getD p Pin.absent

/-- The bus registers, if each holds a value (R30). -/
def Bus.regs (b : Bus) : Option BusRegs :=
  match b.scl, b.sda, b.dir, b.halfPeriod, b.quarterPeriod, b.lastEdge with
  | some scl, some sda, some dir, some h, some q, some t => some ⟨scl, sda, dir, h, q, t⟩
  | _, _, _, _, _, _ => none

/-- The bus registers of a controller of `n` pins, those that hold none being drawn: a pin number, a direction, a positive tick count or a
tick value, as R30 gives the register its type (log 11). -/
def Bus.readWith (n : Nat) (drawn : BusRegs) (b : Bus) : BusRegs where
  scl := b.scl.getD (drawn.scl % n)
  sda := b.sda.getD (drawn.sda % n)
  dir := b.dir.getD drawn.dir
  halfPeriod := b.halfPeriod.getD (max 1 drawn.halfPeriod)
  quarterPeriod := b.quarterPeriod.getD (max 1 drawn.quarterPeriod)
  lastEdge := b.lastEdge.getD drawn.lastEdge

/-- The values the next reading of the bus registers draws for those that hold none (log 11). -/
def State.nextRegisters (s : State) : BusRegs := s.env.registers.value Config.freeRegisters

/-- The bus registers as a procedure reads them (R30): a register that holds none, which only overlapping I2CINITs or an I2CDISP under
them can bring about, has a fresh free value of its type (log 11). -/
def State.regsRead (s : State) : BusRegs := s.bus.readWith s.numPins s.nextRegisters

/-- The state after that reading: a draw is taken where some register holds none. -/
def State.regsTaken (s : State) : State :=
  match s.bus.regs with
  | some _ => s
  | none => { s with env := { s.env with registers := s.env.registers.next } }

/-- Host agent `a` (R6, R21). -/
def State.agent (s : State) (a : AgentId) : HostAgent := s.agents.getD a HostAgent.none

/-- The list with agent `a`'s record replaced, lengthened by idle agents where it is too short. -/
def setAgentIn (x : HostAgent) : AgentId → List HostAgent → List HostAgent
  | 0, [] => [x]
  | 0, _ :: rest => x :: rest
  | a + 1, [] => HostAgent.none :: setAgentIn x a []
  | a + 1, y :: rest => y :: setAgentIn x a rest

/-- `seq[a] <- q` (R21). -/
def State.setSeq (a : AgentId) (q : Seq) (s : State) : State :=
  { s with agents := setAgentIn { s.agent a with seq := q } a s.agents }

/-- The words agent `a` has issued that no operation has begun from. -/
def State.setPending (a : AgentId) (ws : List Word) (s : State) : State :=
  { s with agents := setAgentIn { s.agent a with pending := ws } a s.agents }

/-! ## History, faults, refusal -/

/-- The event appended to the history (R36). -/
def State.record (e : Event) (s : State) : State := { s with history := s.history ++ [e] }

/-- `fault F` (R8, R210): the reason is appended to `faults`. -/
def State.markFault (f : Fault) (s : State) : State := { s with faults := s.faults ++ [f] }

/-- `refuse` (R76, R211): the mark, and nothing else. -/
def State.refuse (s : State) : State := { s with refused := true }

/-! ## The access primitives -/

/-- `MemRead(off, 4)` by agent `a` (R55): the word read, and the state with the event recorded and the draw taken. -/
def memRead (a : AgentId) (off : Nat) (s : State) : Except Fault (Word × State) :=
  if s.map.isOpen then
    match windowReg s.params s.numPins off with
    | some (.fsel w) =>
      let v := fselWord s.pins w s.nextReserved
      .ok (v, { s with
        env := { s.env with reserved := s.env.reserved.next }
        history := s.history ++ [.memRead a off v] })
    | some (.lev w) =>
      let v := levWord s.params s.pins w s.nextLevels
      .ok (v, { s with
        env := { s.env with levels := s.env.levels.next }
        history := s.history ++ [.memRead a off v] })
    | some (.set _) => .error (.unmodelledRegister off .read)
    | some (.clr _) => .error (.unmodelledRegister off .read)
    | none => .error (.unmodelledRegister off .read)
  else .error (.mapClosedInFlight off .read)

/-- `MemWrite(off, 4, v)` by agent `a` (R56). -/
def memWrite (a : AgentId) (off : Nat) (v : Word) (s : State) : Except Fault State :=
  if s.map.isOpen then
    match writePins s.params off v s.pins with
    | some pins => .ok { s with pins := pins, history := s.history ++ [.memWrite a off v] }
    | none => .error (.unmodelledRegister off .write)
  else .error (.mapClosedInFlight off .write)

/-- The counter read by agent `a` when it may return no value below `least` (R240): the value, never below an earlier one. -/
def readClock (a : AgentId) (least : Nat) (s : State) : Nat × State :=
  let t := max s.clock least + s.nextDelay
  (t, { s with
    clock := t
    env := { s.env with delays := s.env.delays.next }
    history := s.history ++ [.tick a t] })

/-- `Tick()` (R240). -/
def tick (a : AgentId) (s : State) : Nat × State := readClock a 0 s

/-- `WaitUntil(t)` (R241): one micro-step, which returns a value of at least `t` and records one tick. -/
def waitUntil (a : AgentId) (t : Nat) (s : State) : Nat × State := readClock a t s

/-! ## Assignments -/

/-- The assignments the rules make to state that no register access reaches. Each is made with the micro-step before it. -/
inductive Assign where
  /-- `pin[p].dir <- d` (R120, R121). -/
  | pinDir (p : Nat) (d : PinDir)
  /-- `pin[p].last <- v` (R122, R123). -/
  | pinLast (p : Nat) (v : Level)
  /-- `bus.dir <- d` (R143, R144). -/
  | busDir (d : BusDir)
  /-- `bus.lastEdge <- t` (R141, R150). -/
  | lastEdge (t : Nat)
  /-- `bus.scl`, `bus.sda`, `bus.H`, `bus.Q` and `bus.dir <- writing` of I2CINIT (R141). -/
  | busSetup (scl sda h q : Nat)
  /-- `bus.cfg <- configured` (R141). -/
  | busConfigured
  /-- The registers I2CDISP clears (R142). -/
  | busCleared
  /-- `map.base <- b` and `map.open <- true` (R100). -/
  | mapOpened (b : Nat)
  /-- `map.open <- false` and `map.base <- none` (R101). -/
  | mapClosed
  deriving DecidableEq, Repr

/-- The state after an assignment. -/
def State.assign (s : State) : Assign → State
  | .pinDir p d => { s with pins := updatePin p (fun x => { x with dir := some d }) s.pins }
  | .pinLast p v => { s with pins := updatePin p (fun x => { x with last := some v }) s.pins }
  | .busDir d => { s with bus := { s.bus with dir := some d } }
  | .lastEdge t => { s with bus := { s.bus with lastEdge := some t } }
  | .busSetup scl sda h q =>
    { s with bus := { s.bus with
        scl := some scl, sda := some sda, halfPeriod := some h, quarterPeriod := some q, dir := some .writing } }
  | .busConfigured => { s with bus := { s.bus with cfg := .configured } }
  | .busCleared =>
    { s with bus := { s.bus with
        cfg := .unconfigured, scl := none, sda := none, dir := none, halfPeriod := none, quarterPeriod := none
        lastEdge := none } }
  | .mapOpened b => { s with map := { isOpen := true, base := some b } }
  | .mapClosed => { s with map := { isOpen := false, base := none } }

/-- `bus.owner <- o` (R140, R141). -/
def State.setOwner (o : Option AgentId) (s : State) : State := { s with bus := { s.bus with owner := o } }

/-! ## Delivery (R209, R213) -/

/-- The status code of an error (R87, R200). -/
def Error.code : Error → Nat
  | .platformDetectionFailure => 1
  | .privilegeFailure => 2
  | .mappingFailure => 3
  | .configurationError => 4
  | .protocolViolation => 5
  | .registerMapUnavailable => 6

/-- The status of a result record (R87). -/
def Reply.status : Reply → Nat
  | .ok _ => 0
  | .error e => e.code

/-- The end of an operation by `return` or `raise`: `bus.owner` is cleared if the operation set it, and the result goes to the
agent, which the history records. `seq[a] <- Idle` is made where the agent's sequencer is kept. -/
def State.deliver (a : AgentId) (i : Instr) (ownsBus : Bool) (r : Reply) (s : State) : State :=
  (if ownsBus then s.setOwner none else s).record (.completed a i r)

end Sys2Proof.Machine
end

