-- ==== Sys2Proof/Machine/Prog.lean ====
section
/-! DEFINITION. The micro-step sequence of an operation (spec/10_state.md R21) as a program: each node is one micro-step of
spec/20_memory.md R57, or something done with the micro-step before it. A program is run in two ways: `Prog.run`, to its end with
no other agent's micro-step between, and `microStep`, one micro-step at a time from the position an agent's sequencer holds, which
is how micro-steps of several agents interleave. Both make the same accesses, since both follow the one program. -/

namespace Sys2Proof.Machine

/-- The rest of an operation. -/
inductive Prog where
  /-- `return v` or `raise E`: the operation ends. -/
  | done (r : Reply)
  /-- Micro-step `MemRead(off, 4)`. -/
  | read (off : Nat) (k : Word → Prog)
  /-- Micro-step `MemWrite(off, 4, v)`. -/
  | write (off : Nat) (v : Word) (k : Prog)
  /-- Micro-step `Tick()`. -/
  | tick (k : Nat → Prog)
  /-- Micro-step `WaitUntil(t)`. -/
  | wait (t : Nat) (k : Nat → Prog)
  /-- The bus registers read, with the micro-step before (log 13). -/
  | look (k : BusRegs → Prog)
  /-- An assignment, with the micro-step before (log 13). -/
  | set (u : Assign) (k : Prog)
  /-- The host platform's answers to OPEN drawn (R100). -/
  | ask (k : PlatformAnswer → Prog)

/-- The state after the platform's answer is taken. -/
def State.platformTaken (s : State) : State :=
  { s with env := { s.env with platform := s.env.platform.next } }

/-- How a run of a program ends: with a result to deliver, or with a fault. -/
inductive Ended where
  | finished (r : Reply) (s : State)
  | faulted (f : Fault) (s : State)

/-- The whole of a program by agent `a`, no other agent stepping in between. -/
def Prog.run (a : AgentId) : Prog → State → Ended
  | .done r, s => .finished r s
  | .read off k, s =>
    match memRead a off s with
    | .ok (w, s') => Prog.run a (k w) s'
    | .error f => .faulted f s
  | .write off v k, s =>
    match memWrite a off v s with
    | .ok s' => Prog.run a k s'
    | .error f => .faulted f s
  | .tick k, s => Prog.run a (k (Machine.tick a s).1) (Machine.tick a s).2
  | .wait t k, s => Prog.run a (k (waitUntil a t s).1) (waitUntil a t s).2
  | .look k, s => Prog.run a (k s.regsRead) s.regsTaken
  | .set u k, s => Prog.run a k (s.assign u)
  | .ask k, s => Prog.run a (k s.nextPlatform) s.platformTaken

/-- Where a program stands after the parts that are no micro-steps. -/
inductive Settled where
  /-- Before its next micro-step, with these locals. -/
  | waiting (locals : List Answer) (s : State)
  /-- At its end. -/
  | finished (r : Reply) (s : State)
  /-- At a fault. -/
  | faulted (f : Fault) (s : State)

/-- The parts of a program up to its next micro-step. -/
def Prog.settle : Prog → List Answer → State → Settled
  | .done r, _, s => .finished r s
  | .read _ _, l, s => .waiting l s
  | .write _ _ _, l, s => .waiting l s
  | .tick _, l, s => .waiting l s
  | .wait _ _, l, s => .waiting l s
  | .look k, l, s => Prog.settle (k s.regsRead) (l ++ [.regs s.regsRead]) s.regsTaken
  | .set u k, l, s => Prog.settle k l (s.assign u)
  | .ask k, l, s => Prog.settle (k s.nextPlatform) (l ++ [.platform s.nextPlatform]) s.platformTaken

/-- The rest of a program once it has had these answers, or `none` where they are no answers to it. -/
def Prog.resume : Prog → List Answer → Option Prog
  | .set _ k, l => Prog.resume k l
  | p, [] => some p
  | .read _ k, .word w :: l => Prog.resume (k w) l
  | .write _ _ k, .written :: l => Prog.resume k l
  | .tick k, .time t :: l => Prog.resume (k t) l
  | .wait _ k, .time t :: l => Prog.resume (k t) l
  | .look k, .regs b :: l => Prog.resume (k b) l
  | .ask k, .platform p :: l => Prog.resume (k p) l
  | _, _ :: _ => none

/-- `k` of R21: how many micro-steps an operation with these locals has made. -/
def microStepsMade : List Answer → Nat
  | [] => 0
  | .word _ :: l => microStepsMade l + 1
  | .written :: l => microStepsMade l + 1
  | .time _ :: l => microStepsMade l + 1
  | .regs _ :: l => microStepsMade l
  | .platform _ :: l => microStepsMade l

/-- One micro-step by agent `a`, the first of the program `p`, and the parts up to the next one. `l` are the locals so far. -/
def microStep (a : AgentId) (p : Prog) (l : List Answer) (s : State) : Settled :=
  match p with
  | .read off k =>
    match memRead a off s with
    | .ok (w, s') => (k w).settle (l ++ [.word w]) s'
    | .error f => .faulted f s
  | .write off v k =>
    match memWrite a off v s with
    | .ok s' => k.settle (l ++ [.written]) s'
    | .error f => .faulted f s
  | .tick k => (k (Machine.tick a s).1).settle (l ++ [.time (Machine.tick a s).1]) (Machine.tick a s).2
  | .wait t k => (k (waitUntil a t s).1).settle (l ++ [.time (waitUntil a t s).1]) (waitUntil a t s).2
  | .done _ => .faulted .sequencerLost s
  | .look _ => .faulted .sequencerLost s
  | .set _ _ => .faulted .sequencerLost s
  | .ask _ => .faulted .sequencerLost s

/-! ## Commands -/

/-- What a check made before an operation's body ends it with. -/
inductive Stop where
  | fault (f : Fault)
  | error (e : Error)
  deriving DecidableEq, Repr

/-- The first check that fails (R208: later checks are not reached). -/
def firstStop : List (Bool × Stop) → Option Stop
  | [] => none
  | (failed, x) :: rest => if failed then some x else firstStop rest

/-- What a command does: its checks in order, whether it holds `bus.owner` while in flight (R140, R141), and its body. -/
structure Command where
  checks : State → List (Bool × Stop)
  ownsBus : Bool
  body : Params → Prog

/-- `bus.owner <- a` for a command that holds it. -/
def Command.enter (c : Command) (a : AgentId) (s : State) : State :=
  if c.ownsBus then s.setOwner (some a) else s

/-- The state after a command issued by the agent whose turn it is and run to its end, no other agent stepping in between: a
check that fails ends it with its fault or its error (R208, R209), else the body runs inside `bus.owner` (R140). -/
def commandResult (i : Instr) (c : Command) (s : State) : State :=
  match firstStop (c.checks s) with
  | some (.fault f) => s.markFault f
  | some (.error e) => s.deliver s.turn i false (.error e)
  | none =>
    match (c.body s.params).run s.turn (c.enter s.turn s) with
    | .finished r t => t.deliver s.turn i c.ownsBus r
    | .faulted f t => t.markFault f

/-- The meaning of a command: the next state is its result. A fault is a mark in that state (R210), on which `step` stops. -/
def runCommand (i : Instr) (c : Command) (s : State) : Host.Outcome State Fault Refusal :=
  .next (commandResult i c s)

end Sys2Proof.Machine
end

