-- ==== Sys2Proof/Machine/Procedures.lean ====
section
/-! DEFINITION. The procedures the operations are made of, each written as the pseudocode of its rule has it, followed by what
comes after it: `k` is the rest of the operation where the procedure returns, `fail` the rest where it raises ProtocolViolation. -/

namespace Sys2Proof.Machine

/-! ## Digital Pin (spec/41_digital_pin.md) -/

/-- A function-select rewrite: one read, one write, and the attribute with the write (R120, R121). -/
def configureAs (p : Nat) (fn : BitVec 3) (d : PinDir) (k : Prog) : Prog :=
  .read (fselOff p) fun w => .write (fselOff p) (withFsel w p fn) (.set (.pinDir p d) k)

/-- `ConfigureAsOutput(p)` (R120). -/
def configureAsOutput (P : Params) (p : Nat) (k : Prog) : Prog := configureAs p P.fnOutput .output k

/-- `ConfigureAsInput(p)` (R121). -/
def configureAsInput (P : Params) (p : Nat) (k : Prog) : Prog := configureAs p P.fnInput .input k

/-- `SetValue(p, v)` (R122): one write, to SET or to CLR. -/
def setValue (P : Params) (p : Nat) (v : Level) (k : Prog) : Prog :=
  .write (if v then setOff P p else clrOff P p) (bitMask p) (.set (.pinLast p v) k)

/-- `GetValue(p)` (R123): one read of the pin's LEV word. -/
def getValue (P : Params) (p : Nat) (k : Level → Prog) : Prog :=
  .read (levOff P p) fun w => .set (.pinLast p (w.getLsbD (p % pinsPerBank))) (k (w.getLsbD (p % pinsPerBank)))

/-! ## Timing procedures (spec/42_i2c_primitives.md) -/

/-- `SclLow` and `SclHigh` (R150, R151): a wait of `H` past the last edge, the write, and the stamp with the write. -/
def sclTo (P : Params) (v : Level) (k : Prog) : Prog :=
  .look fun b => .wait (b.lastEdge + b.halfPeriod) fun t =>
    .look fun b => setValue P b.scl v (.set (.lastEdge t) k)

/-- `SclLow` (R150). -/
def sclLow (P : Params) (k : Prog) : Prog := sclTo P false k

/-- `SclHigh` (R151). -/
def sclHigh (P : Params) (k : Prog) : Prog := sclTo P true k

/-- `SdaDrive(v)` (R152): a wait of `Q` past the last edge, and the write. No stamp. -/
def sdaDrive (P : Params) (v : Level) (k : Prog) : Prog :=
  .look fun b => .wait (b.lastEdge + b.quarterPeriod) fun _ => .look fun b => setValue P b.sda v k

/-- `SetWriteMode` (R143). -/
def setWriteMode (P : Params) (fail k : Prog) : Prog :=
  .look fun b =>
    match b.dir with
    | .writing => k
    | .reading =>
      getValue P b.scl fun high =>
        if high then fail
        else .look fun b => setValue P b.sda true
          (.look fun b => configureAsOutput P b.sda (.set (.busDir .writing) k))

/-- `SetReadMode` (R144). -/
def setReadMode (P : Params) (fail k : Prog) : Prog :=
  .look fun b =>
    match b.dir with
    | .reading => k
    | .writing =>
      getValue P b.scl fun high =>
        if high then fail
        else .look fun b => configureAsInput P b.sda (.set (.busDir .reading) k)

/-! ## Bits, START and STOP -/

/-- `WriteBit(b)` (R145). -/
def writeBit (P : Params) (b : Level) (fail k : Prog) : Prog :=
  sclLow P (setWriteMode P fail (sdaDrive P b (sclHigh P k)))

/-- `ReadBit` (R146): the sample is taken a quarter period after the rise. -/
def readBit (P : Params) (fail : Prog) (k : Level → Prog) : Prog :=
  sclLow P (setReadMode P fail (sclHigh P
    (.look fun b => .wait (b.lastEdge + b.quarterPeriod) fun _ => .look fun b => getValue P b.sda k)))

/-- START's clock-low window, which brings SDA high (R147, `rearm`). -/
def rearm (P : Params) (fail k : Prog) : Prog :=
  sclLow P (setWriteMode P fail (sdaDrive P true (sclHigh P k)))

/-- `START` (R147). -/
def startCondition (P : Params) (fail k : Prog) : Prog :=
  .look fun b => getValue P b.scl fun high =>
    if high then
      .look fun b =>
        match b.dir with
        | .reading => rearm P fail (sdaDrive P false k)
        | .writing => getValue P b.sda fun sda =>
            if sda then sdaDrive P false k else rearm P fail (sdaDrive P false k)
    else fail

/-- `STOP` (R148). -/
def stopCondition (P : Params) (fail k : Prog) : Prog :=
  sclLow P (setWriteMode P fail (sdaDrive P false (sclHigh P (sdaDrive P true k))))

/-! ## Bytes (spec/43_i2c_transfers.md) -/

/-- `WriteBit` of each bit in turn. -/
def writeBits (P : Params) (fail k : Prog) : List Level → Prog
  | [] => k
  | b :: rest => writeBit P b fail (writeBits P fail k rest)

/-- `n` times `ReadBit`, the bits in the order they came, after those in `got`. -/
def readBits (P : Params) (fail : Prog) (k : List Level → Prog) : Nat → List Level → Prog
  | 0, got => k got
  | n + 1, got => readBit P fail fun b => readBits P fail k n (got ++ [b])

/-- `WriteByte(v)` (R170): eight bits, most significant first, and the acknowledge. -/
def writeByte (P : Params) (v : Byte) (fail : Prog) (k : Bool → Prog) : Prog :=
  writeBits P fail (readBit P fail fun a => k (isAck a)) (msbFirst v)

/-- `ReadByte(ackflag)` (R171): eight bits, most significant first, and the master's acknowledge. -/
def readByte (P : Params) (ackflag : Bool) (fail : Prog) (k : Byte → Prog) : Prog :=
  readBits P fail (fun bits => writeBit P (ackLevel ackflag) fail (k (ofMsbFirst bits))) 8 []

/-- `WriteBytes(list)` (R172): false at the first NACK, later bytes not sent. -/
def writeBytes (P : Params) (fail : Prog) (k : Bool → Prog) : List Byte → Prog
  | [] => k true
  | v :: rest => writeByte P v fail fun ok => if ok then writeBytes P fail k rest else k false

/-- The loop of READ (R174): `n` bytes after those in `got`, each acknowledged but the last. -/
def readBytes (P : Params) (fail : Prog) (k : List Byte → Prog) : Nat → List Byte → Prog
  | 0, got => k got
  | n + 1, got => readByte P (decide (0 < n)) fail fun v => readBytes P fail k n (got ++ [v])

/-! ## Checks common to several commands -/

/-- RegisterMapUnavailable where the map is closed (R200, R206). -/
def mapCheck (s : State) : Bool × Stop := (!s.map.isOpen, .error .registerMapUnavailable)

/-- The checks of the pin commands (R124). -/
def pinChecks (pin : PinField) (s : State) : List (Bool × Stop) :=
  [mapCheck s, (decide (s.numPins ≤ pin.toNat), .error .configurationError)]

/-- The checks of RDW and WRW (R102, R103, R53). -/
def offsetChecks (off : Nat) (s : State) : List (Bool × Stop) :=
  [mapCheck s, (decide (off % 4 ≠ 0), .fault (.misalignedOffset off)),
   (decide (Config.windowSize ≤ off), .fault (.outsideWindow off))]

/-- The checks of the frame every bus command runs in (R140). -/
def frameChecks (s : State) : List (Bool × Stop) :=
  [(decide (s.bus.cfg = .unconfigured), .fault .notConfigured),
   (decide (s.bus.owner ≠ none), .fault .concurrentBusUse),
   mapCheck s]

/-- A bus command without argument checks: its body inside the frame (R140). -/
def busCommand (body : Params → Prog) : Command where
  checks := frameChecks
  ownsBus := true
  body := body

/-- The end of an operation that returns no value. -/
def returnNone : Prog := .done (.ok .none)

/-- `raise ProtocolViolation` delivered to the agent (R205). -/
def raiseProtocolViolation : Prog := .done (.error .protocolViolation)

end Sys2Proof.Machine
end

