-- ==== Sys2Proof/Machine/DigitalPin.lean ====
section
/-! DEFINITION. The Digital Pin operations (spec/41_digital_pin.md R120 to R124). -/

namespace Sys2Proof.Machine

/-- PCFGO (R120). -/
def pcfgoCommand (pin : PinField) : Command where
  checks := pinChecks pin
  ownsBus := false
  body := fun P => configureAsOutput P pin.toNat returnNone

/-- PCFGI (R121). -/
def pcfgiCommand (pin : PinField) : Command where
  checks := pinChecks pin
  ownsBus := false
  body := fun P => configureAsInput P pin.toNat returnNone

/-- PSET (R122). -/
def psetCommand (pin : PinField) (lv : Level) : Command where
  checks := pinChecks pin
  ownsBus := false
  body := fun P => setValue P pin.toNat lv returnNone

/-- PGET (R123). -/
def pgetCommand (pin : PinField) : Command where
  checks := pinChecks pin
  ownsBus := false
  body := fun P => getValue P pin.toNat fun v => .done (.ok (.bit v))

/-- The meaning of PCFGO. -/
def execPcfgo (pin : PinField) (s : State) : Host.Outcome State Fault Refusal :=
  runCommand (.pcfgo pin) (pcfgoCommand pin) s

/-- The meaning of PCFGI. -/
def execPcfgi (pin : PinField) (s : State) : Host.Outcome State Fault Refusal :=
  runCommand (.pcfgi pin) (pcfgiCommand pin) s

/-- The meaning of PSET. -/
def execPset (pin : PinField) (lv : Level) (s : State) : Host.Outcome State Fault Refusal :=
  runCommand (.pset pin lv) (psetCommand pin lv) s

/-- The meaning of PGET. -/
def execPget (pin : PinField) (s : State) : Host.Outcome State Fault Refusal :=
  runCommand (.pget pin) (pgetCommand pin) s

end Sys2Proof.Machine
end

