-- ==== Sys2Proof/Machine/I2cPrimitives.lean ====
section
/-! DEFINITION. Construction, disposal and the primitives of the I2C master (spec/42_i2c_primitives.md R141 to R148). -/

namespace Sys2Proof.Machine

/-- I2CINIT (R141), which is not inside the frame: its own checks, then both pins high and driven, the registers, the first
stamp. -/
def i2cinitCommand (scl sda : PinField) (freq : Word) : Command where
  checks := fun s =>
    [(decide (s.bus.cfg = .configured), .fault .alreadyConfigured), mapCheck s,
     (decide (s.numPins ≤ scl.toNat ∨ s.numPins ≤ sda.toNat ∨ scl = sda ∨ freq = 0#32), .error .configurationError)]
  ownsBus := true
  body := fun P =>
    setValue P scl.toNat true (configureAsOutput P scl.toNat
      (setValue P sda.toNat true (configureAsOutput P sda.toNat
        (.set (.busSetup scl.toNat sda.toNat (halfPeriodTicks P.clockRate freq.toNat)
            (quarterPeriodTicks P.clockRate freq.toNat))
          (.tick fun t => .set (.lastEdge t) (.set .busConfigured returnNone))))))

/-- I2CDISP (R142). -/
def i2cdispCommand : Command :=
  busCommand fun P =>
    .look fun b => configureAsInput P b.scl
      (.look fun b => configureAsInput P b.sda (.set .busCleared returnNone))

/-- SETWM (R143). -/
def setwmCommand : Command := busCommand fun P => setWriteMode P raiseProtocolViolation returnNone

/-- SETRM (R144). -/
def setrmCommand : Command := busCommand fun P => setReadMode P raiseProtocolViolation returnNone

/-- WBIT (R145). -/
def wbitCommand (b : Level) : Command := busCommand fun P => writeBit P b raiseProtocolViolation returnNone

/-- RBIT (R146). -/
def rbitCommand : Command := busCommand fun P => readBit P raiseProtocolViolation fun b => .done (.ok (.bit b))

/-- START (R147). -/
def startCommand : Command := busCommand fun P => startCondition P raiseProtocolViolation returnNone

/-- STOP (R148). -/
def stopCommand : Command := busCommand fun P => stopCondition P raiseProtocolViolation returnNone

/-- The meaning of I2CINIT. -/
def execI2cinit (scl sda : PinField) (freq : Word) (s : State) : Host.Outcome State Fault Refusal :=
  runCommand (.i2cinit scl sda freq) (i2cinitCommand scl sda freq) s

/-- The meaning of I2CDISP. -/
def execI2cdisp (s : State) : Host.Outcome State Fault Refusal := runCommand .i2cdisp i2cdispCommand s

/-- The meaning of SETWM. -/
def execSetwm (s : State) : Host.Outcome State Fault Refusal := runCommand .setwm setwmCommand s

/-- The meaning of SETRM. -/
def execSetrm (s : State) : Host.Outcome State Fault Refusal := runCommand .setrm setrmCommand s

/-- The meaning of WBIT. -/
def execWbit (b : Level) (s : State) : Host.Outcome State Fault Refusal := runCommand (.wbit b) (wbitCommand b) s

/-- The meaning of RBIT. -/
def execRbit (s : State) : Host.Outcome State Fault Refusal := runCommand .rbit rbitCommand s

/-- The meaning of START. -/
def execStart (s : State) : Host.Outcome State Fault Refusal := runCommand .start startCommand s

/-- The meaning of STOP. -/
def execStop (s : State) : Host.Outcome State Fault Refusal := runCommand .stop stopCommand s

end Sys2Proof.Machine
end

