-- ==== Sys2Proof/Machine/I2cTransfers.lean ====
section
/-! DEFINITION. The byte and transaction operations of the I2C master (spec/43_i2c_transfers.md R170 to R174). -/

namespace Sys2Proof.Machine

/-- WBYTE (R170). -/
def wbyteCommand (v : Byte) : Command :=
  busCommand fun P => writeByte P v raiseProtocolViolation fun ack => .done (.ok (.bool ack))

/-- RBYTE (R171). -/
def rbyteCommand (ackflag : Bool) : Command :=
  busCommand fun P => readByte P ackflag raiseProtocolViolation fun v => .done (.ok (.byte v))

/-- WBYTES (R172). -/
def wbytesCommand (data : List Byte) : Command :=
  busCommand fun P => writeBytes P raiseProtocolViolation (fun ok => .done (.ok (.bool ok))) data

/-- What WRITE and READ do on a ProtocolViolation: STOP, which leaves the bus idle, then the error (R173, R174, R205, R213). -/
def stopThenRaise (P : Params) : Prog := stopCondition P raiseProtocolViolation raiseProtocolViolation

/-- The STOP that ends WRITE and READ, outside the handler, and the result (R173, R174). -/
def stopThenReturn (P : Params) (v : Value) : Prog := stopCondition P raiseProtocolViolation (.done (.ok v))

/-- The body of WRITE (R173). -/
def writeBody (addr reg : Byte) (data : List Byte) (P : Params) : Prog :=
  startCondition P (stopThenRaise P)
    (writeByte P (addrByte addr false) (stopThenRaise P) fun ok =>
      if ok then
        writeByte P reg (stopThenRaise P) fun ok =>
          if ok then writeBytes P (stopThenRaise P) (fun ok => stopThenReturn P (.bool ok)) data
          else stopThenReturn P (.bool false)
      else stopThenReturn P (.bool false))

/-- The body of READ (R174). -/
def readBody (addr reg n : Byte) (P : Params) : Prog :=
  startCondition P (stopThenRaise P)
    (writeByte P (addrByte addr false) (stopThenRaise P) fun ok =>
      if ok then
        writeByte P reg (stopThenRaise P) fun ok =>
          if ok then
            startCondition P (stopThenRaise P)
              (writeByte P (addrByte addr true) (stopThenRaise P) fun ok =>
                if ok then
                  readBytes P (stopThenRaise P) (fun out => stopThenReturn P (.bytes out)) n.toNat []
                else stopThenReturn P (.bytes []))
          else stopThenReturn P (.bytes [])
      else stopThenReturn P (.bytes []))

/-- WRITE (R173): the argument check comes after the frame's checks and before any access (R204). -/
def writeCommand (addr reg : Byte) (data : List Byte) : Command where
  checks := fun s => frameChecks s ++ [(decide (128 ≤ addr.toNat), .error .configurationError)]
  ownsBus := true
  body := writeBody addr reg data

/-- READ (R174). -/
def readCommand (addr reg n : Byte) : Command where
  checks := fun s => frameChecks s ++ [(decide (128 ≤ addr.toNat ∨ n = 0#8), .error .configurationError)]
  ownsBus := true
  body := readBody addr reg n

/-- The meaning of WBYTE. -/
def execWbyte (v : Byte) (s : State) : Host.Outcome State Fault Refusal := runCommand (.wbyte v) (wbyteCommand v) s

/-- The meaning of RBYTE. -/
def execRbyte (ackflag : Bool) (s : State) : Host.Outcome State Fault Refusal :=
  runCommand (.rbyte ackflag) (rbyteCommand ackflag) s

/-- The meaning of WBYTES. -/
def execWbytes (data : List Byte) (s : State) : Host.Outcome State Fault Refusal :=
  runCommand (.wbytes data) (wbytesCommand data) s

/-- The meaning of WRITE. -/
def execWrite (addr reg : Byte) (data : List Byte) (s : State) : Host.Outcome State Fault Refusal :=
  runCommand (.write addr reg data) (writeCommand addr reg data) s

/-- The meaning of READ. -/
def execRead (addr reg n : Byte) (s : State) : Host.Outcome State Fault Refusal :=
  runCommand (.read addr reg n) (readCommand addr reg n) s

end Sys2Proof.Machine
end

