-- ==== Sys2Proof/Machine/RegisterMap.lean ====
section
/-! DEFINITION. The Register Map operations (spec/40_register_map.md R100 to R104). -/

namespace Sys2Proof.Machine

/-- OPEN (R100): platform detection, device, map, each failure raised at its stage (R201 to R203). -/
def openCommand : Command where
  checks := fun s => [(s.map.isOpen, .fault .alreadyOpen)]
  ownsBus := false
  body := fun _ => .ask fun p =>
    match p.detected with
    | none => .done (.error .platformDetectionFailure)
    | some b =>
      if p.deviceOpened then
        if p.mapped then .set (.mapOpened b) returnNone else .done (.error .mappingFailure)
      else .done (.error .privilegeFailure)

/-- CLOSE (R101). -/
def closeCommand : Command where
  checks := fun s => [mapCheck s]
  ownsBus := false
  body := fun _ => .set .mapClosed returnNone

/-- RDW (R102). -/
def rdwCommand (off : Nat) : Command where
  checks := offsetChecks off
  ownsBus := false
  body := fun _ => .read off fun w => .done (.ok (.word w))

/-- WRW (R103). -/
def wrwCommand (off : Nat) (value : Word) : Command where
  checks := offsetChecks off
  ownsBus := false
  body := fun _ => .write off value returnNone

/-- The meaning of OPEN. -/
def execOpenMap (s : State) : Host.Outcome State Fault Refusal := runCommand .openMap openCommand s

/-- The meaning of CLOSE. -/
def execCloseMap (s : State) : Host.Outcome State Fault Refusal := runCommand .closeMap closeCommand s

/-- The meaning of RDW. -/
def execRdw (off : Nat) (s : State) : Host.Outcome State Fault Refusal := runCommand (.rdw off) (rdwCommand off) s

/-- The meaning of WRW. -/
def execWrw (off : Nat) (value : Word) (s : State) : Host.Outcome State Fault Refusal :=
  runCommand (.wrw off value) (wrwCommand off value) s

end Sys2Proof.Machine
end

