-- ==== Sys2Proof/Machine/Dispatch.lean ====
section
/-! DEFINITION. One arm for each constructor of Instr (spec/30_encoding.md R86). -/

namespace Sys2Proof.Machine

/-- The command `i`, issued by the agent whose turn it is and run to its end. -/
def exec (i : Instr) (s : State) : Host.Outcome State Fault Refusal :=
  match i with
  | .openMap => Sys2Proof.Machine.execOpenMap s
  | .closeMap => Sys2Proof.Machine.execCloseMap s
  | .rdw off => Sys2Proof.Machine.execRdw off s
  | .wrw off value => Sys2Proof.Machine.execWrw off value s
  | .pcfgo pin => Sys2Proof.Machine.execPcfgo pin s
  | .pcfgi pin => Sys2Proof.Machine.execPcfgi pin s
  | .pset pin lv => Sys2Proof.Machine.execPset pin lv s
  | .pget pin => Sys2Proof.Machine.execPget pin s
  | .i2cinit scl sda freq => Sys2Proof.Machine.execI2cinit scl sda freq s
  | .i2cdisp => Sys2Proof.Machine.execI2cdisp s
  | .setwm => Sys2Proof.Machine.execSetwm s
  | .setrm => Sys2Proof.Machine.execSetrm s
  | .wbit b => Sys2Proof.Machine.execWbit b s
  | .rbit => Sys2Proof.Machine.execRbit s
  | .start => Sys2Proof.Machine.execStart s
  | .stop => Sys2Proof.Machine.execStop s
  | .wbyte v => Sys2Proof.Machine.execWbyte v s
  | .rbyte ackflag => Sys2Proof.Machine.execRbyte ackflag s
  | .wbytes data => Sys2Proof.Machine.execWbytes data s
  | .write addr reg data => Sys2Proof.Machine.execWrite addr reg data s
  | .read addr reg n => Sys2Proof.Machine.execRead addr reg n s

end Sys2Proof.Machine
end

