-- ==== Sys2Proof/Machine/Agents.lean ====
section
/-! DEFINITION. How host agents move (spec/10_state.md R21, spec/20_memory.md R57): taking the next command from the words an agent
has issued, beginning an operation, one micro-step of an operation in flight, and finishing one. -/

namespace Sys2Proof.Machine

/-- The checks and the body of each command. -/
def commandOf : Instr → Command
  | .openMap => openCommand
  | .closeMap => closeCommand
  | .rdw off => rdwCommand off
  | .wrw off value => wrwCommand off value
  | .pcfgo pin => pcfgoCommand pin
  | .pcfgi pin => pcfgiCommand pin
  | .pset pin lv => psetCommand pin lv
  | .pget pin => pgetCommand pin
  | .i2cinit scl sda freq => i2cinitCommand scl sda freq
  | .i2cdisp => i2cdispCommand
  | .setwm => setwmCommand
  | .setrm => setrmCommand
  | .wbit b => wbitCommand b
  | .rbit => rbitCommand
  | .start => startCommand
  | .stop => stopCommand
  | .wbyte v => wbyteCommand v
  | .rbyte ackflag => rbyteCommand ackflag
  | .wbytes data => wbytesCommand data
  | .write addr reg data => writeCommand addr reg data
  | .read addr reg n => readCommand addr reg n

/-- What an idle agent finds in the words it has issued. -/
inductive Fetched where
  /-- A command, and the state with its words taken. -/
  | command (i : Instr) (s : State)
  /-- A command the decoder refuses (R76): the mark, and its words taken. -/
  | refusal (s : State)
  /-- A command whose operand words are not all there (log 9). -/
  | incomplete (c : Word)
  /-- No command. -/
  | nothing

/-- The next command of agent `a` (R21, R76). -/
def fetch (a : AgentId) (s : State) : Fetched :=
  match decode (s.agent a).pending with
  | .ok (i, rest) => .command i (s.setPending a rest)
  | .error (.unlistedOpcode c) => .refusal (s.setPending a ((s.agent a).pending.drop (commandLength c))).refuse
  | .error (.mustBeZero c) => .refusal (s.setPending a ((s.agent a).pending.drop (commandLength c))).refuse
  | .error (.padding c) => .refusal (s.setPending a ((s.agent a).pending.drop (commandLength c))).refuse
  | .error (.incomplete c) => .incomplete c
  | .error .noCommand => .nothing

/-- The agent's sequencer after the parts up to the next micro-step: still busy, or idle with the result delivered (R21, R209). A
fault leaves it where it stood. -/
def park (a : AgentId) (i : Instr) (c : Command) : Settled → State
  | .waiting l s => s.setSeq a (.busy i l)
  | .finished r s => (s.deliver a i c.ownsBus r).setSeq a .idle
  | .faulted f s => s.markFault f

/-- The beginning of an operation by agent `a`: its checks and, where they pass, `bus.owner` and the parts before its first
micro-step (R21, R140). No micro-step is made. -/
def begin (a : AgentId) (i : Instr) (s : State) : State :=
  match firstStop ((commandOf i).checks s) with
  | some (.fault f) => s.markFault f
  | some (.error e) => s.deliver a i false (.error e)
  | none =>
    park a i (commandOf i) (((commandOf i).body s.params).settle [] ((commandOf i).enter a (s.setSeq a (.busy i []))))

/-- The rest of the operation agent `a` has in flight. -/
def restOf (i : Instr) (l : List Answer) (s : State) : Option Prog := ((commandOf i).body s.params).resume l

/-- One step of agent `a`: the beginning of its next operation, or one micro-step of the one in flight (R21). An idle agent with
nothing issued does nothing. -/
def agentStep (a : AgentId) (s : State) : Host.Outcome State Fault Refusal :=
  match (s.agent a).seq with
  | .idle =>
    match fetch a s with
    | .command i t => .next (begin a i t)
    | .refusal t => .next t
    | .incomplete c => .refused (.incompleteCommand c)
    | .nothing => .next s
  | .busy i l =>
    match restOf i l s with
    | some p => .next (park a i (commandOf i) (microStep a p l s))
    | none => .next (s.markFault .sequencerLost)

/-- All the micro-steps left of an operation of agent `a`, no other agent stepping in between. -/
def finish (a : AgentId) (i : Instr) (p : Prog) (s : State) : State :=
  match p.run a s with
  | .finished r t => (t.deliver a i (commandOf i).ownsBus r).setSeq a .idle
  | .faulted f t => t.markFault f

/-- A whole operation of the agent whose turn it is: its next command by `exec`, or the rest of the one it has in flight. -/
def operationStep (s : State) : Host.Outcome State Fault Refusal :=
  match (s.agent s.turn).seq with
  | .idle =>
    match fetch s.turn s with
    | .command i t => exec i t
    | .refusal t => .next t
    | .incomplete c => .refused (.incompleteCommand c)
    | .nothing => .next s
  | .busy i l =>
    match restOf i l s with
    | some p => .next (finish s.turn i p s)
    | none => .next (s.markFault .sequencerLost)

end Sys2Proof.Machine
end

