-- ==== Sys2Proof/Machine/Step.lean ====
section
/-! DEFINITION. One step of the machine. A faulted state takes no step (spec/10_state.md R35). Where `sched` lays down the order of
micro-steps (spec/20_memory.md R57), the step is one step of the agent it names; where it is empty, the step is a whole operation of
the agent whose turn it is (log 5). -/

namespace Sys2Proof.Machine

/-- One step. -/
def step (s : State) : Host.Outcome State Fault Refusal :=
  match s.faults with
  | f :: _ => .fault f
  | [] =>
    match s.sched with
    | a :: rest => agentStep a { s with sched := rest }
    | [] => operationStep s

/-- The state in which the agent whose turn it is has issued exactly the command of these bits (spec/opcode_table.json's
numbering), and moves next by itself. -/
def State.withFetchWord (s : State) (nbits w : Nat) : State :=
  { s with
    sched := []
    agents := setAgentIn { seq := .idle, pending := tableWords nbits w } s.turn s.agents }

end Sys2Proof.Machine
end

