-- ==== Sys2Proof/Machine/Wire.lean ====
section
/-! DEFINITION. The I2C wire trace of spec/20_memory.md R60, a function of the event history, and the conditions read off it. -/

namespace Sys2Proof.Machine

/-- The levels of SCL and of SDA. -/
abbrev WirePoint := Level × Level

/-- The bus commands, which run inside the frame of R140. -/
def isBusCommand : Instr → Bool
  | .openMap => false
  | .closeMap => false
  | .rdw _ => false
  | .wrw _ _ => false
  | .pcfgo _ => false
  | .pcfgi _ => false
  | .pset _ _ => false
  | .pget _ => false
  | .i2cinit _ _ _ => false
  | .i2cdisp => true
  | .setwm => true
  | .setrm => true
  | .wbit _ => true
  | .rbit => true
  | .start => true
  | .stop => true
  | .wbyte _ => true
  | .rbyte _ => true
  | .wbytes _ => true
  | .write _ _ _ => true
  | .read _ _ _ => true

/-- Whether agent `a` has a bus command in flight (R21): a read of it that no completion follows yet is the master's. -/
def State.masterInFlight (s : State) (a : AgentId) : Bool :=
  match (s.agent a).seq with
  | .busy i _ => isBusCommand i
  | .idle => false

/-- Whether the operation agent `a` is in before `events` is one of the I2C master's: its next completion is a bus command's, or, where
none follows, `inFlight a` (log 20). -/
def ofMaster (inFlight : AgentId → Bool) (a : AgentId) : List Event → Bool
  | [] => inFlight a
  | .completed a' i _ :: rest => if a' = a then isBusCommand i else ofMaster inFlight a rest
  | .memRead _ _ _ :: rest => ofMaster inFlight a rest
  | .memWrite _ _ _ :: rest => ofMaster inFlight a rest
  | .tick _ _ :: rest => ofMaster inFlight a rest

/-- The level of pin `p` that the master's next read of its level word shows in `events`, the pins being `pins` before them (R60);
`none` where they show no such read before the pin is made an output. -/
def nextRead (P : Params) (inFlight : AgentId → Bool) (p : Nat) : List Pin → List Event → Option Level
  | _, [] => none
  | pins, .memRead a off v :: rest =>
    if off = levOff P p ∧ ofMaster inFlight a rest then some (v.getLsbD (p % pinsPerBank))
    else nextRead P inFlight p pins rest
  | pins, .memWrite _ off v :: rest =>
    match writePins P off v pins with
    | some pins' => if (pins'.getD p Pin.absent).fsel = P.fnOutput then none else nextRead P inFlight p pins' rest
    | none => nextRead P inFlight p pins rest
  | pins, .tick _ _ :: rest => nextRead P inFlight p pins rest
  | pins, .completed _ _ _ :: rest => nextRead P inFlight p pins rest

/-- What a wire trace is taken with: the parameters, the bus's pins, which agents have a bus command in flight at its end, and the
draw for pin `p` after the first `k` events of the history, where no read of the master shows one (R27, log 20). -/
structure WireView where
  params : Params
  scl : Nat
  sda : Nat
  inFlight : AgentId → Bool
  draw : Nat → Nat → Level

/-- The line level of pin `p` after the first `k` events of the history, of which `events` are the rest (R60): its latch while it is an
output, else the level the master's next read of its level word sees, a draw where the history shows no such read. -/
def wireLevel (V : WireView) (p k : Nat) (pins : List Pin) (events : List Event) : Level :=
  lineLevel V.params (pins.getD p Pin.absent) ((nextRead V.params V.inFlight p pins events).getD (V.draw k p))

/-- The pair of levels after the first `k` events. -/
def wirePoint (V : WireView) (k : Nat) (pins : List Pin) (events : List Event) : WirePoint :=
  (wireLevel V V.scl k pins events, wireLevel V V.sda k pins events)

/-- Whether pin `p` has the same function and latch in both. -/
def samePinOutput (p : Nat) (pins pins' : List Pin) : Bool :=
  (pins.getD p Pin.absent).fsel == (pins'.getD p Pin.absent).fsel &&
    (pins.getD p Pin.absent).latch == (pins'.getD p Pin.absent).latch

/-- The pairs after each event that changes either pin's function or latch (R60), from the pins `pins` and the first `k` events on. -/
def wireChanges (V : WireView) : Nat → List Pin → List Event → List WirePoint
  | _, _, [] => []
  | k, pins, .memWrite _ off v :: rest =>
    match writePins V.params off v pins with
    | some pins' =>
      if samePinOutput V.scl pins pins' && samePinOutput V.sda pins pins' then wireChanges V (k + 1) pins' rest
      else wirePoint V (k + 1) pins' rest :: wireChanges V (k + 1) pins' rest
    | none => wireChanges V (k + 1) pins rest
  | k, pins, .memRead _ _ _ :: rest => wireChanges V (k + 1) pins rest
  | k, pins, .tick _ _ :: rest => wireChanges V (k + 1) pins rest
  | k, pins, .completed _ _ _ :: rest => wireChanges V (k + 1) pins rest

/-- The wire trace of `events`, which follow the first `k` of the history, from the pair at their beginning (log 20). -/
def wireTrace (V : WireView) (k : Nat) (pins : List Pin) (events : List Event) : List WirePoint :=
  wirePoint V k pins events :: wireChanges V k pins events

/-- A clock pulse: SCL 0 to 1. -/
def isClockPulse (x y : WirePoint) : Bool := !x.1 && y.1

/-- The bits of the clock pulses in order: the SDA level while SCL stays 1 after the rise (R60). DESIGN CHOICE (log 27): where SDA
changes while SCL stays 1, the bit is the level right after the rise. -/
def pulseBits : List WirePoint → List Level
  | [] => []
  | [_] => []
  | x :: y :: rest => if isClockPulse x y then y.2 :: pulseBits (y :: rest) else pulseBits (y :: rest)

/-- The bytes of a row of pulses, eight bits and a ninth pulse each, most significant bit first (R72). Pulses left over are dropped. -/
def bytesOnWire : List Level → List Byte
  | b₇ :: b₆ :: b₅ :: b₄ :: b₃ :: b₂ :: b₁ :: b₀ :: _ :: rest =>
    ofMsbFirst [b₇, b₆, b₅, b₄, b₃, b₂, b₁, b₀] :: bytesOnWire rest
  | _ => []

/-- How many neighbouring pairs of a trace are related so. -/
def countChanges (p : WirePoint → WirePoint → Bool) : List WirePoint → Nat
  | [] => 0
  | [_] => 0
  | x :: y :: rest => (if p x y then 1 else 0) + countChanges p (y :: rest)

/-- A START condition: SDA 1 to 0 while SCL is 1 (R60). DESIGN CHOICE (log 28): SCL is 1 both before and after, so a change of SDA by the
event that changes SCL is none. -/
def isStartCondition (x y : WirePoint) : Bool :=
  x == (true, true) && y == (true, false)

/-- A STOP condition: SDA 0 to 1 while SCL is 1 (R60). DESIGN CHOICE (log 28): SCL is 1 both before and after, so a change of SDA by the
event that changes SCL is none. -/
def isStopCondition (x y : WirePoint) : Bool :=
  x == (true, false) && y == (true, true)

/-- The events a state's history holds beyond those of an earlier state. -/
def newEvents (s t : State) : List Event := t.history.drop s.history.length

/-- The bus's wire trace over the events between two states, with these draws for the levels no read of the master shows. -/
def State.traceTo (s t : State) (b : BusRegs) (draw : Nat → Nat → Level) : List WirePoint :=
  wireTrace { params := s.params, scl := b.scl, sda := b.sda, inFlight := t.masterInFlight, draw := draw }
    s.history.length s.pins (newEvents s t)

end Sys2Proof.Machine
end

