-- ==== Sys2Proof/Safety.lean ====
section
/-! DEFINITION. What counts as a safe state and a safe run, in the terms the statements use: the constraints on the parameters
(spec/00_scope.md R5), quiescence (spec/70_reset_and_hazards.md R244), the conditions under which a bus command runs normally
(spec/42_i2c_primitives.md R140), and the wire trace (spec/20_memory.md R60). -/

namespace Sys2Proof.Machine

/-! ## Parameters -/

/-- Two arrays of words of the window, by base and number of words, share no word. -/
abbrev arraysApart (base₁ words₁ base₂ words₂ : Nat) : Prop :=
  base₁ + 4 * words₁ ≤ base₂ ∨ base₂ + 4 * words₂ ≤ base₁

/-- The constraint of R5 on the parameters: at most 64 pins; the set, clear and level arrays lie in the window, at multiples of
4, and overlap neither the function-select words nor each other; and (log 26) the two function codes differ and the counter
runs. -/
abbrev paramsOk (P : Params) (n : Nat) : Prop :=
  n ≤ 64 ∧
  (P.setOff % 4 = 0 ∧ P.clrOff % 4 = 0 ∧ P.levOff % 4 = 0) ∧
  (P.setOff + 4 * ceilDiv n pinsPerBank ≤ Config.windowSize ∧ P.clrOff + 4 * ceilDiv n pinsPerBank ≤ Config.windowSize ∧
    P.levOff + 4 * ceilDiv n pinsPerBank ≤ Config.windowSize) ∧
  (arraysApart 0 (ceilDiv n fselPerWord) P.setOff (ceilDiv n pinsPerBank) ∧
    arraysApart 0 (ceilDiv n fselPerWord) P.clrOff (ceilDiv n pinsPerBank) ∧
    arraysApart 0 (ceilDiv n fselPerWord) P.levOff (ceilDiv n pinsPerBank)) ∧
  (arraysApart P.setOff (ceilDiv n pinsPerBank) P.clrOff (ceilDiv n pinsPerBank) ∧
    arraysApart P.setOff (ceilDiv n pinsPerBank) P.levOff (ceilDiv n pinsPerBank) ∧
    arraysApart P.clrOff (ceilDiv n pinsPerBank) P.levOff (ceilDiv n pinsPerBank)) ∧
  P.fnInput ≠ P.fnOutput ∧ 0 < P.clockRate

/-- The state's parameters meet the constraint of R5. -/
abbrev State.paramsOk (s : State) : Prop := Machine.paramsOk s.params s.numPins

/-! ## Safe states -/

/-- No fault and no refusal has happened (R35, R211). -/
abbrev State.unmarked (s : State) : Prop := s.faults = [] ∧ s.refused = false

/-- Quiescence (R244): every agent idle, no bus operation in flight, no fault, no refusal. -/
abbrev State.quiescent (s : State) : Prop :=
  (∀ x ∈ s.agents, x.seq = .idle) ∧ s.bus.owner = none ∧ s.unmarked

/-- A bus command passes the frame's checks (R140) and its procedures have what they need: the map is open, the bus is
configured with the registers `b` and free, its pins are two pins of the controller, SCL is driven, and SDA is driven exactly in
writing mode (R31). -/
abbrev State.busReady (s : State) (b : BusRegs) : Prop :=
  s.paramsOk ∧ s.map.isOpen = true ∧ s.bus.cfg = .configured ∧ s.bus.owner = none ∧ s.bus.regs = some b ∧
  b.scl ≠ b.sda ∧ b.scl < s.numPins ∧ b.sda < s.numPins ∧
  (s.pin b.scl).fsel = s.params.fnOutput ∧
  (s.pin b.sda).fsel =
    (match b.dir with
     | .writing => s.params.fnOutput
     | .reading => s.params.fnInput)

/-- The bus is at idle: both lines driven high, in writing mode (R148, R244). -/
abbrev State.busIdle (s : State) (b : BusRegs) : Prop :=
  s.busReady b ∧ b.dir = .writing ∧ (s.pin b.scl).latch = true ∧ (s.pin b.sda).latch = true

/-! ## Kinds of commands -/

/-- The argument values R200 lists for ConfigurationError, for `n` pins: a pin that does not exist, `scl = sda`, `F = 0`, an
address of 128 or more, a READ count of 0. -/
abbrev badArguments (n : Nat) (i : Instr) : Prop :=
  match i with
  | .openMap => False
  | .closeMap => False
  | .rdw _ => False
  | .wrw _ _ => False
  | .pcfgo pin => n ≤ pin.toNat
  | .pcfgi pin => n ≤ pin.toNat
  | .pset pin _ => n ≤ pin.toNat
  | .pget pin => n ≤ pin.toNat
  | .i2cinit scl sda freq => n ≤ scl.toNat ∨ n ≤ sda.toNat ∨ scl = sda ∨ freq = 0#32
  | .i2cdisp => False
  | .setwm => False
  | .setrm => False
  | .wbit _ => False
  | .rbit => False
  | .start => False
  | .stop => False
  | .wbyte _ => False
  | .rbyte _ => False
  | .wbytes _ => False
  | .write addr _ _ => 128 ≤ addr.toNat
  | .read addr _ n => 128 ≤ addr.toNat ∨ n = 0#8

/-- The checks on the bus that come before the map check pass (R208.2, R208.3): a bus command finds the bus configured and
free, I2CINIT finds it unconfigured. -/
abbrev State.busAdmits (s : State) (i : Instr) : Prop :=
  (isBusCommand i = true → s.bus.cfg = .configured ∧ s.bus.owner = none) ∧
  (∀ scl sda freq, i = .i2cinit scl sda freq → s.bus.cfg = .unconfigured)

/-! ## Frames -/

/-- Everything but the pins, the bus registers, the clock, the history and the environment is as it was. -/
abbrev State.sameElsewhere (s t : State) : Prop :=
  t = { s with pins := t.pins, bus := t.bus, clock := t.clock, history := t.history, env := t.env }

/-- What no bus command but I2CDISP changes: everything elsewhere, every pin but SCL and SDA, every bus register but `dir` and
`lastEdge`; and SCL keeps its function. -/
abbrev State.busFrame (s t : State) (b : BusRegs) : Prop :=
  s.sameElsewhere t ∧ t.numPins = s.numPins ∧ (∀ q, q ≠ b.scl → q ≠ b.sda → t.pin q = s.pin q) ∧
  t.bus = { s.bus with dir := t.bus.dir, lastEdge := t.bus.lastEdge } ∧ (t.pin b.scl).fsel = (s.pin b.scl).fsel

/-- The pulses of a byte the master sends: its bits, most significant first, and the pulse the receiver answers (R72). -/
def sentPulses (v : Byte) (ack : Bool) : List Level := msbFirst v ++ [ackLevel ack]

/-- The pulses of a list's sending, up to and with the first byte that is not acknowledged, the first byte being number `j` (R172). -/
def sentUntilNack (ack : Nat → Bool) (j : Nat) : List Byte → List Level
  | [] => []
  | v :: rest => sentPulses v (ack j) ++ (if ack j then sentUntilNack ack (j + 1) rest else [])

/-- The pulses of a byte the master receives: the eight bits the slave drives, and the master's acknowledge (R72, R171). -/
def receivedPulses (v : Byte) (ackflag : Bool) : List Level := msbFirst v ++ [ackLevel ackflag]

/-- The level drawn for SDA at the `n`-th level-register read from now (R27). -/
def State.sdaDraw (s : State) (b : BusRegs) (n : Nat) : Level := (s.levelsAt n).getLsbD (b.sda % 32)

/-- The byte the slave drives when the level-register reads that sample it are eight in a row from the `n`-th on. -/
def State.byteDrawn (s : State) (b : BusRegs) (n : Nat) : Byte :=
  ofMsbFirst ((List.range 8).map fun m => s.sdaDraw b (n + m))

/-- The state with every pin's Digital Pin attributes removed (R29). -/
def State.withoutAttributes (s : State) : State :=
  { s with pins := s.pins.map fun x => { x with dir := none, last := none } }

/-! ## Runs -/

/-- `n` steps of one agent alone (R21), from a state on. -/
def agentSteps (a : AgentId) : Nat → State → Host.Outcome State Fault Refusal
  | 0, s => .next s
  | n + 1, s =>
    match agentStep a s with
    | .next t => agentSteps a n t
    | .fault f => .fault f
    | .refused r => .refused r

/-- The bus registers are sound: the pins exist and differ, and the tick counts are those of a positive frequency (R30, R153); an
I2CINIT in flight, which is to write them, has passed its argument checks (R141). -/
def State.busSound (s : State) : Prop :=
  0 < s.params.clockRate ∧
  (∀ p, s.bus.scl = some p → p < s.numPins) ∧
  (∀ p, s.bus.sda = some p → p < s.numPins) ∧
  (∀ p q, s.bus.scl = some p → s.bus.sda = some q → p ≠ q) ∧
  (∀ h q, s.bus.halfPeriod = some h → s.bus.quarterPeriod = some q → 1 ≤ q ∧ q ≤ h) ∧
  (∀ a scl sda freq l, (s.agent a).seq = .busy (.i2cinit scl sda freq) l →
    scl.toNat < s.numPins ∧ sda.toNat < s.numPins ∧ scl ≠ sda ∧ freq ≠ 0#32)

/-- The counter values in a history, in order (R36). -/
def tickValues : List Event → List Nat
  | [] => []
  | .tick _ t :: rest => t :: tickValues rest
  | .memRead _ _ _ :: rest => tickValues rest
  | .memWrite _ _ _ :: rest => tickValues rest
  | .completed _ _ _ :: rest => tickValues rest

/-- The counter has not run back (R240): the values read are in order, and the last is the clock or before it. -/
def State.clockSound (s : State) : Prop :=
  (tickValues s.history).Pairwise (· ≤ ·) ∧ ∀ t ∈ tickValues s.history, t ≤ s.clock

end Sys2Proof.Machine
end

