-- ==== Sys2Proof/Certificates/Slice0/Obligations.lean ====
section
/-! DEFINITION. The statements for the provers. Each docstring says which rule of spec/ it formalises. In every statement `s.turn`
is the host agent that issues the command, a draw (`nextLevels`, `levelsAt`, `nextReserved`, `nextPlatform`, a counter value) is
whatever the environment answers, and the variable `draw` is any levels of the released lines at the points of the wire trace where no
read of the master shows them (R27, R60, log 20). Every count of START and STOP conditions is by the model's choice (log 28) that an event
which changes SDA and SCL together, as where a released SDA is drawn anew while SCL falls, makes neither. -/

open Sys2Proof Sys2Proof.Machine

/-! ## Encoding -/

/-- R75, R78 to R85: every well-formed command is read back from its words, with every operand, and the words after it are left. -/
def Obligations.DecodeReadsBackEncode : Prop :=
  ∀ (i : Instr) (rest : List Word), i.wf = true → decode (encode i ++ rest) = .ok (i, rest)

/-- R76, R77: a decoded command is well-formed and the words taken are its encoding, so each command has one encoding and a word with
a reserved bit or a padding byte set decodes to nothing. -/
def Obligations.EncodingIsTheOnlyOne : Prop :=
  ∀ (ws : List Word) (i : Instr) (rest : List Word), decode ws = .ok (i, rest) → i.wf = true ∧ ws = encode i ++ rest

/-- R77: an unlisted opcode, a one in a bit the format marks 0, and a payload with a non-zero padding byte are refused. -/
def Obligations.IllegalEncodingsAreRejected : Prop :=
  ∀ (c : Word) (rest : List Word),
    ((∀ o ∈ Op.all, o.code ≠ opcodeOf c) → decode (c :: rest) = .error (.unlistedOpcode c)) ∧
    (∀ o ∈ Op.all, o.code = opcodeOf c → c &&& o.mustBeZero ≠ 0#32 → decode (c :: rest) = .error (.mustBeZero c)) ∧
    (∀ o ∈ [Op.wbytes, Op.write], o.code = opcodeOf c → c &&& o.mustBeZero = 0#32 →
      payloadWords (c.extractLsb' 0 8).toNat ≤ rest.length →
      (∃ j, (c.extractLsb' 0 8).toNat ≤ j ∧ j < 4 * payloadWords (c.extractLsb' 0 8).toNat ∧
        (rest.getD (j / 4) 0#32).extractLsb' (8 * (j % 4)) 8 ≠ 0#8) →
      decode (c :: rest) = .error (.padding c))

/-- R75: the length of a command is known from its first word. -/
def Obligations.FirstWordGivesLength : Prop :=
  ∀ (c : Word) (ws : List Word) (i : Instr) (rest : List Word), decode (c :: ws) = .ok (i, rest) →
    ws.length + 1 = commandLength c + rest.length

/-- R78 to R85: words written out from the encodings of the spec decode to the commands they stand for, one for each format. -/
def Obligations.SpecWordsDecode : Prop :=
  decode [0x01000000#32] = .ok (.openMap, []) ∧
  decode [0x03000FFC#32] = .ok (.rdw 0xFFC, []) ∧
  decode [0x0400001C#32, 0x00020000#32] = .ok (.wrw 0x1C 0x00020000#32, []) ∧
  decode [0x12000051#32] = .ok (.pset 17#6 true, []) ∧
  decode [0x20000083#32, 0x000186A0#32] = .ok (.i2cinit 3#6 2#6 100000#32, []) ∧
  decode [0x24000001#32] = .ok (.wbit true, []) ∧
  decode [0x280000A5#32] = .ok (.wbyte 0xA5#8, []) ∧
  decode [0x29000100#32] = .ok (.rbyte true, []) ∧
  decode [0x2A000003#32, 0x00030201#32] = .ok (.wbytes [0x01#8, 0x02#8, 0x03#8], []) ∧
  decode [0x2B480102#32, 0x0000A060#32] = .ok (.write 0x48#8 0x01#8 [0x60#8, 0xA0#8], []) ∧
  decode [0x2C480102#32] = .ok (.read 0x48#8 0x01#8 0x02#8, [])

/-! ## Steps -/

/-- R21, R76: where the words an idle agent has issued decode to a command, the step is that command, its words taken. That the step is the
whole command, of the agent whose turn it is, is the model's choice (log 5): R21 has one micro-step after another. -/
def Obligations.StepRunsTheDecodedCommand : Prop :=
  ∀ (s : State) (i : Instr) (rest : List Word), s.faults = [] → s.sched = [] → (s.agent s.turn).seq = .idle →
    decode (s.agent s.turn).pending = .ok (i, rest) → step s = exec i (s.setPending s.turn rest)

/-- The model's choice (log 5): the one total order of R57 stands in `sched`, and where that list is not empty, the step is one step of its
first agent. -/
def Obligations.StepFollowsTheLaidDownOrder : Prop :=
  ∀ (s : State) (a : AgentId) (rest : List AgentId), s.faults = [] → s.sched = a :: rest →
    step s = agentStep a { s with sched := rest }

/-- R211: a command word that decodes to no operation sets the mark and performs nothing, whichever words of the agent are taken; no
step clears the mark. -/
def Obligations.RefusedCommandOnlySetsTheMark : Prop :=
  (∀ (s : State) (c : Word) (ws : List Word), s.faults = [] → s.sched = [] → (s.agent s.turn).seq = .idle →
    (s.agent s.turn).pending = c :: ws →
    ((∀ o ∈ Op.all, o.code ≠ opcodeOf c) ∨ (∃ o ∈ Op.all, o.code = opcodeOf c ∧ c &&& o.mustBeZero ≠ 0#32) ∨
      decode (c :: ws) = .error (.padding c)) →
    ∃ rest, step s = .next { (s.setPending s.turn rest) with refused := true }) ∧
  (∀ s t : State, s.refused = true → step s = .next t → t.refused = true)

/-- The model's choice (log 8): of a refused command, the words that its first word says are taken from the agent, one where the opcode is
unlisted, in a whole operation's step and in the agent's own step. -/
def Obligations.RefusedWordsAreTaken : Prop :=
  ∀ (s : State) (a : AgentId) (c : Word) (ws : List Word), (s.agent a).seq = .idle → (s.agent a).pending = c :: ws →
    ((∀ o ∈ Op.all, o.code ≠ opcodeOf c) ∨ (∃ o ∈ Op.all, o.code = opcodeOf c ∧ c &&& o.mustBeZero ≠ 0#32) ∨
      decode (c :: ws) = .error (.padding c)) →
    agentStep a s = .next { (s.setPending a ((c :: ws).drop (commandLength c))) with refused := true } ∧
    (a = s.turn → operationStep s = agentStep a s) ∧
    ((∀ o ∈ Op.all, o.code ≠ opcodeOf c) → commandLength c = 1)

/-- R35: a faulted state takes no step, and a step only adds to `faults`; and (R36, R5) it only adds to the history and changes neither
the parameters nor the number of pins. -/
def Obligations.FaultsAndHistoryOnlyGrow : Prop :=
  (∀ (s : State) (f : Fault) (fs : List Fault), s.faults = f :: fs → step s = .fault f) ∧
  (∀ s t : State, step s = .next t →
    (∃ fs, t.faults = s.faults ++ fs) ∧ (∃ es, t.history = s.history ++ es) ∧
    t.params = s.params ∧ t.numPins = s.numPins)

/-- R5, R35: no command, run to its end, changes the parameters, the number of pins or the refusal mark. That it leaves the agents' records,
the turn and the order laid down is the model's choice (log 5): the meaning is the whole command, and the turn and the order are the
model's own fields. -/
def Obligations.CommandsLeaveAgentsAndParametersAlone : Prop :=
  ∀ (i : Instr) (s t : State), exec i s = .next t →
    t.agents = s.agents ∧ t.turn = s.turn ∧ t.sched = s.sched ∧ t.params = s.params ∧ t.numPins = s.numPins ∧
    t.refused = s.refused

/-- R21: each micro-step of an operation in flight advances `k` by one, or ends the operation. -/
def Obligations.MicroStepAdvancesPosition : Prop :=
  ∀ (s t : State) (a : AgentId) (i j : Instr) (l m : List Answer), (s.agent a).seq = .busy i l → agentStep a s = .next t →
    t.faults = s.faults → (t.agent a).seq = .busy j m → j = i ∧ microStepsMade m = microStepsMade l + 1

/-- R209, R21: the step in which an operation ends, by a result or an error, leaves its agent idle and, after a bus command,
`bus.owner` none. -/
def Obligations.CompletionLeavesAgentIdleAndBusFree : Prop :=
  ∀ (s t : State) (a : AgentId) (i : Instr) (r : Reply), agentStep a s = .next t →
    (newEvents s t).getLast? = some (.completed a i r) →
    (t.agent a).seq = .idle ∧ (isBusCommand i = true → t.bus.owner = none)

/-- R8, R21, R57: beginning a command and taking its micro-steps one by one, no other agent stepping in between, ends in the state
the command's meaning gives (the list of agents compared agent by agent). That the meaning is the whole command, and that beginning is a
step of its own which makes no micro-step, are the model's choices (log 5, log 13). -/
def Obligations.MicroStepsAloneAreTheCommand : Prop :=
  ∀ (i : Instr) (s t : State), (s.agent s.turn).seq = .idle → exec i s = .next t → t.faults = s.faults →
    ∃ (n : Nat) (u : State), agentSteps s.turn n (begin s.turn i s) = .next u ∧ { u with agents := t.agents } = t ∧
      ∀ a, u.agent a = t.agent a

/-! ## Reset -/

/-- R37, R230: at the start of the process the map is closed, the pin attributes and the bus registers are none, every agent is idle,
nothing is marked and the history is empty. (The contents of the function-select fields and latches, the counter and the parameters
are the model's choices, log 1 to 3, and no part of this statement.) -/
def Obligations.ResetIsProcessStart : Prop :=
  State.reset.map = { isOpen := false, base := none } ∧
  (∀ p, (State.reset.pin p).dir = none ∧ (State.reset.pin p).last = none) ∧
  State.reset.bus = { cfg := .unconfigured, scl := none, sda := none, dir := none, halfPeriod := none, quarterPeriod := none,
                      lastEdge := none, owner := none } ∧
  (∀ a, (State.reset.agent a).seq = .idle) ∧
  State.reset.faults = [] ∧ State.reset.refused = false ∧ State.reset.history = []

/-- The two invariants below hold at reset. -/
def Obligations.ResetMeetsTheInvariants : Prop := State.reset.clockSound ∧ State.reset.busSound

/-! ## Invariants that every step keeps -/

/-- R240: successive counter values never run back, over all agents and interleavings. -/
def Obligations.CounterNeverRunsBack : Prop :=
  ∀ s t : State, s.clockSound → step s = .next t →
    t.clockSound ∧ s.clock ≤ t.clock ∧ ∀ v ∈ tickValues (newEvents s t), s.clock ≤ v

/-- R30, R153: the bus registers stay sound, over all agents and interleavings. -/
def Obligations.BusRegistersStaySound : Prop :=
  ∀ s t : State, s.busSound → step s = .next t → t.busSound

/-! ## The whole machine -/

/-- R29, R34: no operation reads a pin's direction attribute or last value: two states that differ in them alone step to states that differ
in them alone, over all agents and interleavings. -/
def Obligations.AttributesAreNeverRead : Prop :=
  ∀ s s' t : State, s'.withoutAttributes = s.withoutAttributes → step s = .next t →
    ∃ t', step s' = .next t' ∧ t'.withoutAttributes = t.withoutAttributes

/-- R22, R28, R30: which commands write which registers: the map's, OPEN and CLOSE alone; the bus's, I2CINIT and the bus commands alone;
and of the bus commands, only I2CDISP writes more than `bus.dir`, `bus.lastEdge` and `bus.owner`. -/
def Obligations.RegistersAreWrittenOnlyByTheirOperations : Prop :=
  ∀ (i : Instr) (s t : State), exec i s = .next t →
    (i ≠ .openMap → i ≠ .closeMap → t.map = s.map) ∧
    (isBusCommand i = false → (∀ scl sda freq, i ≠ .i2cinit scl sda freq) → t.bus = s.bus) ∧
    (isBusCommand i = true → i ≠ .i2cdisp →
      t.bus = { s.bus with dir := t.bus.dir, lastEdge := t.bus.lastEdge, owner := t.bus.owner })

/-! ## Register Map -/

/-- R100, R201 to R203: OPEN on a closed map raises the failure of the first stage that fails, changing nothing, else maps the
window at the base detected. -/
def Obligations.OpenRunsItsStages : Prop :=
  ∀ s : State, s.map.isOpen = false →
    ∃ (r : Reply) (m : RegisterMap),
      exec .openMap s = .next { s with
        map := m
        env := { s.env with platform := s.env.platform.next }
        history := s.history ++ [.completed s.turn .openMap r] } ∧
      (s.nextPlatform.detected = none → r = .error .platformDetectionFailure ∧ m = s.map) ∧
      (∀ b, s.nextPlatform.detected = some b → s.nextPlatform.deviceOpened = false →
        r = .error .privilegeFailure ∧ m = s.map) ∧
      (∀ b, s.nextPlatform.detected = some b → s.nextPlatform.deviceOpened = true → s.nextPlatform.mapped = false →
        r = .error .mappingFailure ∧ m = s.map) ∧
      (∀ b, s.nextPlatform.detected = some b → s.nextPlatform.deviceOpened = true → s.nextPlatform.mapped = true →
        r = .ok .none ∧ m = { isOpen := true, base := some b })

/-- R101: CLOSE unmaps an open window and writes no register. -/
def Obligations.CloseUnmapsTheWindow : Prop :=
  ∀ s : State, s.map.isOpen = true →
    exec .closeMap s = .next { s with
      map := { isOpen := false, base := none }
      history := s.history ++ [.completed s.turn .closeMap (.ok .none)] }

/-- R206: every operation but OPEN that finds the map closed raises RegisterMapUnavailable and changes no state. -/
def Obligations.ClosedMapIsUnavailable : Prop :=
  ∀ (i : Instr) (s : State), i ≠ .openMap → s.map.isOpen = false → s.busAdmits i →
    exec i s = .next { s with history := s.history ++ [.completed s.turn i (.error .registerMapUnavailable)] }

/-- R25, R102: a read of a function-select word returns each pin's field in its place and the draw in the reserved bits, and changes
nothing but the history. -/
def Obligations.RdwReadsFunctionSelect : Prop :=
  ∀ (s : State) (w : Nat), s.map.isOpen = true → w < ceilDiv s.numPins 10 → 4 * w < 4096 →
    ∃ v : Word,
      exec (.rdw (4 * w)) s = .next { s with
        env := { s.env with reserved := s.env.reserved.next }
        history := s.history ++ [.memRead s.turn (4 * w) v, .completed s.turn (.rdw (4 * w)) (.ok (.word v))] } ∧
      (∀ p, p < s.numPins → p / 10 = w → v.extractLsb' (3 * (p % 10)) 3 = (s.pin p).fsel) ∧
      (∀ k, k < 32 → (30 ≤ k ∨ s.numPins ≤ 10 * w + k / 3) → v.getLsbD k = s.nextReserved.getLsbD k)

/-- R26, R27, R102: a read of a level word returns each pin's line level, its latch if it is an output and else the draw, and the draw
in the reserved bits. -/
def Obligations.RdwReadsLevels : Prop :=
  ∀ (s : State) (w : Nat), s.paramsOk → s.map.isOpen = true → w < ceilDiv s.numPins 32 →
    ∃ v : Word,
      exec (.rdw (s.params.levOff + 4 * w)) s = .next { s with
        env := { s.env with levels := s.env.levels.next }
        history := s.history ++ [.memRead s.turn (s.params.levOff + 4 * w) v,
          .completed s.turn (.rdw (s.params.levOff + 4 * w)) (.ok (.word v))] } ∧
      (∀ k, k < 32 → v.getLsbD k =
        if 32 * w + k < s.numPins ∧ (s.pin (32 * w + k)).fsel = s.params.fnOutput then (s.pin (32 * w + k)).latch
        else s.nextLevels.getLsbD k)

/-- R25, R56, R103: a write to a function-select word replaces the fields of all its pins, ignores the reserved bits and changes
nothing else. -/
def Obligations.WrwWritesFunctionSelect : Prop :=
  ∀ (s : State) (w : Nat) (v : Word), s.map.isOpen = true → w < ceilDiv s.numPins 10 → 4 * w < 4096 →
    ∃ pins : List Pin,
      exec (.wrw (4 * w) v) s = .next { s with
        pins := pins
        history := s.history ++ [.memWrite s.turn (4 * w) v, .completed s.turn (.wrw (4 * w) v) (.ok .none)] } ∧
      pins.length = s.numPins ∧
      (∀ p, p < s.numPins → pins.getD p Pin.absent =
        if p / 10 = w then { s.pin p with fsel := v.extractLsb' (3 * (p % 10)) 3 } else s.pin p)

/-- R26, R56, R103: a write to a SET word sets, and to a CLR word clears, the latches its one-bits name, and no other; zero bits and
reserved bits change nothing. -/
def Obligations.WrwSetsAndClearsLatches : Prop :=
  ∀ (s : State) (w : Nat) (v : Word) (lv : Level), s.paramsOk → s.map.isOpen = true → w < ceilDiv s.numPins 32 →
    ∃ pins : List Pin,
      exec (.wrw ((if lv then s.params.setOff else s.params.clrOff) + 4 * w) v) s = .next { s with
        pins := pins
        history := s.history ++ [.memWrite s.turn ((if lv then s.params.setOff else s.params.clrOff) + 4 * w) v,
          .completed s.turn (.wrw ((if lv then s.params.setOff else s.params.clrOff) + 4 * w) v) (.ok .none)] } ∧
      pins.length = s.numPins ∧
      (∀ p, p < s.numPins → pins.getD p Pin.absent =
        if p / 32 = w ∧ v.getLsbD (p % 32) = true then { s.pin p with latch := lv } else s.pin p)

/-- R104: with the map open, a read of an aligned offset that is no FSEL or LEV word, and a write of one that is no FSEL, SET or CLR
word, faults UnmodelledRegister and changes nothing but the fault list. -/
def Obligations.UnmodelledOffsetsFault : Prop :=
  ∀ (s : State) (off : Nat), s.map.isOpen = true → off % 4 = 0 → off < 4096 →
    ((∀ w, w < ceilDiv s.numPins 10 → off ≠ 4 * w) → (∀ w, w < ceilDiv s.numPins 32 → off ≠ s.params.levOff + 4 * w) →
      exec (.rdw off) s = .next { s with faults := s.faults ++ [.unmodelledRegister off .read] }) ∧
    (∀ v, (∀ w, w < ceilDiv s.numPins 10 → off ≠ 4 * w) →
      (∀ w, w < ceilDiv s.numPins 32 → off ≠ s.params.setOff + 4 * w ∧ off ≠ s.params.clrOff + 4 * w) →
      exec (.wrw off v) s = .next { s with faults := s.faults ++ [.unmodelledRegister off .write] })

/-- R53, R102, R103: RDW and WRW at an offset that is no multiple of 4 fault MisalignedOffset, and at an aligned one of 4096 or more
fault OutsideWindow. -/
def Obligations.BadOffsetsFault : Prop :=
  ∀ (s : State) (off : Nat) (v : Word), s.map.isOpen = true →
    (off % 4 ≠ 0 →
      exec (.rdw off) s = .next { s with faults := s.faults ++ [.misalignedOffset off] } ∧
      exec (.wrw off v) s = .next { s with faults := s.faults ++ [.misalignedOffset off] }) ∧
    (off % 4 = 0 → 4096 ≤ off →
      exec (.rdw off) s = .next { s with faults := s.faults ++ [.outsideWindow off] } ∧
      exec (.wrw off v) s = .next { s with faults := s.faults ++ [.outsideWindow off] })

/-! ## Digital Pin -/

/-- R120, R121: PCFGO makes the pin an output, and PCFGI an input, by one read and one write of its function-select word; its latch
and every other pin are as they were. -/
def Obligations.DirectionCommandsRewriteOneField : Prop :=
  ∀ (s : State) (pin : PinField) (out : Bool), s.map.isOpen = true → pin.toNat < s.numPins →
    ∃ (pins : List Pin) (w : Word),
      exec (if out then .pcfgo pin else .pcfgi pin) s = .next { s with
        pins := pins
        env := { s.env with reserved := s.env.reserved.next }
        history := s.history ++
          [.memRead s.turn (4 * (pin.toNat / 10)) w,
           .memWrite s.turn (4 * (pin.toNat / 10))
             (withFsel w pin.toNat (if out then s.params.fnOutput else s.params.fnInput)),
           .completed s.turn (if out then .pcfgo pin else .pcfgi pin) (.ok .none)] } ∧
      w = fselWord s.pins (pin.toNat / 10) s.nextReserved ∧
      pins.length = s.numPins ∧
      (∀ p, p < s.numPins → pins.getD p Pin.absent =
        if p = pin.toNat then
          { s.pin p with
            fsel := if out then s.params.fnOutput else s.params.fnInput
            dir := some (if out then .output else .input) }
        else s.pin p)

/-- R122: PSET writes one mask to SET or CLR; the pin's latch and last value become the level, and no other pin changes. -/
def Obligations.PsetDrivesOneLatch : Prop :=
  ∀ (s : State) (pin : PinField) (lv : Level), s.paramsOk → s.map.isOpen = true → pin.toNat < s.numPins →
    ∃ pins : List Pin,
      exec (.pset pin lv) s = .next { s with
        pins := pins
        history := s.history ++
          [.memWrite s.turn ((if lv then s.params.setOff else s.params.clrOff) + 4 * (pin.toNat / 32))
             (1#32 <<< (pin.toNat % 32)),
           .completed s.turn (.pset pin lv) (.ok .none)] } ∧
      pins.length = s.numPins ∧
      (∀ p, p < s.numPins → pins.getD p Pin.absent =
        if p = pin.toNat then { s.pin p with latch := lv, last := some lv } else s.pin p)

/-- R123, R27: PGET returns the pin's latch if it is an output and else the draw, and writes its last value alone. -/
def Obligations.PgetReadsTheLevel : Prop :=
  ∀ (s : State) (pin : PinField), s.paramsOk → s.map.isOpen = true → pin.toNat < s.numPins →
    ∃ (pins : List Pin) (w : Word) (v : Level),
      exec (.pget pin) s = .next { s with
        pins := pins
        env := { s.env with levels := s.env.levels.next }
        history := s.history ++
          [.memRead s.turn (s.params.levOff + 4 * (pin.toNat / 32)) w,
           .completed s.turn (.pget pin) (.ok (.bit v))] } ∧
      v = w.getLsbD (pin.toNat % 32) ∧
      v = (if (s.pin pin.toNat).fsel = s.params.fnOutput then (s.pin pin.toNat).latch
           else s.nextLevels.getLsbD (pin.toNat % 32)) ∧
      pins.length = s.numPins ∧
      (∀ p, p < s.numPins → pins.getD p Pin.absent =
        if p = pin.toNat then { s.pin p with last := some v } else s.pin p)

/-- R125: after `SetValue(a, v)`, `GetValue(b)` of another pin that is an output returns `latch[b]`, the value it would have returned
before, and of one that is no output a draw. -/
def Obligations.PinsAreIndependent : Prop :=
  ∀ (s t u x : State) (a b : PinField) (v : Level), s.paramsOk → s.map.isOpen = true → a.toNat < s.numPins →
    b.toNat < s.numPins → a ≠ b → exec (.pset a v) s = .next t → exec (.pget b) t = .next u → exec (.pget b) s = .next x →
    ((s.pin b.toNat).fsel = s.params.fnOutput →
      u.history.getLast? = some (.completed s.turn (.pget b) (.ok (.bit (s.pin b.toNat).latch))) ∧
      x.history.getLast? = some (.completed s.turn (.pget b) (.ok (.bit (s.pin b.toNat).latch)))) ∧
    ((s.pin b.toNat).fsel ≠ s.params.fnOutput →
      u.history.getLast? = some (.completed s.turn (.pget b) (.ok (.bit (s.nextLevels.getLsbD (b.toNat % 32))))))

/-- R59, R122: SetValue micro-steps of two agents on different pins leave the same pins in either order. -/
def Obligations.ConcurrentPsetsCommute : Prop :=
  ∀ (s : State) (A B : AgentId) (p q : PinField) (v w : Level), s.paramsOk → s.map.isOpen = true → s.faults = [] →
    A ≠ B → p ≠ q → p.toNat < s.numPins → q.toNat < s.numPins →
    (s.agent A).seq = .busy (.pset p v) [] → (s.agent B).seq = .busy (.pset q w) [] →
    ∃ t u : State,
      Host.Core.run Sys2Proof.core 2 { s with sched := [A, B] } = .next t ∧
      Host.Core.run Sys2Proof.core 2 { s with sched := [B, A] } = .next u ∧
      t.pins = u.pins ∧ (t.pin p.toNat).latch = v ∧ (t.pin q.toNat).latch = w ∧ t.faults = []

/-- R59, R235: when two agents change directions of two pins of one function-select word and both reads come before both writes, the
first write is lost: the pin keeps the field it had, although its attribute says output, and no fault is raised. -/
def Obligations.DirectionChangeCanBeLost : Prop :=
  ∀ (s : State) (A B : AgentId) (p q : PinField), s.map.isOpen = true → s.faults = [] → A ≠ B → p ≠ q →
    p.toNat / 10 = q.toNat / 10 → p.toNat < s.numPins → q.toNat < s.numPins →
    (s.agent A).seq = .busy (.pcfgo p) [] → (s.agent B).seq = .busy (.pcfgo q) [] →
    ∃ t : State,
      Host.Core.run Sys2Proof.core 4 { s with sched := [A, B, A, B] } = .next t ∧
      (t.pin p.toNat).fsel = (s.pin p.toNat).fsel ∧ (t.pin p.toNat).dir = some .output ∧
      (t.pin q.toNat).fsel = s.params.fnOutput ∧ (t.agent A).seq = .idle ∧ (t.agent B).seq = .idle ∧ t.faults = []

/-! ## Errors and faults -/

/-- R204: a command with arguments R200 lists as invalid, once the checks before them pass, raises ConfigurationError and changes
nothing. -/
def Obligations.BadArgumentsChangeNothing : Prop :=
  ∀ (i : Instr) (s : State), badArguments s.numPins i → s.map.isOpen = true → s.busAdmits i →
    exec i s = .next { s with history := s.history ++ [.completed s.turn i (.error .configurationError)] }

/-- R208, R210: the faults on the bus and the map come before every other check: OPEN on an open map, I2CINIT on a configured bus, a
bus command on an unconfigured bus, and a bus command on a bus another operation holds. -/
def Obligations.FirstChecksFault : Prop :=
  ∀ s : State,
    (s.map.isOpen = true → exec .openMap s = .next { s with faults := s.faults ++ [.alreadyOpen] }) ∧
    (∀ scl sda freq, s.bus.cfg = .configured →
      exec (.i2cinit scl sda freq) s = .next { s with faults := s.faults ++ [.alreadyConfigured] }) ∧
    (∀ i, isBusCommand i = true → s.bus.cfg = .unconfigured →
      exec i s = .next { s with faults := s.faults ++ [.notConfigured] }) ∧
    (∀ i a, isBusCommand i = true → s.bus.cfg = .configured → s.bus.owner = some a →
      exec i s = .next { s with faults := s.faults ++ [.concurrentBusUse] })

/-! ## I2C primitives -/

/-- R153: `H` and `Q` are the exact ceilings of `CLOCK_RATE/(2F)` and `CLOCK_RATE/(4F)`, and `1 ≤ Q ≤ H`. -/
def Obligations.TickCountsAreExactCeilings : Prop :=
  ∀ rate freq : Nat, 0 < rate → 0 < freq →
    halfPeriodTicks rate freq = (rate + 2 * freq - 1) / (2 * freq) ∧
    quarterPeriodTicks rate freq = (rate + 4 * freq - 1) / (4 * freq) ∧
    rate ≤ halfPeriodTicks rate freq * (2 * freq) ∧ (∀ n, rate ≤ n * (2 * freq) → halfPeriodTicks rate freq ≤ n) ∧
    rate ≤ quarterPeriodTicks rate freq * (4 * freq) ∧ (∀ n, rate ≤ n * (4 * freq) → quarterPeriodTicks rate freq ≤ n) ∧
    1 ≤ quarterPeriodTicks rate freq ∧ quarterPeriodTicks rate freq ≤ halfPeriodTicks rate freq

/-- R141: I2CINIT with valid arguments drives both pins high, each latch before its direction, and leaves the bus configured, in
writing mode, with `H`, `Q` and the first stamp. -/
def Obligations.I2cinitCreatesTheBus : Prop :=
  ∀ (s : State) (scl sda : PinField) (freq : Word), s.paramsOk → s.map.isOpen = true → s.bus.cfg = .unconfigured →
    scl.toNat < s.numPins → sda.toNat < s.numPins → scl ≠ sda → freq ≠ 0#32 →
    ∃ (t : State) (w₁ w₂ : Word) (stamp : Nat),
      exec (.i2cinit scl sda freq) s = .next t ∧ s.sameElsewhere t ∧ t.numPins = s.numPins ∧
      (∀ q, q ≠ scl.toNat → q ≠ sda.toNat → t.pin q = s.pin q) ∧
      t.pin scl.toNat = { fsel := s.params.fnOutput, latch := true, dir := some .output, last := some true } ∧
      t.pin sda.toNat = { fsel := s.params.fnOutput, latch := true, dir := some .output, last := some true } ∧
      t.bus = { cfg := .configured, scl := some scl.toNat, sda := some sda.toNat, dir := some .writing,
                halfPeriod := some (halfPeriodTicks s.params.clockRate freq.toNat),
                quarterPeriod := some (quarterPeriodTicks s.params.clockRate freq.toNat),
                lastEdge := some stamp, owner := none } ∧
      s.clock ≤ stamp ∧ t.clock = stamp ∧
      t.history = s.history ++
        [.memWrite s.turn (setOff s.params scl.toNat) (bitMask scl.toNat),
         .memRead s.turn (fselOff scl.toNat) w₁,
         .memWrite s.turn (fselOff scl.toNat) (withFsel w₁ scl.toNat s.params.fnOutput),
         .memWrite s.turn (setOff s.params sda.toNat) (bitMask sda.toNat),
         .memRead s.turn (fselOff sda.toNat) w₂,
         .memWrite s.turn (fselOff sda.toNat) (withFsel w₂ sda.toNat s.params.fnOutput),
         .tick s.turn stamp,
         .completed s.turn (.i2cinit scl sda freq) (.ok .none)]

/-- R142: I2CDISP makes SCL and then SDA an input, keeps their latches, and clears every bus register. -/
def Obligations.I2cdispReleasesThePins : Prop :=
  ∀ (s : State) (b : BusRegs), s.busReady b →
    ∃ (t : State) (w₁ w₂ : Word),
      exec .i2cdisp s = .next t ∧ s.sameElsewhere t ∧ t.numPins = s.numPins ∧ t.clock = s.clock ∧
      (∀ q, q ≠ b.scl → q ≠ b.sda → t.pin q = s.pin q) ∧
      t.pin b.scl = { s.pin b.scl with fsel := s.params.fnInput, dir := some .input } ∧
      t.pin b.sda = { s.pin b.sda with fsel := s.params.fnInput, dir := some .input } ∧
      t.bus = { cfg := .unconfigured, scl := none, sda := none, dir := none, halfPeriod := none, quarterPeriod := none,
                lastEdge := none, owner := none } ∧
      t.history = s.history ++
        [.memRead s.turn (fselOff b.scl) w₁,
         .memWrite s.turn (fselOff b.scl) (withFsel w₁ b.scl s.params.fnInput),
         .memRead s.turn (fselOff b.sda) w₂,
         .memWrite s.turn (fselOff b.sda) (withFsel w₂ b.sda s.params.fnInput),
         .completed s.turn .i2cdisp (.ok .none)]

/-- R142, R60: I2CDISP in the middle of a transaction, SCL driven high and SDA low, shows a STOP condition exactly where the released lines
are drawn high, as pull-ups hold them: SCL at its release and after SDA's, and SDA at its own. It shows no START condition, and a clock
pulse exactly where SCL is drawn low and then high. (No read of the master can show these levels, since I2CDISP ends the bus.) That there
is no STOP condition where SCL rises together with SDA is the model's choice (log 28). -/
def Obligations.DisposalWithPullUpsShowsAStop : Prop :=
  ∀ (s : State) (b : BusRegs) (draw : Nat → Nat → Level), s.busReady b → b.dir = .writing → (s.pin b.scl).latch = true →
    (s.pin b.sda).latch = false →
    ∃ (t : State) (scl₁ scl₂ sda₂ : Level),
      exec .i2cdisp s = .next t ∧
      scl₁ = draw (s.history.length + 2) b.scl ∧
      scl₂ = draw (s.history.length + 4) b.scl ∧ sda₂ = draw (s.history.length + 4) b.sda ∧
      countChanges isStopCondition (s.traceTo t b draw) = (if scl₁ ∧ scl₂ ∧ sda₂ then 1 else 0) ∧
      countChanges isStartCondition (s.traceTo t b draw) = 0 ∧
      countChanges isClockPulse (s.traceTo t b draw) = (if scl₁ = false ∧ scl₂ then 1 else 0)

/-- R143: SETWM in writing mode makes no access; in reading mode with SCL low it sets SDA's latch, makes SDA an output and switches;
in reading mode with SCL high it raises ProtocolViolation and changes no pin but SCL's last value. -/
def Obligations.SetwmSwitchesOnlyWhileSclLow : Prop :=
  ∀ (s : State) (b : BusRegs), s.busReady b →
    (b.dir = .writing →
      exec .setwm s = .next { s with history := s.history ++ [.completed s.turn .setwm (.ok .none)] }) ∧
    (b.dir = .reading → (s.pin b.scl).latch = false →
      ∃ (t : State) (w₁ w₂ : Word),
        exec .setwm s = .next t ∧ s.busFrame t b ∧ t.bus = { s.bus with dir := some .writing } ∧
        t.pin b.scl = { s.pin b.scl with last := some false } ∧
        t.pin b.sda = { fsel := s.params.fnOutput, latch := true, dir := some .output, last := some true } ∧
        t.history = s.history ++
          [.memRead s.turn (levOff s.params b.scl) w₁,
           .memWrite s.turn (setOff s.params b.sda) (bitMask b.sda),
           .memRead s.turn (fselOff b.sda) w₂,
           .memWrite s.turn (fselOff b.sda) (withFsel w₂ b.sda s.params.fnOutput),
           .completed s.turn .setwm (.ok .none)]) ∧
    (b.dir = .reading → (s.pin b.scl).latch = true →
      ∃ (t : State) (w : Word),
        exec .setwm s = .next t ∧ s.busFrame t b ∧ t.bus = s.bus ∧
        t.pin b.scl = { s.pin b.scl with last := some true } ∧ t.pin b.sda = s.pin b.sda ∧
        t.history = s.history ++
          [.memRead s.turn (levOff s.params b.scl) w,
           .completed s.turn .setwm (.error .protocolViolation)])

/-- R144: SETRM in reading mode makes no access; in writing mode with SCL low it makes SDA an input and switches, keeping SDA's latch;
in writing mode with SCL high it raises ProtocolViolation and changes no pin but SCL's last value. -/
def Obligations.SetrmSwitchesOnlyWhileSclLow : Prop :=
  ∀ (s : State) (b : BusRegs), s.busReady b →
    (b.dir = .reading →
      exec .setrm s = .next { s with history := s.history ++ [.completed s.turn .setrm (.ok .none)] }) ∧
    (b.dir = .writing → (s.pin b.scl).latch = false →
      ∃ (t : State) (w₁ w₂ : Word),
        exec .setrm s = .next t ∧ s.busFrame t b ∧ t.bus = { s.bus with dir := some .reading } ∧
        t.pin b.scl = { s.pin b.scl with last := some false } ∧
        t.pin b.sda = { s.pin b.sda with fsel := s.params.fnInput, dir := some .input } ∧
        t.history = s.history ++
          [.memRead s.turn (levOff s.params b.scl) w₁,
           .memRead s.turn (fselOff b.sda) w₂,
           .memWrite s.turn (fselOff b.sda) (withFsel w₂ b.sda s.params.fnInput),
           .completed s.turn .setrm (.ok .none)]) ∧
    (b.dir = .writing → (s.pin b.scl).latch = true →
      ∃ (t : State) (w : Word),
        exec .setrm s = .next t ∧ s.busFrame t b ∧ t.bus = s.bus ∧
        t.pin b.scl = { s.pin b.scl with last := some true } ∧ t.pin b.sda = s.pin b.sda ∧
        t.history = s.history ++
          [.memRead s.turn (levOff s.params b.scl) w,
           .completed s.turn .setrm (.error .protocolViolation)])

/-- R145, R150 to R152: WBIT takes SCL low after `H`, switches to writing if it was reading, drives SDA after `Q`, and raises SCL
after `H` more; it ends in writing mode with SCL high and SDA the bit, whatever SCL's level was. -/
def Obligations.WbitSendsOneBit : Prop :=
  ∀ (s : State) (b : BusRegs) (v : Level), s.busReady b →
    ∃ (t : State) (t₁ t₂ t₃ : Nat) (switch : List Event),
      exec (.wbit v) s = .next t ∧ s.busFrame t b ∧
      t.bus.dir = some .writing ∧ t.bus.lastEdge = some t₃ ∧
      t.pin b.scl = { s.pin b.scl with latch := true, last := some true } ∧
      t.pin b.sda =
        { fsel := s.params.fnOutput, latch := v, last := some v
          dir := match b.dir with
            | .writing => (s.pin b.sda).dir
            | .reading => some .output } ∧
      b.lastEdge + b.halfPeriod ≤ t₁ ∧ t₁ + b.quarterPeriod ≤ t₂ ∧ t₁ + b.halfPeriod ≤ t₃ ∧
      t.history = s.history ++
        [.tick s.turn t₁, .memWrite s.turn (clrOff s.params b.scl) (bitMask b.scl)] ++ switch ++
        [.tick s.turn t₂,
         .memWrite s.turn (if v then setOff s.params b.sda else clrOff s.params b.sda) (bitMask b.sda),
         .tick s.turn t₃, .memWrite s.turn (setOff s.params b.scl) (bitMask b.scl),
         .completed s.turn (.wbit v) (.ok .none)] ∧
      (match b.dir with
       | .writing => switch = []
       | .reading => ∃ w₁ w₂, switch =
          [.memRead s.turn (levOff s.params b.scl) w₁, .memWrite s.turn (setOff s.params b.sda) (bitMask b.sda),
           .memRead s.turn (fselOff b.sda) w₂,
           .memWrite s.turn (fselOff b.sda) (withFsel w₂ b.sda s.params.fnOutput)])

/-- R146, R150, R151: RBIT takes SCL low after `H`, switches to reading if it was writing, raises SCL after `H` more, and returns the
level drawn for SDA a quarter period after the rise; it ends in reading mode with SCL high, SDA's latch as it was. -/
def Obligations.RbitReceivesOneBit : Prop :=
  ∀ (s : State) (b : BusRegs), s.busReady b →
    ∃ (t : State) (t₁ t₂ t₃ : Nat) (switch : List Event) (w : Word) (v : Level),
      exec .rbit s = .next t ∧ s.busFrame t b ∧
      t.bus.dir = some .reading ∧ t.bus.lastEdge = some t₂ ∧
      v = s.sdaDraw b (match b.dir with
        | .writing => 1
        | .reading => 0) ∧
      v = w.getLsbD (b.sda % 32) ∧
      t.pin b.scl = { s.pin b.scl with latch := true, last := some true } ∧
      t.pin b.sda =
        { fsel := s.params.fnInput, latch := (s.pin b.sda).latch, last := some v
          dir := match b.dir with
            | .writing => some .input
            | .reading => (s.pin b.sda).dir } ∧
      b.lastEdge + b.halfPeriod ≤ t₁ ∧ t₁ + b.halfPeriod ≤ t₂ ∧ t₂ + b.quarterPeriod ≤ t₃ ∧
      t.history = s.history ++
        [.tick s.turn t₁, .memWrite s.turn (clrOff s.params b.scl) (bitMask b.scl)] ++ switch ++
        [.tick s.turn t₂, .memWrite s.turn (setOff s.params b.scl) (bitMask b.scl),
         .tick s.turn t₃, .memRead s.turn (levOff s.params b.sda) w,
         .completed s.turn .rbit (.ok (.bit v))] ∧
      (match b.dir with
       | .reading => switch = []
       | .writing => ∃ w₁ w₂, switch =
          [.memRead s.turn (levOff s.params b.scl) w₁, .memRead s.turn (fselOff b.sda) w₂,
           .memWrite s.turn (fselOff b.sda) (withFsel w₂ b.sda s.params.fnInput)])

/-- R147: with SCL high, START ends in writing mode with SCL high and SDA low and shows one START condition and no STOP condition; from
writing mode with SDA high it is the one SDA fall a quarter period after the last edge, otherwise it re-arms with one clock pulse of at
least `2H`. -/
def Obligations.StartMakesOneStartCondition : Prop :=
  ∀ (s : State) (b : BusRegs) (draw : Nat → Nat → Level), s.busReady b → (s.pin b.scl).latch = true →
    ∃ (t : State) (e : Nat),
      exec .start s = .next t ∧ s.busFrame t b ∧ t.bus.dir = some .writing ∧ t.bus.lastEdge = some e ∧
      (t.pin b.scl).latch = true ∧ (t.pin b.sda).latch = false ∧ (t.pin b.sda).fsel = s.params.fnOutput ∧
      t.history.getLast? = some (.completed s.turn .start (.ok .none)) ∧
      countChanges isStartCondition (s.traceTo t b draw) = 1 ∧ countChanges isStopCondition (s.traceTo t b draw) = 0 ∧
      (b.dir = .writing → (s.pin b.sda).latch = true → e = b.lastEdge ∧
        ∃ w₁ w₂ t₁, b.lastEdge + b.quarterPeriod ≤ t₁ ∧ t.history = s.history ++
          [.memRead s.turn (levOff s.params b.scl) w₁, .memRead s.turn (levOff s.params b.sda) w₂,
           .tick s.turn t₁, .memWrite s.turn (clrOff s.params b.sda) (bitMask b.sda),
           .completed s.turn .start (.ok .none)]) ∧
      (b.dir = .reading ∨ (s.pin b.sda).latch = false →
        b.lastEdge + 2 * b.halfPeriod ≤ e ∧ countChanges isClockPulse (s.traceTo t b draw) = 1)

/-- R155, R147: with the bus configured and SCL's line level 0 at START's first read, START raises ProtocolViolation before any write,
whatever the direction, SDA's level and the function of either pin. -/
def Obligations.StartWithSclLowFails : Prop :=
  ∀ (s : State) (b : BusRegs), s.paramsOk → s.map.isOpen = true → s.bus.cfg = .configured → s.bus.owner = none →
    s.bus.regs = some b → b.scl < s.numPins →
    lineLevel s.params (s.pin b.scl) (s.nextLevels.getLsbD (b.scl % 32)) = false →
    ∃ (pins : List Pin) (w : Word),
      exec .start s = .next { s with
        pins := pins
        env := { s.env with levels := s.env.levels.next }
        history := s.history ++
          [.memRead s.turn (s.params.levOff + 4 * (b.scl / 32)) w,
           .completed s.turn .start (.error .protocolViolation)] } ∧
      pins.length = s.numPins ∧
      (∀ p, p < s.numPins → pins.getD p Pin.absent =
        if p = b.scl then { s.pin p with last := some false } else s.pin p)

/-- R148: from any state the primitives leave, and with SCL held low, STOP ends at idle and shows exactly one STOP condition, no START
condition and one clock pulse. -/
def Obligations.StopEndsIdleWithOneStopCondition : Prop :=
  ∀ (s : State) (b : BusRegs) (draw : Nat → Nat → Level), s.busReady b →
    ∃ (t : State) (e : Nat),
      exec .stop s = .next t ∧ s.busFrame t b ∧ t.busIdle { b with dir := .writing, lastEdge := e } ∧
      b.lastEdge + 2 * b.halfPeriod ≤ e ∧
      t.history.getLast? = some (.completed s.turn .stop (.ok .none)) ∧
      countChanges isStopCondition (s.traceTo t b draw) = 1 ∧ countChanges isStartCondition (s.traceTo t b draw) = 0 ∧
      countChanges isClockPulse (s.traceTo t b draw) = 1

/-! ## Bytes and transactions -/

/-- R170, R72: WBYTE shows nine clock pulses, the byte's bits most significant first and the pulse the receiver answers, and no START or
STOP condition; its result is true exactly where the level drawn for SDA on the ninth pulse is 0; it ends in reading mode with SCL
high. -/
def Obligations.WbyteSendsMostSignificantFirst : Prop :=
  ∀ (s : State) (b : BusRegs) (v : Byte) (draw : Nat → Nat → Level), s.busReady b →
    ∃ (t : State) (e : Nat) (ack : Bool),
      exec (.wbyte v) s = .next t ∧ s.busFrame t b ∧ t.busReady { b with dir := .reading, lastEdge := e } ∧
      (t.pin b.scl).latch = true ∧
      ack = !(s.sdaDraw b (match b.dir with
        | .writing => 1
        | .reading => 2)) ∧
      t.history.getLast? = some (.completed s.turn (.wbyte v) (.ok (.bool ack))) ∧
      pulseBits (s.traceTo t b draw) = sentPulses v ack ∧
      countChanges isStartCondition (s.traceTo t b draw) = 0 ∧ countChanges isStopCondition (s.traceTo t b draw) = 0

/-- R171, R72: RBYTE returns the byte of the eight levels drawn for SDA, most significant first, drives the acknowledge the operand
asks for on the ninth pulse, and ends in writing mode with SCL high and SDA at that level. -/
def Obligations.RbyteReceivesMostSignificantFirst : Prop :=
  ∀ (s : State) (b : BusRegs) (ackflag : Bool) (draw : Nat → Nat → Level), s.busReady b →
    ∃ (t : State) (e : Nat) (v : Byte),
      exec (.rbyte ackflag) s = .next t ∧ s.busFrame t b ∧ t.busReady { b with dir := .writing, lastEdge := e } ∧
      (t.pin b.scl).latch = true ∧ (t.pin b.sda).latch = !ackflag ∧
      v = s.byteDrawn b (match b.dir with
        | .writing => 1
        | .reading => 0) ∧
      t.history.getLast? = some (.completed s.turn (.rbyte ackflag) (.ok (.byte v))) ∧
      pulseBits (s.traceTo t b draw) = receivedPulses v ackflag ∧
      countChanges isStartCondition (s.traceTo t b draw) = 0 ∧ countChanges isStopCondition (s.traceTo t b draw) = 0

/-- R172: WBYTES sends the bytes up to and with the first that is not acknowledged, and none after it; its result is true exactly where
all are acknowledged; the empty list makes no access. -/
def Obligations.WbytesStopsAtTheFirstNack : Prop :=
  ∀ (s : State) (b : BusRegs) (data : List Byte) (draw : Nat → Nat → Level), s.busReady b →
    ∃ (t : State) (first : Nat) (ok : Bool),
      first = (match b.dir with
        | .writing => 1
        | .reading => 2) ∧
      exec (.wbytes data) s = .next t ∧ s.busFrame t b ∧
      ok = (List.range data.length).all (fun j => !(s.sdaDraw b (first + 3 * j))) ∧
      t.history.getLast? = some (.completed s.turn (.wbytes data) (.ok (.bool ok))) ∧
      pulseBits (s.traceTo t b draw) = sentUntilNack (fun j => !(s.sdaDraw b (first + 3 * j))) 0 data ∧
      countChanges isStartCondition (s.traceTo t b draw) = 0 ∧ countChanges isStopCondition (s.traceTo t b draw) = 0 ∧
      (data = [] → t = { s with history := s.history ++ [.completed s.turn (.wbytes []) (.ok (.bool true))] })

/-- R173, R213: every WRITE with a valid address from a ready bus ends at idle after exactly one STOP condition; with SCL high it
returns a boolean, with SCL held low it reports ProtocolViolation after that STOP. -/
def Obligations.WriteAlwaysStopsOnce : Prop :=
  ∀ (s : State) (b : BusRegs) (addr reg : Byte) (data : List Byte) (draw : Nat → Nat → Level), s.busReady b → addr.toNat < 128 →
    ∃ (t : State) (e : Nat) (r : Reply),
      exec (.write addr reg data) s = .next t ∧ s.busFrame t b ∧ t.busIdle { b with dir := .writing, lastEdge := e } ∧
      t.history.getLast? = some (.completed s.turn (.write addr reg data) r) ∧
      countChanges isStopCondition (s.traceTo t b draw) = 1 ∧
      ((s.pin b.scl).latch = true → ∃ ok, r = .ok (.bool ok)) ∧
      ((s.pin b.scl).latch = false → r = .error .protocolViolation)

/-- R174, R213: the same of READ, whose result with SCL high is empty or of the length asked for. -/
def Obligations.ReadAlwaysStopsOnce : Prop :=
  ∀ (s : State) (b : BusRegs) (addr reg n : Byte) (draw : Nat → Nat → Level), s.busReady b → addr.toNat < 128 → n ≠ 0#8 →
    ∃ (t : State) (e : Nat) (r : Reply),
      exec (.read addr reg n) s = .next t ∧ s.busFrame t b ∧ t.busIdle { b with dir := .writing, lastEdge := e } ∧
      t.history.getLast? = some (.completed s.turn (.read addr reg n) r) ∧
      countChanges isStopCondition (s.traceTo t b draw) = 1 ∧
      ((s.pin b.scl).latch = true → ∃ out : List Byte, r = .ok (.bytes out) ∧ (out = [] ∨ out.length = n.toNat)) ∧
      ((s.pin b.scl).latch = false → r = .error .protocolViolation)

/-- R173, R72, R73: a WRITE from idle shows one START condition, the address byte, the register byte and the data up to the first byte
that is not acknowledged, the STOP's pulse and one STOP condition; its result is true exactly where every byte is acknowledged. That the
bit of the STOP's pulse is the 0 right after the rise is the model's choice (log 27). -/
def Obligations.WriteTransactionOnTheWire : Prop :=
  ∀ (s : State) (b : BusRegs) (addr reg : Byte) (data : List Byte) (draw : Nat → Nat → Level), s.busIdle b → addr.toNat < 128 →
    ∃ (t : State) (ok : Bool),
      exec (.write addr reg data) s = .next t ∧
      ok = (List.range (data.length + 2)).all (fun j => !(s.sdaDraw b (3 + 3 * j))) ∧
      t.history.getLast? = some (.completed s.turn (.write addr reg data) (.ok (.bool ok))) ∧
      pulseBits (s.traceTo t b draw) =
        sentUntilNack (fun j => !(s.sdaDraw b (3 + 3 * j))) 0 (addrByte addr false :: reg :: data) ++ [false] ∧
      countChanges isStartCondition (s.traceTo t b draw) = 1 ∧ countChanges isStopCondition (s.traceTo t b draw) = 1

/-- R175: the round-trip law. After a WRITE from idle of non-empty `data`, every byte acknowledged, let the environment answer a READ of
as many bytes as a slave does that has stored the bytes it saw on the wire after the address and the register byte: it acknowledges the
three bytes sent, and drives the bits of the stored bytes. Then the READ returns exactly `data`. -/
def Obligations.RoundTripLaw : Prop :=
  ∀ (s t : State) (b : BusRegs) (addr reg : Byte) (data : List Byte) (env : Environment) (draw : Nat → Nat → Level),
    s.busIdle b → addr.toNat < 128 → 0 < data.length → data.length < 256 →
    exec (.write addr reg data) s = .next t →
    t.history.getLast? = some (.completed s.turn (.write addr reg data) (.ok (.bool true))) →
    State.sdaDraw { t with env := env } b 3 = false → State.sdaDraw { t with env := env } b 6 = false →
    State.sdaDraw { t with env := env } b 10 = false →
    (∀ j, j < data.length → State.byteDrawn { t with env := env } b (11 + 10 * j) =
      ((bytesOnWire (pulseBits (s.traceTo t b draw))).drop 2).getD j 0#8) →
    ∃ u : State,
      exec (.read addr reg (BitVec.ofNat 8 data.length)) { t with env := env } = .next u ∧
      u.history.getLast? =
        some (.completed s.turn (.read addr reg (BitVec.ofNat 8 data.length)) (.ok (.bytes data)))

/-- R174, R175: a READ from idle whose three address and register bytes are acknowledged returns exactly the bytes whose bits the slave
drives on the data pulses, and shows a repeated START, an acknowledge of every byte but the last, and one STOP condition. That the bits of
the repeated START's pulse and of the STOP's are those right after the rise, 1 and 0, is the model's choice (log 27). -/
def Obligations.ReadReturnsTheBytesTheSlaveDrives : Prop :=
  ∀ (s : State) (b : BusRegs) (addr reg : Byte) (data : List Byte) (draw : Nat → Nat → Level), s.busIdle b → addr.toNat < 128 →
    0 < data.length → data.length < 256 →
    s.sdaDraw b 3 = false → s.sdaDraw b 6 = false → s.sdaDraw b 10 = false →
    (∀ j, j < data.length → s.byteDrawn b (11 + 10 * j) = data.getD j 0#8) →
    ∃ t : State,
      exec (.read addr reg (BitVec.ofNat 8 data.length)) s = .next t ∧
      t.history.getLast? =
        some (.completed s.turn (.read addr reg (BitVec.ofNat 8 data.length)) (.ok (.bytes data))) ∧
      pulseBits (s.traceTo t b draw) =
        sentPulses (addrByte addr false) true ++ sentPulses reg true ++ [true] ++ sentPulses (addrByte addr true) true ++
          (List.range data.length).flatMap (fun j => receivedPulses (data.getD j 0#8) (decide (j + 1 < data.length))) ++
          [false] ∧
      countChanges isStartCondition (s.traceTo t b draw) = 2 ∧ countChanges isStopCondition (s.traceTo t b draw) = 1

/-- R174, R207: a READ from idle with an address or register byte that is not acknowledged returns the empty list with status 0 after
exactly one STOP condition. -/
def Obligations.ReadNackGivesTheEmptyList : Prop :=
  ∀ (s : State) (b : BusRegs) (addr reg n : Byte) (draw : Nat → Nat → Level), s.busIdle b → addr.toNat < 128 → n ≠ 0#8 →
    (s.sdaDraw b 3 = true ∨ s.sdaDraw b 6 = true ∨ s.sdaDraw b 10 = true) →
    ∃ t : State,
      exec (.read addr reg n) s = .next t ∧
      t.history.getLast? = some (.completed s.turn (.read addr reg n) (.ok (.bytes []))) ∧
      countChanges isStopCondition (s.traceTo t b draw) = 1

/-! ## The bus as a whole -/

/-- R31, R233: from a ready bus every bus command but I2CDISP leaves a ready bus, changes no pin but SCL and SDA, and raises no error but
ProtocolViolation, which only SETWM, SETRM, START, WRITE and READ can raise; no fault is raised. -/
def Obligations.BusCommandsKeepTheBusReady : Prop :=
  ∀ (i : Instr) (s : State) (b : BusRegs), isBusCommand i = true → i ≠ .i2cdisp → s.busReady b →
    ¬ badArguments s.numPins i →
    ∃ (t : State) (d : BusDir) (e : Nat) (r : Reply),
      exec i s = .next t ∧ s.busFrame t b ∧ t.busReady { b with dir := d, lastEdge := e } ∧ b.lastEdge ≤ e ∧
      t.history.getLast? = some (.completed s.turn i r) ∧
      (∀ x, r = .error x → x = .protocolViolation ∧
        (i = .setwm ∨ i = .setrm ∨ i = .start ∨ (∃ addr reg data, i = .write addr reg data) ∨
          ∃ addr reg n, i = .read addr reg n))

/-- R31: a bus command but I2CDISP, which releases SCL, from a ready bus with SCL driven high leaves SCL driven high. -/
def Obligations.SclIsHighBetweenOperations : Prop :=
  ∀ (i : Instr) (s t : State) (b : BusRegs), isBusCommand i = true → i ≠ .i2cdisp → s.busReady b →
    (s.pin b.scl).latch = true → exec i s = .next t →
    (t.pin b.scl).fsel = s.params.fnOutput ∧ (t.pin b.scl).latch = true

/-- R242, R243: the least time of each operation, from the last stamp before it to the last stamp in it: `2H` for a bit and for STOP,
`18H` for a byte, for a WRITE of `n` bytes all acknowledged `2H` for each of its `9(n+2)+1` clock pulses, and for a READ that returns `n`
bytes `2H` for each of its `9(n+3)+2`. -/
def Obligations.OperationsTakeTheirLeastTime : Prop :=
  ∀ (i : Instr) (s t : State) (b : BusRegs) (e : Nat), s.busReady b → exec i s = .next t → t.bus.lastEdge = some e →
    ((∃ v, i = .wbit v) ∨ i = .rbit ∨ i = .stop → b.lastEdge + 2 * b.halfPeriod ≤ e) ∧
    ((∃ v, i = .wbyte v) ∨ (∃ a, i = .rbyte a) → b.lastEdge + 18 * b.halfPeriod ≤ e) ∧
    (∀ addr reg data, i = .write addr reg data →
      t.history.getLast? = some (.completed s.turn i (.ok (.bool true))) →
      b.lastEdge + 2 * b.halfPeriod * (9 * (data.length + 2) + 1) ≤ e) ∧
    (∀ addr reg n out, i = .read addr reg n → t.history.getLast? = some (.completed s.turn i (.ok (.bytes out))) → out ≠ [] →
      b.lastEdge + 2 * b.halfPeriod * (9 * (n.toNat + 3) + 2) ≤ e)
end

