-- ==== Sys2Proof/Laws/State.lean ====
section
/-! SUPPORT. What each update leaves in each field of the state: one lemma for each field and update, so that no proof unfolds a
record update. -/

namespace Sys2Proof.Machine

variable (s : State)

/-! ## record -/

@[simp] theorem State.record_params (e : Event) : (s.record e).params = s.params := rfl
@[simp] theorem State.record_map (e : Event) : (s.record e).map = s.map := rfl
@[simp] theorem State.record_pins (e : Event) : (s.record e).pins = s.pins := rfl
@[simp] theorem State.record_bus (e : Event) : (s.record e).bus = s.bus := rfl
@[simp] theorem State.record_agents (e : Event) : (s.record e).agents = s.agents := rfl
@[simp] theorem State.record_turn (e : Event) : (s.record e).turn = s.turn := rfl
@[simp] theorem State.record_sched (e : Event) : (s.record e).sched = s.sched := rfl
@[simp] theorem State.record_clock (e : Event) : (s.record e).clock = s.clock := rfl
@[simp] theorem State.record_faults (e : Event) : (s.record e).faults = s.faults := rfl
@[simp] theorem State.record_refused (e : Event) : (s.record e).refused = s.refused := rfl
@[simp] theorem State.record_history (e : Event) : (s.record e).history = s.history ++ [e] := rfl
@[simp] theorem State.record_env (e : Event) : (s.record e).env = s.env := rfl

/-! ## markFault -/

@[simp] theorem State.markFault_params (f : Fault) : (s.markFault f).params = s.params := rfl
@[simp] theorem State.markFault_map (f : Fault) : (s.markFault f).map = s.map := rfl
@[simp] theorem State.markFault_pins (f : Fault) : (s.markFault f).pins = s.pins := rfl
@[simp] theorem State.markFault_bus (f : Fault) : (s.markFault f).bus = s.bus := rfl
@[simp] theorem State.markFault_agents (f : Fault) : (s.markFault f).agents = s.agents := rfl
@[simp] theorem State.markFault_turn (f : Fault) : (s.markFault f).turn = s.turn := rfl
@[simp] theorem State.markFault_sched (f : Fault) : (s.markFault f).sched = s.sched := rfl
@[simp] theorem State.markFault_clock (f : Fault) : (s.markFault f).clock = s.clock := rfl
@[simp] theorem State.markFault_faults (f : Fault) : (s.markFault f).faults = s.faults ++ [f] := rfl
@[simp] theorem State.markFault_refused (f : Fault) : (s.markFault f).refused = s.refused := rfl
@[simp] theorem State.markFault_history (f : Fault) : (s.markFault f).history = s.history := rfl
@[simp] theorem State.markFault_env (f : Fault) : (s.markFault f).env = s.env := rfl

/-! ## refuse -/

@[simp] theorem State.refuse_params : (s.refuse).params = s.params := rfl
@[simp] theorem State.refuse_map : (s.refuse).map = s.map := rfl
@[simp] theorem State.refuse_pins : (s.refuse).pins = s.pins := rfl
@[simp] theorem State.refuse_bus : (s.refuse).bus = s.bus := rfl
@[simp] theorem State.refuse_agents : (s.refuse).agents = s.agents := rfl
@[simp] theorem State.refuse_turn : (s.refuse).turn = s.turn := rfl
@[simp] theorem State.refuse_sched : (s.refuse).sched = s.sched := rfl
@[simp] theorem State.refuse_clock : (s.refuse).clock = s.clock := rfl
@[simp] theorem State.refuse_faults : (s.refuse).faults = s.faults := rfl
@[simp] theorem State.refuse_refused : (s.refuse).refused = true := rfl
@[simp] theorem State.refuse_history : (s.refuse).history = s.history := rfl
@[simp] theorem State.refuse_env : (s.refuse).env = s.env := rfl

/-! ## setOwner -/

@[simp] theorem State.setOwner_params (o : Option AgentId) : (s.setOwner o).params = s.params := rfl
@[simp] theorem State.setOwner_map (o : Option AgentId) : (s.setOwner o).map = s.map := rfl
@[simp] theorem State.setOwner_pins (o : Option AgentId) : (s.setOwner o).pins = s.pins := rfl
@[simp] theorem State.setOwner_bus (o : Option AgentId) : (s.setOwner o).bus = { s.bus with owner := o } := rfl
@[simp] theorem State.setOwner_agents (o : Option AgentId) : (s.setOwner o).agents = s.agents := rfl
@[simp] theorem State.setOwner_turn (o : Option AgentId) : (s.setOwner o).turn = s.turn := rfl
@[simp] theorem State.setOwner_sched (o : Option AgentId) : (s.setOwner o).sched = s.sched := rfl
@[simp] theorem State.setOwner_clock (o : Option AgentId) : (s.setOwner o).clock = s.clock := rfl
@[simp] theorem State.setOwner_faults (o : Option AgentId) : (s.setOwner o).faults = s.faults := rfl
@[simp] theorem State.setOwner_refused (o : Option AgentId) : (s.setOwner o).refused = s.refused := rfl
@[simp] theorem State.setOwner_history (o : Option AgentId) : (s.setOwner o).history = s.history := rfl
@[simp] theorem State.setOwner_env (o : Option AgentId) : (s.setOwner o).env = s.env := rfl

/-! ## setSeq -/

@[simp] theorem State.setSeq_params (a : AgentId) (q : Seq) : (s.setSeq a q).params = s.params := rfl
@[simp] theorem State.setSeq_map (a : AgentId) (q : Seq) : (s.setSeq a q).map = s.map := rfl
@[simp] theorem State.setSeq_pins (a : AgentId) (q : Seq) : (s.setSeq a q).pins = s.pins := rfl
@[simp] theorem State.setSeq_bus (a : AgentId) (q : Seq) : (s.setSeq a q).bus = s.bus := rfl
@[simp] theorem State.setSeq_agents (a : AgentId) (q : Seq) : (s.setSeq a q).agents = setAgentIn { s.agent a with seq := q } a s.agents := rfl
@[simp] theorem State.setSeq_turn (a : AgentId) (q : Seq) : (s.setSeq a q).turn = s.turn := rfl
@[simp] theorem State.setSeq_sched (a : AgentId) (q : Seq) : (s.setSeq a q).sched = s.sched := rfl
@[simp] theorem State.setSeq_clock (a : AgentId) (q : Seq) : (s.setSeq a q).clock = s.clock := rfl
@[simp] theorem State.setSeq_faults (a : AgentId) (q : Seq) : (s.setSeq a q).faults = s.faults := rfl
@[simp] theorem State.setSeq_refused (a : AgentId) (q : Seq) : (s.setSeq a q).refused = s.refused := rfl
@[simp] theorem State.setSeq_history (a : AgentId) (q : Seq) : (s.setSeq a q).history = s.history := rfl
@[simp] theorem State.setSeq_env (a : AgentId) (q : Seq) : (s.setSeq a q).env = s.env := rfl

/-! ## setPending -/

@[simp] theorem State.setPending_params (a : AgentId) (ws : List Word) : (s.setPending a ws).params = s.params := rfl
@[simp] theorem State.setPending_map (a : AgentId) (ws : List Word) : (s.setPending a ws).map = s.map := rfl
@[simp] theorem State.setPending_pins (a : AgentId) (ws : List Word) : (s.setPending a ws).pins = s.pins := rfl
@[simp] theorem State.setPending_bus (a : AgentId) (ws : List Word) : (s.setPending a ws).bus = s.bus := rfl
@[simp] theorem State.setPending_agents (a : AgentId) (ws : List Word) : (s.setPending a ws).agents = setAgentIn { s.agent a with pending := ws } a s.agents := rfl
@[simp] theorem State.setPending_turn (a : AgentId) (ws : List Word) : (s.setPending a ws).turn = s.turn := rfl
@[simp] theorem State.setPending_sched (a : AgentId) (ws : List Word) : (s.setPending a ws).sched = s.sched := rfl
@[simp] theorem State.setPending_clock (a : AgentId) (ws : List Word) : (s.setPending a ws).clock = s.clock := rfl
@[simp] theorem State.setPending_faults (a : AgentId) (ws : List Word) : (s.setPending a ws).faults = s.faults := rfl
@[simp] theorem State.setPending_refused (a : AgentId) (ws : List Word) : (s.setPending a ws).refused = s.refused := rfl
@[simp] theorem State.setPending_history (a : AgentId) (ws : List Word) : (s.setPending a ws).history = s.history := rfl
@[simp] theorem State.setPending_env (a : AgentId) (ws : List Word) : (s.setPending a ws).env = s.env := rfl

/-! ## platformTaken -/

@[simp] theorem State.platformTaken_params : (s.platformTaken).params = s.params := rfl
@[simp] theorem State.platformTaken_map : (s.platformTaken).map = s.map := rfl
@[simp] theorem State.platformTaken_pins : (s.platformTaken).pins = s.pins := rfl
@[simp] theorem State.platformTaken_bus : (s.platformTaken).bus = s.bus := rfl
@[simp] theorem State.platformTaken_agents : (s.platformTaken).agents = s.agents := rfl
@[simp] theorem State.platformTaken_turn : (s.platformTaken).turn = s.turn := rfl
@[simp] theorem State.platformTaken_sched : (s.platformTaken).sched = s.sched := rfl
@[simp] theorem State.platformTaken_clock : (s.platformTaken).clock = s.clock := rfl
@[simp] theorem State.platformTaken_faults : (s.platformTaken).faults = s.faults := rfl
@[simp] theorem State.platformTaken_refused : (s.platformTaken).refused = s.refused := rfl
@[simp] theorem State.platformTaken_history : (s.platformTaken).history = s.history := rfl
@[simp] theorem State.platformTaken_env : (s.platformTaken).env = { s.env with platform := s.env.platform.next } := rfl

/-! ## regsTaken -/

@[simp] theorem State.regsTaken_params : s.regsTaken.params = s.params := by unfold State.regsTaken; split <;> rfl
@[simp] theorem State.regsTaken_map : s.regsTaken.map = s.map := by unfold State.regsTaken; split <;> rfl
@[simp] theorem State.regsTaken_pins : s.regsTaken.pins = s.pins := by unfold State.regsTaken; split <;> rfl
@[simp] theorem State.regsTaken_bus : s.regsTaken.bus = s.bus := by unfold State.regsTaken; split <;> rfl
@[simp] theorem State.regsTaken_agents : s.regsTaken.agents = s.agents := by unfold State.regsTaken; split <;> rfl
@[simp] theorem State.regsTaken_turn : s.regsTaken.turn = s.turn := by unfold State.regsTaken; split <;> rfl
@[simp] theorem State.regsTaken_sched : s.regsTaken.sched = s.sched := by unfold State.regsTaken; split <;> rfl
@[simp] theorem State.regsTaken_clock : s.regsTaken.clock = s.clock := by unfold State.regsTaken; split <;> rfl
@[simp] theorem State.regsTaken_faults : s.regsTaken.faults = s.faults := by unfold State.regsTaken; split <;> rfl
@[simp] theorem State.regsTaken_refused : s.regsTaken.refused = s.refused := by unfold State.regsTaken; split <;> rfl
@[simp] theorem State.regsTaken_history : s.regsTaken.history = s.history := by unfold State.regsTaken; split <;> rfl
@[simp] theorem State.regsTaken_pin (p : Nat) : s.regsTaken.pin p = s.pin p := by simp [State.pin]
@[simp] theorem State.regsTaken_numPins : s.regsTaken.numPins = s.numPins := by simp [State.numPins]

/-- Registers that each hold a value are read as they stand, and no draw is taken. -/
theorem State.regsRead_eq {s : State} {b : BusRegs} (h : s.bus.regs = some b) : s.regsRead = b ∧ s.regsTaken = s := by
  refine ⟨?_, by rw [State.regsTaken, h]⟩
  obtain ⟨scl, sda, dir, hp, q, t⟩ := b
  unfold Bus.regs at h
  split at h
  · next h1 h2 h3 h4 h5 h6 => cases h; simp [State.regsRead, Bus.readWith, h1, h2, h3, h4, h5, h6]
  · cases h

/-- A pin number read is one of the controller's. -/
theorem Bus.readWith_lt {n : Nat} (hn : 0 < n) (d : BusRegs) {b : Bus} (hc : ∀ p, b.scl = some p → p < n)
    (hd : ∀ p, b.sda = some p → p < n) : (b.readWith n d).scl < n ∧ (b.readWith n d).sda < n := by
  constructor
  · cases h : b.scl with
    | none => simpa [Bus.readWith, h] using Nat.mod_lt _ hn
    | some p => simpa [Bus.readWith, h] using hc p h
  · cases h : b.sda with
    | none => simpa [Bus.readWith, h] using Nat.mod_lt _ hn
    | some p => simpa [Bus.readWith, h] using hd p h

/-! ## assign: the fields no assignment touches -/

@[simp] theorem State.assign_params (u : Assign) : (s.assign u).params = s.params := by cases u <;> rfl
@[simp] theorem State.assign_agents (u : Assign) : (s.assign u).agents = s.agents := by cases u <;> rfl
@[simp] theorem State.assign_turn (u : Assign) : (s.assign u).turn = s.turn := by cases u <;> rfl
@[simp] theorem State.assign_sched (u : Assign) : (s.assign u).sched = s.sched := by cases u <;> rfl
@[simp] theorem State.assign_clock (u : Assign) : (s.assign u).clock = s.clock := by cases u <;> rfl
@[simp] theorem State.assign_faults (u : Assign) : (s.assign u).faults = s.faults := by cases u <;> rfl
@[simp] theorem State.assign_refused (u : Assign) : (s.assign u).refused = s.refused := by cases u <;> rfl
@[simp] theorem State.assign_history (u : Assign) : (s.assign u).history = s.history := by cases u <;> rfl
@[simp] theorem State.assign_env (u : Assign) : (s.assign u).env = s.env := by cases u <;> rfl

@[simp] theorem State.assign_pinDir_map (p : Nat) (d : PinDir) :
    (s.assign (.pinDir p d)).map = s.map := rfl
@[simp] theorem State.assign_pinDir_pins (p : Nat) (d : PinDir) :
    (s.assign (.pinDir p d)).pins = updatePin p (fun x => { x with dir := some d }) s.pins := rfl
@[simp] theorem State.assign_pinDir_bus (p : Nat) (d : PinDir) :
    (s.assign (.pinDir p d)).bus = s.bus := rfl

@[simp] theorem State.assign_pinLast_map (p : Nat) (v : Level) :
    (s.assign (.pinLast p v)).map = s.map := rfl
@[simp] theorem State.assign_pinLast_pins (p : Nat) (v : Level) :
    (s.assign (.pinLast p v)).pins = updatePin p (fun x => { x with last := some v }) s.pins := rfl
@[simp] theorem State.assign_pinLast_bus (p : Nat) (v : Level) :
    (s.assign (.pinLast p v)).bus = s.bus := rfl

@[simp] theorem State.assign_busDir_map (d : BusDir) :
    (s.assign (.busDir d)).map = s.map := rfl
@[simp] theorem State.assign_busDir_pins (d : BusDir) :
    (s.assign (.busDir d)).pins = s.pins := rfl
@[simp] theorem State.assign_busDir_bus (d : BusDir) :
    (s.assign (.busDir d)).bus = { s.bus with dir := some d } := rfl

@[simp] theorem State.assign_lastEdge_map (t : Nat) :
    (s.assign (.lastEdge t)).map = s.map := rfl
@[simp] theorem State.assign_lastEdge_pins (t : Nat) :
    (s.assign (.lastEdge t)).pins = s.pins := rfl
@[simp] theorem State.assign_lastEdge_bus (t : Nat) :
    (s.assign (.lastEdge t)).bus = { s.bus with lastEdge := some t } := rfl

@[simp] theorem State.assign_busSetup_map (c d h q : Nat) :
    (s.assign (.busSetup c d h q)).map = s.map := rfl
@[simp] theorem State.assign_busSetup_pins (c d h q : Nat) :
    (s.assign (.busSetup c d h q)).pins = s.pins := rfl
@[simp] theorem State.assign_busSetup_bus (c d h q : Nat) :
    (s.assign (.busSetup c d h q)).bus = { s.bus with scl := some c, sda := some d, halfPeriod := some h, quarterPeriod := some q, dir := some .writing } := rfl

@[simp] theorem State.assign_busConfigured_map :
    (s.assign .busConfigured).map = s.map := rfl
@[simp] theorem State.assign_busConfigured_pins :
    (s.assign .busConfigured).pins = s.pins := rfl
@[simp] theorem State.assign_busConfigured_bus :
    (s.assign .busConfigured).bus = { s.bus with cfg := .configured } := rfl

@[simp] theorem State.assign_busCleared_map :
    (s.assign .busCleared).map = s.map := rfl
@[simp] theorem State.assign_busCleared_pins :
    (s.assign .busCleared).pins = s.pins := rfl
@[simp] theorem State.assign_busCleared_bus :
    (s.assign .busCleared).bus = { cfg := .unconfigured, scl := none, sda := none, dir := none, halfPeriod := none, quarterPeriod := none, lastEdge := none, owner := s.bus.owner } := rfl

@[simp] theorem State.assign_mapOpened_map (b : Nat) :
    (s.assign (.mapOpened b)).map = { isOpen := true, base := some b } := rfl
@[simp] theorem State.assign_mapOpened_pins (b : Nat) :
    (s.assign (.mapOpened b)).pins = s.pins := rfl
@[simp] theorem State.assign_mapOpened_bus (b : Nat) :
    (s.assign (.mapOpened b)).bus = s.bus := rfl

@[simp] theorem State.assign_mapClosed_map :
    (s.assign .mapClosed).map = { isOpen := false, base := none } := rfl
@[simp] theorem State.assign_mapClosed_pins :
    (s.assign .mapClosed).pins = s.pins := rfl
@[simp] theorem State.assign_mapClosed_bus :
    (s.assign .mapClosed).bus = s.bus := rfl

/-! ## deliver -/

@[simp] theorem State.deliver_params (a : AgentId) (i : Instr) (own : Bool) (r : Reply) :
    (s.deliver a i own r).params = s.params := by cases own <;> rfl
@[simp] theorem State.deliver_map (a : AgentId) (i : Instr) (own : Bool) (r : Reply) :
    (s.deliver a i own r).map = s.map := by cases own <;> rfl
@[simp] theorem State.deliver_pins (a : AgentId) (i : Instr) (own : Bool) (r : Reply) :
    (s.deliver a i own r).pins = s.pins := by cases own <;> rfl
@[simp] theorem State.deliver_bus (a : AgentId) (i : Instr) (own : Bool) (r : Reply) :
    (s.deliver a i own r).bus = (if own then { s.bus with owner := none } else s.bus) := by cases own <;> rfl
@[simp] theorem State.deliver_agents (a : AgentId) (i : Instr) (own : Bool) (r : Reply) :
    (s.deliver a i own r).agents = s.agents := by cases own <;> rfl
@[simp] theorem State.deliver_turn (a : AgentId) (i : Instr) (own : Bool) (r : Reply) :
    (s.deliver a i own r).turn = s.turn := by cases own <;> rfl
@[simp] theorem State.deliver_sched (a : AgentId) (i : Instr) (own : Bool) (r : Reply) :
    (s.deliver a i own r).sched = s.sched := by cases own <;> rfl
@[simp] theorem State.deliver_clock (a : AgentId) (i : Instr) (own : Bool) (r : Reply) :
    (s.deliver a i own r).clock = s.clock := by cases own <;> rfl
@[simp] theorem State.deliver_faults (a : AgentId) (i : Instr) (own : Bool) (r : Reply) :
    (s.deliver a i own r).faults = s.faults := by cases own <;> rfl
@[simp] theorem State.deliver_refused (a : AgentId) (i : Instr) (own : Bool) (r : Reply) :
    (s.deliver a i own r).refused = s.refused := by cases own <;> rfl
@[simp] theorem State.deliver_history (a : AgentId) (i : Instr) (own : Bool) (r : Reply) :
    (s.deliver a i own r).history = s.history ++ [.completed a i r] := by cases own <;> rfl
@[simp] theorem State.deliver_env (a : AgentId) (i : Instr) (own : Bool) (r : Reply) :
    (s.deliver a i own r).env = s.env := by cases own <;> rfl

/-! ## The clock -/

@[simp] theorem readClock_params (a : AgentId) (n : Nat) : (readClock a n s).2.params = s.params := rfl
@[simp] theorem readClock_map (a : AgentId) (n : Nat) : (readClock a n s).2.map = s.map := rfl
@[simp] theorem readClock_pins (a : AgentId) (n : Nat) : (readClock a n s).2.pins = s.pins := rfl
@[simp] theorem readClock_bus (a : AgentId) (n : Nat) : (readClock a n s).2.bus = s.bus := rfl
@[simp] theorem readClock_agents (a : AgentId) (n : Nat) : (readClock a n s).2.agents = s.agents := rfl
@[simp] theorem readClock_turn (a : AgentId) (n : Nat) : (readClock a n s).2.turn = s.turn := rfl
@[simp] theorem readClock_sched (a : AgentId) (n : Nat) : (readClock a n s).2.sched = s.sched := rfl
@[simp] theorem readClock_clock (a : AgentId) (n : Nat) : (readClock a n s).2.clock = max s.clock n + s.nextDelay := rfl
@[simp] theorem readClock_faults (a : AgentId) (n : Nat) : (readClock a n s).2.faults = s.faults := rfl
@[simp] theorem readClock_refused (a : AgentId) (n : Nat) : (readClock a n s).2.refused = s.refused := rfl
@[simp] theorem readClock_history (a : AgentId) (n : Nat) : (readClock a n s).2.history = s.history ++ [.tick a (max s.clock n + s.nextDelay)] := rfl
@[simp] theorem readClock_env (a : AgentId) (n : Nat) : (readClock a n s).2.env = { s.env with delays := s.env.delays.next } := rfl

@[simp] theorem readClock_value (a : AgentId) (n : Nat) : (readClock a n s).1 = max s.clock n + s.nextDelay := rfl

@[simp] theorem tick_eq (a : AgentId) : tick a s = readClock a 0 s := rfl

@[simp] theorem waitUntil_eq (a : AgentId) (n : Nat) : waitUntil a n s = readClock a n s := rfl

/-! ## Pins and agents as functions of their lists -/

@[simp] theorem State.record_pin (e : Event) (p : Nat) : (s.record e).pin p = s.pin p := rfl
@[simp] theorem State.markFault_pin (f : Fault) (p : Nat) : (s.markFault f).pin p = s.pin p := rfl
@[simp] theorem State.refuse_pin (p : Nat) : (s.refuse).pin p = s.pin p := rfl
@[simp] theorem State.setOwner_pin (o : Option AgentId) (p : Nat) : (s.setOwner o).pin p = s.pin p := rfl
@[simp] theorem State.setSeq_pin (a : AgentId) (q : Seq) (p : Nat) : (s.setSeq a q).pin p = s.pin p := rfl
@[simp] theorem State.setPending_pin (a : AgentId) (ws : List Word) (p : Nat) : (s.setPending a ws).pin p = s.pin p := rfl
@[simp] theorem State.platformTaken_pin (p : Nat) : (s.platformTaken).pin p = s.pin p := rfl

end Sys2Proof.Machine
end

