-- ==== Sys2Proof/Laws/Agents.lean ====
section
/-! SUPPORT. The agents' records, what each primitive can answer (one law for each), how a program is resumed, and what one step can do
(one inversion for `step`, one for `agentStep`, one for `operationStep`). -/

namespace Sys2Proof.Machine

/-! ## Agents -/

/-- Reading an agent's record after one is replaced. -/
theorem getD_setAgentIn (x : HostAgent) (a c : AgentId) (l : List HostAgent) :
    (setAgentIn x a l).getD c HostAgent.none = if c = a then x else l.getD c HostAgent.none := by
  induction a generalizing c l with
  | zero =>
    cases l with
    | nil => cases c <;> simp [setAgentIn]
    | cons y rest => cases c <;> simp [setAgentIn]
  | succ a ih =>
    cases l with
    | nil =>
      cases c with
      | zero => simp [setAgentIn]
      | succ c => simpa [setAgentIn] using ih c []
    | cons y rest =>
      cases c with
      | zero => simp [setAgentIn]
      | succ c => simpa [setAgentIn] using ih c rest

/-- The record of an agent after its sequencer is set. -/
theorem agent_setSeq (s : State) (a c : AgentId) (q : Seq) :
    (s.setSeq a q).agent c = if c = a then { s.agent a with seq := q } else s.agent c :=
  getD_setAgentIn _ _ _ _

/-- The record of an agent after its words are set. -/
theorem agent_setPending (s : State) (a c : AgentId) (ws : List Word) :
    (s.setPending a ws).agent c = if c = a then { s.agent a with pending := ws } else s.agent c :=
  getD_setAgentIn _ _ _ _

/-! ## What the primitives answer -/

/-- Everything a `MemRead` that answers can do (R55): the map is open, the offset is a function-select or a level word, the event is
recorded, and one draw is taken. -/
theorem memRead_ok {a : AgentId} {off : Nat} {s t : State} {v : Word} (h : memRead a off s = .ok (v, t)) :
    s.map.isOpen = true ∧
    ((∃ w, windowReg s.params s.numPins off = some (.fsel w) ∧ v = fselWord s.pins w s.nextReserved ∧
        t = { s with env := { s.env with reserved := s.env.reserved.next }, history := s.history ++ [.memRead a off v] }) ∨
      (∃ w, windowReg s.params s.numPins off = some (.lev w) ∧ v = levWord s.params s.pins w s.nextLevels ∧
        t = { s with env := { s.env with levels := s.env.levels.next }, history := s.history ++ [.memRead a off v] })) := by
  unfold memRead at h
  split at h
  case isFalse => cases h
  case isTrue ho =>
    refine ⟨ho, ?_⟩
    split at h <;> cases h
    case h_1 w hw => exact .inl ⟨w, hw, rfl, rfl⟩
    case h_2 w hw => exact .inr ⟨w, hw, rfl, rfl⟩

/-- Everything a `MemWrite` that is made can do (R56). -/
theorem memWrite_ok {a : AgentId} {off : Nat} {v : Word} {s t : State} (h : memWrite a off v s = .ok t) :
    s.map.isOpen = true ∧ ∃ pins, writePins s.params off v s.pins = some pins ∧
      t = { s with pins := pins, history := s.history ++ [.memWrite a off v] } := by
  unfold memWrite at h
  split at h
  case isFalse => cases h
  case isTrue ho =>
    split at h <;> cases h
    case h_1 pins hw => exact ⟨ho, pins, hw, rfl⟩

/-! ## Resuming a program -/

/-- Resuming with more answers is resuming twice. -/
theorem resume_append (p : Prog) (l m : List Answer) :
    p.resume (l ++ m) = (p.resume l).bind fun q => q.resume m := by
  induction l generalizing p with
  | nil =>
    induction p with
    | set u k ih => simpa [Prog.resume] using ih
    | done r => simp [Prog.resume]
    | read off k ih => simp [Prog.resume]
    | write off v k ih => simp [Prog.resume]
    | tick k ih => simp [Prog.resume]
    | wait t k ih => simp [Prog.resume]
    | look k ih => simp [Prog.resume]
    | ask k ih => simp [Prog.resume]
  | cons x l ih =>
    induction p with
    | set u k ihk => simpa [Prog.resume] using ihk
    | done r => simp [Prog.resume]
    | read off k _ => cases x <;> simp [Prog.resume, ih]
    | write off v k _ => cases x <;> simp [Prog.resume, ih]
    | tick k _ => cases x <;> simp [Prog.resume, ih]
    | wait t k _ => cases x <;> simp [Prog.resume, ih]
    | look k _ => cases x <;> simp [Prog.resume, ih]
    | ask k _ => cases x <;> simp [Prog.resume, ih]

/-! ## What a step can do -/

/-- Everything a whole operation's step that answers can do. -/
theorem operationStep_next {s t : State} (h : operationStep s = .next t) :
    ((s.agent s.turn).seq = .idle ∧
      ((∃ i u, fetch s.turn s = .command i u ∧ exec i u = .next t) ∨ fetch s.turn s = .refusal t ∨
        (fetch s.turn s = .nothing ∧ t = s))) ∨
    (∃ i l, (s.agent s.turn).seq = .busy i l ∧
      ((∃ p, restOf i l s = some p ∧ t = finish s.turn i p s) ∨
        (restOf i l s = none ∧ t = s.markFault .sequencerLost))) := by
  unfold operationStep at h
  split at h
  case h_1 hi =>
    refine .inl ⟨hi, ?_⟩
    split at h
    case h_1 i u hf => exact .inl ⟨i, u, hf, h⟩
    case h_2 u hf => cases h; exact .inr (.inl hf)
    case h_3 => cases h
    case h_4 hf => cases h; exact .inr (.inr ⟨hf, rfl⟩)
  case h_2 i l hb =>
    refine .inr ⟨i, l, hb, ?_⟩
    split at h
    case h_1 p hp => cases h; exact .inl ⟨p, hp, rfl⟩
    case h_2 hp => cases h; exact .inr ⟨hp, rfl⟩

/-- Everything one step of an agent that answers can do. -/
theorem agentStep_next {a : AgentId} {s t : State} (h : agentStep a s = .next t) :
    ((s.agent a).seq = .idle ∧
      ((∃ i u, fetch a s = .command i u ∧ t = begin a i u) ∨ fetch a s = .refusal t ∨
        (fetch a s = .nothing ∧ t = s))) ∨
    (∃ i l, (s.agent a).seq = .busy i l ∧
      ((∃ p, restOf i l s = some p ∧ t = park a i (commandOf i) (microStep a p l s)) ∨
        (restOf i l s = none ∧ t = s.markFault .sequencerLost))) := by
  unfold agentStep at h
  split at h
  case h_1 hi =>
    refine .inl ⟨hi, ?_⟩
    split at h
    case h_1 i u hf => cases h; exact .inl ⟨i, u, hf, rfl⟩
    case h_2 u hf => cases h; exact .inr (.inl hf)
    case h_3 => cases h
    case h_4 hf => cases h; exact .inr (.inr ⟨hf, rfl⟩)
  case h_2 i l hb =>
    refine .inr ⟨i, l, hb, ?_⟩
    split at h
    case h_1 p hp => cases h; exact .inl ⟨p, hp, rfl⟩
    case h_2 hp => cases h; exact .inr ⟨hp, rfl⟩

/-- Everything a step that answers can do: nothing was marked, and either the agent `sched` names made its step, or the agent whose turn
it is made a whole operation. -/
theorem step_next {s t : State} (h : step s = .next t) :
    s.faults = [] ∧
    ((∃ a rest, s.sched = a :: rest ∧ agentStep a { s with sched := rest } = .next t) ∨
      (s.sched = [] ∧ operationStep s = .next t)) := by
  unfold step at h
  split at h
  case h_1 => cases h
  case h_2 hf =>
    refine ⟨hf, ?_⟩
    split at h
    case h_1 a rest hs => exact .inl ⟨a, rest, hs, h⟩
    case h_2 hs => exact .inr ⟨hs, h⟩

/-- What fetching a command does: the words of the agent decode to it, and those after them are left. -/
theorem fetch_command {a : AgentId} {s t : State} {i : Instr} (h : fetch a s = .command i t) :
    ∃ rest, decode (s.agent a).pending = .ok (i, rest) ∧ t = s.setPending a rest := by
  unfold fetch at h
  split at h <;> cases h
  case h_1 rest hd => exact ⟨rest, hd, rfl⟩

/-- What a refusal does: the mark is set and words of the agent are dropped, nothing else. -/
theorem fetch_refusal {a : AgentId} {s t : State} (h : fetch a s = .refusal t) :
    ∃ ws, t = (s.setPending a ws).refuse := by
  unfold fetch at h
  split at h <;> cases h <;> exact ⟨_, rfl⟩

/-- The meaning of every command is the result of its entry in the table of commands. -/
theorem exec_eq (i : Instr) (s : State) : exec i s = .next (commandResult i (commandOf i) s) := by
  cases i <;> rfl

end Sys2Proof.Machine
end

