-- ==== Sys2Proof/Laws/Window.lean ====
section
/-! SUPPORT. The pins as a list (how the maps over it read back), the words of the window bit by bit, and the resolution of the
offsets the pin procedures compute (spec/30_encoding.md R71) to the registers of the address map (spec/20_memory.md R54). -/

namespace Sys2Proof.Machine

/-! ## Pins -/

theorem getElem?_mapPinsFrom (f : Nat → Pin → Pin) (pins : List Pin) (q p : Nat) :
    (mapPinsFrom f q pins)[p]? = pins[p]?.map (f (q + p)) := by
  induction pins generalizing q p with
  | nil => simp [mapPinsFrom]
  | cons x rest ih =>
    cases p with
    | zero => simp [mapPinsFrom]
    | succ p => simp [mapPinsFrom, ih, Nat.add_assoc, Nat.add_comm 1 p]

@[simp] theorem getElem?_mapPins (f : Nat → Pin → Pin) (pins : List Pin) (p : Nat) :
    (mapPins f pins)[p]? = pins[p]?.map (f p) := by
  simp [mapPins, getElem?_mapPinsFrom]

@[simp] theorem length_mapPins (f : Nat → Pin → Pin) (pins : List Pin) : (mapPins f pins).length = pins.length := by
  have h : ∀ q, (mapPinsFrom f q pins).length = pins.length := by
    induction pins with
    | nil => intro q; rfl
    | cons x rest ih => intro q; simp [mapPinsFrom, ih]
  exact h 0

@[simp] theorem length_updatePin (p : Nat) (f : Pin → Pin) (pins : List Pin) : (updatePin p f pins).length = pins.length :=
  length_mapPins _ _

@[simp] theorem length_writeFsel (w : Nat) (v : Word) (pins : List Pin) : (writeFsel w v pins).length = pins.length :=
  length_mapPins _ _

@[simp] theorem length_writeLatch (lv : Level) (w : Nat) (v : Word) (pins : List Pin) :
    (writeLatch lv w v pins).length = pins.length :=
  length_mapPins _ _

/-- A mapped pin reads as the function of the pin's number and record. -/
theorem getD_mapPins (f : Nat → Pin → Pin) (pins : List Pin) (p : Nat) (h : p < pins.length) :
    (mapPins f pins).getD p Pin.absent = f p (pins.getD p Pin.absent) := by
  simp [List.getD_eq_getElem?_getD, List.getElem?_eq_getElem h]

/-- An update reads back at its own pin. -/
theorem getD_updatePin_self (p : Nat) (f : Pin → Pin) (pins : List Pin) (h : p < pins.length) :
    (updatePin p f pins).getD p Pin.absent = f (pins.getD p Pin.absent) := by
  rw [updatePin, getD_mapPins _ _ _ h, if_pos rfl]

/-- An update leaves every other pin alone. -/
theorem getD_updatePin_ne (p q : Nat) (f : Pin → Pin) (pins : List Pin) (h : q ≠ p) :
    (updatePin p f pins).getD q Pin.absent = pins.getD q Pin.absent := by
  simp [updatePin, List.getD_eq_getElem?_getD, h]

/-- Two maps agree where their functions agree on every pin there is. -/
theorem mapPins_congr (f g : Nat → Pin → Pin) (pins : List Pin) (h : ∀ p x, pins[p]? = some x → f p x = g p x) :
    mapPins f pins = mapPins g pins := by
  apply List.ext_getElem?
  intro p
  cases hx : pins[p]? with
  | none => simp [hx]
  | some x => simp [hx, h p x hx]

@[simp] theorem mapPins_mapPins (f g : Nat → Pin → Pin) (pins : List Pin) :
    mapPins f (mapPins g pins) = mapPins (fun p x => f p (g p x)) pins := by
  apply List.ext_getElem?
  intro p
  simp [Function.comp_def]

@[simp] theorem updatePin_updatePin (p : Nat) (f g : Pin → Pin) (pins : List Pin) :
    updatePin p f (updatePin p g pins) = updatePin p (fun x => f (g x)) pins := by
  simp only [updatePin, mapPins_mapPins]
  apply mapPins_congr
  intro q x _
  by_cases hq : q = p <;> simp [hq]

/-- Updates of two pins commute. -/
theorem updatePin_comm (p q : Nat) (f g : Pin → Pin) (pins : List Pin) (h : p ≠ q) :
    updatePin p f (updatePin q g pins) = updatePin q g (updatePin p f pins) := by
  simp only [updatePin, mapPins_mapPins]
  apply mapPins_congr
  intro r x _
  by_cases hp : r = p
  · subst hp; simp [h]
  · simp [hp]

/-- An update that changes nothing is none. -/
theorem updatePin_eq_self (p : Nat) (f : Pin → Pin) (pins : List Pin) (h : ∀ x, pins[p]? = some x → f x = x) :
    updatePin p f pins = pins := by
  apply List.ext_getElem?
  intro q
  by_cases hq : q = p
  · subst hq
    cases hx : pins[q]? with
    | none => simp [updatePin, hx]
    | some x => simp [updatePin, hx, h x hx]
  · simp [updatePin, hq]

/-! ## Words bit by bit -/

/-- The bits of a word built bit by bit. -/
theorem getLsbD_wordOfBits (f : Nat → Bool) (n i : Nat) (hn : n ≤ 32) :
    (wordOfBits f n).getLsbD i = (decide (i < n) && f i) := by
  induction n with
  | zero => simp [wordOfBits]
  | succ n ih =>
    simp only [wordOfBits, BitVec.getLsbD_or, ih (by omega), BitVec.getLsbD_shiftLeft, BitVec.getLsbD_setWidth,
      BitVec.getLsbD_ofBool]
    rcases Nat.lt_trichotomy i n with h | h | h
    · have h1 : i < n + 1 := by omega
      simp [h, h1]
    · subst h
      have h1 : i < 32 := by omega
      simp [h1]
    · have h1 : ¬ i < n := by omega
      have h2 : ¬ i < n + 1 := by omega
      have h3 : ¬ i - n = 0 := by omega
      simp [h1, h2, h3]

/-- A bit of the word a function-select read returns. -/
theorem getLsbD_fselWord (pins : List Pin) (w : Nat) (d : Word) (k j : Nat) (x : Pin) (hk : k < 10) (hj : j < 3)
    (hx : pins[10 * w + k]? = some x) : (fselWord pins w d).getLsbD (3 * k + j) = x.fsel.getLsbD j := by
  have h1 : (3 * k + j) / 3 = k := by omega
  have h2 : (3 * k + j) % 3 = j := by omega
  have h3 : 3 * k + j < 32 := by omega
  have h4 : 3 * k + j < 30 := by omega
  rw [fselWord, getLsbD_wordOfBits _ _ _ (Nat.le_refl _)]
  simp only [fselBits, h1, h2, h3, h4, hx, decide_true, Bool.true_and, if_true]

/-- The field of a pin in the word a function-select read returns is the pin's `fsel` (R25). -/
theorem extract_fselWord (pins : List Pin) (p : Nat) (d : Word) (x : Pin) (hx : pins[p]? = some x) :
    (fselWord pins (p / fselPerWord) d).extractLsb' (fselShift p) 3 = x.fsel := by
  apply BitVec.eq_of_getLsbD_eq
  intro j hj
  have h1 : p % 10 < 10 := Nat.mod_lt _ (by decide)
  have h2 : 10 * (p / 10) + p % 10 = p := Nat.div_add_mod p 10
  have h := getLsbD_fselWord pins (p / 10) d (p % 10) j x h1 hj (by rw [h2]; exact hx)
  simp only [BitVec.getLsbD_extractLsb', hj, decide_true, Bool.true_and, fselShift, fselBits, fselPerWord]
  exact h

/-- The bit of a pin in the word a level read returns is the pin's line level (R26, R27). -/
theorem getLsbD_levWord (P : Params) (pins : List Pin) (p : Nat) (d : Word) (x : Pin) (hx : pins[p]? = some x) :
    (levWord P pins (p / pinsPerBank) d).getLsbD (p % pinsPerBank) =
      lineLevel P x (d.getLsbD (p % pinsPerBank)) := by
  have h1 : p % 32 < 32 := Nat.mod_lt _ (by decide)
  have h2 : 32 * (p / 32) + p % 32 = p := Nat.div_add_mod p 32
  simp only [levWord, pinsPerBank]
  rw [getLsbD_wordOfBits _ _ _ (Nat.le_refl _)]
  simp only [h1, h2, hx, decide_true, Bool.true_and]

/-- The field of `q` in the word a direction change of `p` writes: the new code at `p`, the field read elsewhere (R120, R121). -/
theorem extract_withFsel (w : Word) (p q : Nat) (fn : BitVec 3) (h : q / fselPerWord = p / fselPerWord) :
    (withFsel w p fn).extractLsb' (fselShift q) 3 = if q = p then fn else w.extractLsb' (fselShift q) 3 := by
  simp only [fselPerWord] at h
  have hp : p % 10 < 10 := Nat.mod_lt _ (by decide)
  have hq : q % 10 < 10 := Nat.mod_lt _ (by decide)
  have ep := Nat.div_add_mod p 10
  have eq := Nat.div_add_mod q 10
  apply BitVec.eq_of_getLsbD_eq
  intro j hj
  have hb : 3 * (q % 10) + j < 32 := by omega
  simp only [withFsel, fselMask, fselShift, fselBits, fselPerWord, BitVec.getLsbD_extractLsb', hj, decide_true, Bool.true_and,
    BitVec.getLsbD_or, BitVec.getLsbD_and, BitVec.getLsbD_not, BitVec.getLsbD_shiftLeft, hb, BitVec.getLsbD_setWidth]
  have seven : ∀ n, (7#32).getLsbD n = decide (n < 3) := by
    intro n
    by_cases hn : n < 3
    · have : n = 0 ∨ n = 1 ∨ n = 2 := by omega
      rcases this with rfl | rfl | rfl <;> decide
    · have e : (7#32) = (7#3).setWidth 32 := by decide
      rw [e, BitVec.getLsbD_setWidth]
      simp [hn, BitVec.getLsbD_of_ge _ _ (Nat.not_lt.mp hn)]
  by_cases hpq : q = p
  · subst hpq
    have e1 : 3 * (q % 10) + j - 3 * (q % 10) = j := by omega
    have e2 : ¬ (3 * (q % 10) + j < 3 * (q % 10)) := by omega
    have e3 : j < 32 := by omega
    simp [seven, e1, e2, e3, hj]
  · have hne : q % 10 ≠ p % 10 := by omega
    rw [if_neg hpq]
    simp only [BitVec.getLsbD_extractLsb', hj, decide_true, Bool.true_and]
    by_cases hlt : 3 * (q % 10) + j < 3 * (p % 10)
    · simp [hlt]
    · have e1 : ¬ (3 * (q % 10) + j - 3 * (p % 10) < 3) := by omega
      simp [hlt, seven, e1, BitVec.getLsbD_of_ge fn _ (Nat.not_lt.mp e1)]

/-- A direction change rewrites the field of its own pin and leaves every other pin as it was, when no other agent writes the word
between its read and its write (R120, R121). -/
theorem writeFsel_withFsel (pins : List Pin) (p : Nat) (fn : BitVec 3) (d : Word) :
    writeFsel (p / fselPerWord) (withFsel (fselWord pins (p / fselPerWord) d) p fn) pins =
      updatePin p (fun x => { x with fsel := fn }) pins := by
  apply mapPins_congr
  intro q x hx
  by_cases hw : q / fselPerWord = p / fselPerWord
  · rw [if_pos hw, extract_withFsel _ _ _ _ hw]
    by_cases hq : q = p
    · simp [hq]
    · simp only [if_neg hq, ← hw, extract_fselWord pins q d x hx]
  · have hq : q ≠ p := fun e => hw (by rw [e])
    simp [hw, hq]

/-- A write of one pin's mask to SET or CLR changes that pin's latch alone (R26, R59, R122). -/
theorem writeLatch_bitMask (lv : Level) (pins : List Pin) (p : Nat) :
    writeLatch lv (p / pinsPerBank) (bitMask p) pins = updatePin p (fun x => { x with latch := lv }) pins := by
  apply mapPins_congr
  intro q x _
  have hq : q % 32 < 32 := Nat.mod_lt _ (by decide)
  have hp : p % 32 < 32 := Nat.mod_lt _ (by decide)
  have eq := Nat.div_add_mod q 32
  have ep := Nat.div_add_mod p 32
  have bit : (bitMask p).getLsbD (q % 32) = decide (q % 32 = p % 32) := by
    simp only [bitMask, pinsPerBank, BitVec.getLsbD_shiftLeft, hq, decide_true, Bool.true_and, BitVec.getLsbD_one]
    by_cases h : q % 32 < p % 32
    · have : q % 32 ≠ p % 32 := by omega
      simp [h, this]
    · by_cases h2 : q % 32 = p % 32
      · simp [h2]
      · have : q % 32 - p % 32 ≠ 0 := by omega
        simp [h2, this]
  by_cases h : q = p
  · subst h; simp only [pinsPerBank] at *; simp [bit]
  · have : ¬ (q / pinsPerBank = p / pinsPerBank ∧ (bitMask p).getLsbD (q % pinsPerBank) = true) := by
      rintro ⟨h1, h2⟩
      simp only [pinsPerBank] at h1 h2
      rw [bit] at h2
      have := of_decide_eq_true h2
      omega
    simp [h, this]

/-! ## Offsets -/

theorem wordIn_some (base words w : Nat) (h : w < words) : wordIn base words (base + 4 * w) = some w := by
  have h1 : base ≤ base + 4 * w := by omega
  have h2 : (base + 4 * w - base) % 4 = 0 := by omega
  have h3 : (base + 4 * w - base) / 4 = w := by omega
  rw [wordIn, if_pos ⟨h1, h2, by rw [h3]; exact h⟩, h3]

theorem wordIn_none_below (base words off : Nat) (h : off < base) : wordIn base words off = none := by
  have : ¬ base ≤ off := by omega
  simp [wordIn, this]

theorem wordIn_none_above (base words off : Nat) (h : base + 4 * words ≤ off) : wordIn base words off = none := by
  have : ¬ ((off - base) / 4 < words) := by omega
  simp [wordIn, this]

/-- A word of one array lies in no array apart from it. -/
theorem wordIn_apart (base₁ words₁ base₂ words₂ w : Nat) (h : w < words₁)
    (apart : base₁ + 4 * words₁ ≤ base₂ ∨ base₂ + 4 * words₂ ≤ base₁) : wordIn base₂ words₂ (base₁ + 4 * w) = none := by
  rcases apart with h1 | h1
  · exact wordIn_none_below _ _ _ (by omega)
  · exact wordIn_none_above _ _ _ (by omega)

theorem bank_lt (n p : Nat) (h : p < n) : p / pinsPerBank < ceilDiv n pinsPerBank := by
  simp only [pinsPerBank, ceilDiv]; omega

theorem fselWordNo_lt (n p : Nat) (h : p < n) : p / fselPerWord < ceilDiv n fselPerWord := by
  simp only [fselPerWord, ceilDiv]; omega

/-- `fselOff(p)` is the function-select word of pin `p` (R25). -/
theorem windowReg_fselOff (P : Params) (n p : Nat) (h : p < n) :
    windowReg P n (fselOff p) = some (.fsel (p / fselPerWord)) := by
  have e : fselOff p = 0 + 4 * (p / fselPerWord) := by simp [fselOff]
  rw [windowReg, e, wordIn_some 0 _ _ (fselWordNo_lt n p h)]

/-- `setOff(p)` is the SET word of pin `p` (R26). -/
theorem windowReg_setOff (P : Params) (n p : Nat) (ok : paramsOk P n) (h : p < n) :
    windowReg P n (setOff P p) = some (.set (p / pinsPerBank)) := by
  have hb := bank_lt n p h
  obtain ⟨-, -, -, ⟨a1, -, -⟩, ⟨-, a4, -⟩, -⟩ := ok
  rw [windowReg, setOff, wordIn_apart _ _ _ _ _ hb a1.symm, wordIn_apart _ _ _ _ _ hb a4, wordIn_some _ _ _ hb]

/-- `clrOff(p)` is the CLR word of pin `p` (R26). -/
theorem windowReg_clrOff (P : Params) (n p : Nat) (ok : paramsOk P n) (h : p < n) :
    windowReg P n (clrOff P p) = some (.clr (p / pinsPerBank)) := by
  have hb := bank_lt n p h
  obtain ⟨-, -, -, ⟨-, a2, -⟩, ⟨b1, -, b3⟩, -⟩ := ok
  rw [windowReg, clrOff, wordIn_apart _ _ _ _ _ hb a2.symm, wordIn_apart _ _ _ _ _ hb b3,
    wordIn_apart _ _ _ _ _ hb b1.symm, wordIn_some _ _ _ hb]

/-- `levOff(p)` is the LEV word of pin `p` (R26). -/
theorem windowReg_levOff (P : Params) (n p : Nat) (ok : paramsOk P n) (h : p < n) :
    windowReg P n (levOff P p) = some (.lev (p / pinsPerBank)) := by
  have hb := bank_lt n p h
  obtain ⟨-, -, -, ⟨-, -, a3⟩, -, -⟩ := ok
  rw [windowReg, levOff, wordIn_apart _ _ _ _ _ hb a3.symm, wordIn_some _ _ _ hb]

/-- What a SetValue write does to the pins (R122). -/
theorem writePins_setValue (P : Params) (pins : List Pin) (p : Nat) (v : Level) (ok : paramsOk P pins.length)
    (h : p < pins.length) :
    writePins P (if v then setOff P p else clrOff P p) (bitMask p) pins =
      some (updatePin p (fun x => { x with latch := v }) pins) := by
  cases v
  · simp [writePins, windowReg_clrOff P _ p ok h, writeLatch_bitMask]
  · simp [writePins, windowReg_setOff P _ p ok h, writeLatch_bitMask]

/-- What a direction change's write does to the pins (R120, R121). -/
theorem writePins_withFsel (P : Params) (pins : List Pin) (p : Nat) (fn : BitVec 3) (d : Word) (h : p < pins.length) :
    writePins P (fselOff p) (withFsel (fselWord pins (p / fselPerWord) d) p fn) pins =
      some (updatePin p (fun x => { x with fsel := fn }) pins) := by
  simp [writePins, windowReg_fselOff P _ p h, writeFsel_withFsel]

/-- A write to the window keeps the number of pins. -/
theorem length_writePins (P : Params) (off : Nat) (v : Word) (pins pins' : List Pin)
    (h : writePins P off v pins = some pins') : pins'.length = pins.length := by
  unfold writePins at h
  split at h <;> simp at h <;> subst h <;> simp

end Sys2Proof.Machine
end

