-- ==== Sys2Proof/Laws/Running.lean ====
section
/-! SUPPORT. What running a program, a command or a step keeps, once for all commands: the parameters, the number of pins, the turn, the
direction of the clock, the growth of the history, the marks; and, while a program runs, the agents. -/

namespace Sys2Proof.Machine

/-! ## What running can do -/

theorem tickValues_append (l m : List Event) : tickValues (l ++ m) = tickValues l ++ tickValues m := by
  induction l with
  | nil => rfl
  | cons e l ih => cases e <;> simp [tickValues, ih]

/-- What every primitive, assignment, mark and delivery keeps of the state, and how the clock and the history go on. -/
structure State.Advances (s t : State) : Prop where
  params : t.params = s.params
  numPins : t.numPins = s.numPins
  turn : t.turn = s.turn
  clock : s.clock ≤ t.clock
  history : ∃ es, t.history = s.history ++ es ∧ (∀ v ∈ tickValues es, s.clock ≤ v ∧ v ≤ t.clock) ∧
    (tickValues es).Pairwise (· ≤ ·)

theorem State.Advances.refl (s : State) : s.Advances s :=
  ⟨rfl, rfl, rfl, Nat.le_refl _, [], by simp, by simp [tickValues], by simp [tickValues]⟩

theorem State.Advances.trans {s t u : State} (h : s.Advances t) (k : t.Advances u) : s.Advances u := by
  obtain ⟨h1, h2, h3, h4, es, h5, h6, h7⟩ := h
  obtain ⟨k1, k2, k3, k4, fs, k5, k6, k7⟩ := k
  refine ⟨k1.trans h1, k2.trans h2, k3.trans h3, Nat.le_trans h4 k4, es ++ fs, by simp [k5, h5], ?_, ?_⟩
  · intro v hv
    rw [tickValues_append, List.mem_append] at hv
    rcases hv with hv | hv
    · exact ⟨(h6 v hv).1, Nat.le_trans (h6 v hv).2 k4⟩
    · exact ⟨Nat.le_trans h4 (k6 v hv).1, (k6 v hv).2⟩
  · rw [tickValues_append, List.pairwise_append]
    exact ⟨h7, k7, fun a ha b hb => Nat.le_trans (h6 a ha).2 (k6 b hb).1⟩

/-- A change of fields that the relation does not name. -/
theorem State.Advances.of_eq {s t : State} (h1 : t.params = s.params) (h2 : t.numPins = s.numPins) (h3 : t.turn = s.turn)
    (h4 : t.clock = s.clock) (h5 : t.history = s.history) : s.Advances t :=
  ⟨h1, h2, h3, by rw [h4], [], by simp [h5], by simp [tickValues], by simp [tickValues]⟩

/-- What the running of a program keeps beside: the agents, the order, the refusal mark, the faults. -/
structure State.Runs (s t : State) : Prop where
  advances : s.Advances t
  agents : t.agents = s.agents
  sched : t.sched = s.sched
  refused : t.refused = s.refused
  faults : t.faults = s.faults

theorem State.Runs.refl (s : State) : s.Runs s := ⟨.refl s, rfl, rfl, rfl, rfl⟩

theorem State.Runs.trans {s t u : State} (h : s.Runs t) (k : t.Runs u) : s.Runs u :=
  ⟨h.1.trans k.1, k.2.trans h.2, k.3.trans h.3, k.4.trans h.4, k.5.trans h.5⟩

theorem memRead_runs {a : AgentId} {off : Nat} {s t : State} {v : Word} (h : memRead a off s = .ok (v, t)) : s.Runs t := by
  rcases (memRead_ok h).2 with ⟨w, -, -, rfl⟩ | ⟨w, -, -, rfl⟩ <;>
    exact ⟨⟨rfl, rfl, rfl, Nat.le_refl _, _, rfl, by simp [tickValues], by simp [tickValues]⟩, rfl, rfl, rfl, rfl⟩

theorem memWrite_runs {a : AgentId} {off : Nat} {v : Word} {s t : State} (h : memWrite a off v s = .ok t) : s.Runs t := by
  obtain ⟨-, pins, hp, rfl⟩ := memWrite_ok h
  exact ⟨⟨rfl, length_writePins _ _ _ _ _ hp, rfl, Nat.le_refl _, _, rfl, by simp [tickValues], by simp [tickValues]⟩,
    rfl, rfl, rfl, rfl⟩

theorem readClock_runs (a : AgentId) (least : Nat) (s : State) : s.Runs (readClock a least s).2 := by
  refine ⟨⟨rfl, rfl, rfl, ?_, _, rfl, ?_, by simp [tickValues]⟩, rfl, rfl, rfl, rfl⟩
  · simp only [readClock]; omega
  · simp only [tickValues, List.mem_singleton, readClock]; rintro v rfl; omega

theorem assign_runs (s : State) (u : Assign) : s.Runs (s.assign u) := by
  cases u <;> exact ⟨.of_eq rfl (by simp [State.assign, State.numPins]) rfl rfl rfl, rfl, rfl, rfl, rfl⟩

theorem platformTaken_runs (s : State) : s.Runs s.platformTaken := ⟨.of_eq rfl rfl rfl rfl rfl, rfl, rfl, rfl, rfl⟩

theorem regsTaken_runs (s : State) : s.Runs s.regsTaken :=
  ⟨.of_eq s.regsTaken_params s.regsTaken_numPins s.regsTaken_turn s.regsTaken_clock s.regsTaken_history, s.regsTaken_agents,
    s.regsTaken_sched, s.regsTaken_refused, s.regsTaken_faults⟩

/-- The state an end leaves. -/
def Ended.state : Ended → State
  | .finished _ t => t
  | .faulted _ t => t

/-- The state a settling leaves. -/
def Settled.state : Settled → State
  | .waiting _ t => t
  | .finished _ t => t
  | .faulted _ t => t

/-- Everything a whole program's run keeps. -/
theorem run_runs (a : AgentId) (p : Prog) (s : State) : s.Runs (p.run a s).state := by
  induction p generalizing s with
  | done r => exact .refl s
  | read off k ih =>
    simp only [Prog.run]
    split
    case h_1 w t h => exact (memRead_runs h).trans (ih w t)
    case h_2 => exact .refl s
  | write off v k ih =>
    simp only [Prog.run]
    split
    case h_1 t h => exact (memWrite_runs h).trans (ih t)
    case h_2 => exact .refl s
  | tick k ih => exact (readClock_runs a 0 s).trans (ih _ _)
  | wait t k ih => exact (readClock_runs a t s).trans (ih _ _)
  | look k ih => exact (regsTaken_runs s).trans (ih _ _)
  | set u k ih => exact (assign_runs s u).trans (ih _)
  | ask k ih => exact (platformTaken_runs s).trans (ih _ _)

/-- Everything the parts up to the next micro-step keep. -/
theorem settle_runs (p : Prog) (l : List Answer) (s : State) : s.Runs (p.settle l s).state := by
  induction p generalizing s l with
  | done r => exact .refl s
  | read off k _ => exact .refl s
  | write off v k _ => exact .refl s
  | tick k _ => exact .refl s
  | wait t k _ => exact .refl s
  | look k ih => exact (regsTaken_runs s).trans (ih _ _ _)
  | set u k ih => exact (assign_runs s u).trans (ih _ _)
  | ask k ih => exact (platformTaken_runs s).trans (ih _ _ _)

/-- Everything a micro-step keeps. -/
theorem microStep_runs (a : AgentId) (p : Prog) (l : List Answer) (s : State) : s.Runs (microStep a p l s).state := by
  unfold microStep
  split
  case h_1 off k =>
    split
    case h_1 w t h => exact (memRead_runs h).trans (settle_runs _ _ _)
    case h_2 => exact .refl s
  case h_2 off v k =>
    split
    case h_1 t h => exact (memWrite_runs h).trans (settle_runs _ _ _)
    case h_2 => exact .refl s
  case h_3 k => exact (readClock_runs a 0 s).trans (settle_runs _ _ _)
  case h_4 t k => exact (readClock_runs a t s).trans (settle_runs _ _ _)
  all_goals exact .refl s

theorem deliver_runs (a : AgentId) (i : Instr) (o : Bool) (r : Reply) (s : State) : s.Runs (s.deliver a i o r) := by
  cases o <;> exact ⟨⟨rfl, rfl, rfl, Nat.le_refl _, _, rfl, by simp [tickValues], by simp [tickValues]⟩, rfl, rfl, rfl, rfl⟩

theorem enter_runs (c : Command) (a : AgentId) (s : State) : s.Runs (c.enter a s) := by
  unfold Command.enter
  split
  · exact ⟨.of_eq rfl rfl rfl rfl rfl, rfl, rfl, rfl, rfl⟩
  · exact .refl s

/-- Everything a command's meaning keeps; only a fault lengthens the list of faults. -/
theorem commandResult_keeps (i : Instr) (c : Command) (s : State) :
    s.Advances (commandResult i c s) ∧ (commandResult i c s).agents = s.agents ∧ (commandResult i c s).sched = s.sched ∧
      (commandResult i c s).refused = s.refused ∧ ∃ fs, (commandResult i c s).faults = s.faults ++ fs := by
  unfold commandResult
  split
  · exact ⟨.of_eq rfl rfl rfl rfl rfl, rfl, rfl, rfl, _, rfl⟩
  · exact ⟨(deliver_runs _ _ _ _ s).1, rfl, rfl, rfl, [], by simp [State.deliver]⟩
  · have e := enter_runs c s.turn s
    have h := e.trans (run_runs s.turn (c.body s.params) (c.enter s.turn s))
    split
    case h_1 r t hr =>
      rw [hr] at h
      have k := h.trans (deliver_runs s.turn i c.ownsBus r t)
      exact ⟨k.1, k.2, k.3, k.4, [], k.5.trans (List.append_nil _).symm⟩
    case h_2 f t hr =>
      rw [hr] at h
      exact ⟨h.1.trans (.of_eq rfl rfl rfl rfl rfl), h.2, h.3, h.4, [f], congrArg (· ++ [f]) h.5⟩

/-! ## What a step can do to the marks, the history and the parameters -/

/-- What a step keeps: `Advances`, and the marks only grow. -/
structure State.Steps (s t : State) : Prop where
  advances : s.Advances t
  refused : s.refused = true → t.refused = true
  faults : ∃ fs, t.faults = s.faults ++ fs

theorem State.Steps.trans {s t u : State} (h : s.Steps t) (k : t.Steps u) : s.Steps u := by
  obtain ⟨fs, hf⟩ := h.3
  obtain ⟨gs, hg⟩ := k.3
  exact ⟨h.1.trans k.1, fun e => k.2 (h.2 e), fs ++ gs, by rw [hg, hf, List.append_assoc]⟩

theorem State.Runs.steps {s t : State} (h : s.Runs t) : s.Steps t :=
  ⟨h.1, fun e => h.4.trans e, [], h.5.trans (List.append_nil _).symm⟩

theorem State.Steps.refl (s : State) : s.Steps s := (State.Runs.refl s).steps

theorem setSeq_steps (a : AgentId) (q : Seq) (s : State) : s.Steps (s.setSeq a q) :=
  ⟨.of_eq rfl rfl rfl rfl rfl, id, [], (List.append_nil _).symm⟩

theorem setPending_steps (a : AgentId) (ws : List Word) (s : State) : s.Steps (s.setPending a ws) :=
  ⟨.of_eq rfl rfl rfl rfl rfl, id, [], (List.append_nil _).symm⟩

theorem markFault_steps (f : Fault) (s : State) : s.Steps (s.markFault f) := ⟨.of_eq rfl rfl rfl rfl rfl, id, [f], rfl⟩

theorem refuse_steps (s : State) : s.Steps s.refuse :=
  ⟨.of_eq rfl rfl rfl rfl rfl, fun _ => rfl, [], (List.append_nil _).symm⟩

theorem park_steps (a : AgentId) (i : Instr) (c : Command) (x : Settled) : x.state.Steps (park a i c x) := by
  cases x with
  | waiting l s => exact setSeq_steps _ _ _
  | finished r s => exact (deliver_runs a i c.ownsBus r s).steps.trans (setSeq_steps _ _ _)
  | faulted f s => exact markFault_steps _ _

theorem begin_steps (a : AgentId) (i : Instr) (s : State) : s.Steps (begin a i s) := by
  unfold begin
  split
  · exact markFault_steps _ _
  · exact (deliver_runs _ _ _ _ _).steps
  · exact (((setSeq_steps a _ s).trans (enter_runs _ a _).steps).trans (settle_runs _ _ _).steps).trans (park_steps _ _ _ _)

theorem commandResult_steps (i : Instr) (c : Command) (s : State) : s.Steps (commandResult i c s) :=
  have h := commandResult_keeps i c s
  ⟨h.1, fun e => h.2.2.2.1.trans e, h.2.2.2.2⟩

theorem finish_steps (a : AgentId) (i : Instr) (p : Prog) (s : State) : s.Steps (finish a i p s) := by
  have h := (run_runs a p s).steps
  unfold finish
  split
  case h_1 r t hr => rw [hr] at h; exact (h.trans (deliver_runs _ _ _ _ _).steps).trans (setSeq_steps _ _ _)
  case h_2 f t hr => rw [hr] at h; exact h.trans (markFault_steps _ _)

theorem fetch_refusal_steps {a : AgentId} {s t : State} (h : fetch a s = .refusal t) : s.Steps t := by
  obtain ⟨ws, rfl⟩ := fetch_refusal h
  exact (setPending_steps a ws s).trans (refuse_steps _)

/-- Everything one step of an agent keeps. -/
theorem agentStep_steps {a : AgentId} {s t : State} (h : agentStep a s = .next t) : s.Steps t := by
  rcases agentStep_next h with ⟨-, ⟨i, u, hf, rfl⟩ | hf | ⟨-, rfl⟩⟩ | ⟨i, l, -, ⟨p, -, rfl⟩ | ⟨-, rfl⟩⟩
  · obtain ⟨ws, -, rfl⟩ := fetch_command hf
    exact (setPending_steps a ws s).trans (begin_steps _ _ _)
  · exact fetch_refusal_steps hf
  · exact .refl _
  · exact (microStep_runs a p l s).steps.trans (park_steps _ _ _ _)
  · exact markFault_steps _ _

/-- Everything a whole operation's step keeps. -/
theorem operationStep_steps {s t : State} (h : operationStep s = .next t) : s.Steps t := by
  rcases operationStep_next h with ⟨-, ⟨i, u, hf, he⟩ | hf | ⟨-, rfl⟩⟩ | ⟨i, l, -, ⟨p, -, rfl⟩ | ⟨-, rfl⟩⟩
  · obtain ⟨ws, -, rfl⟩ := fetch_command hf
    rw [exec_eq] at he
    cases he
    exact (setPending_steps _ ws s).trans (commandResult_steps _ _ _)
  · exact fetch_refusal_steps hf
  · exact .refl _
  · exact finish_steps _ _ _ _
  · exact markFault_steps _ _

/-- Everything a step of the machine keeps. -/
theorem step_steps {s t : State} (h : step s = .next t) : s.Steps t := by
  rcases (step_next h).2 with ⟨a, rest, -, ha⟩ | ⟨-, ho⟩
  · have h0 : s.Steps { s with sched := rest } := ⟨.of_eq rfl rfl rfl rfl rfl, id, [], (List.append_nil _).symm⟩
    exact h0.trans (agentStep_steps ha)
  · exact operationStep_steps ho

end Sys2Proof.Machine
end

