-- ==== Sys2Proof/Laws/Assigns.lean ====
section
/-! SUPPORT. Which assignments each procedure and each command makes: `AssignsOnly q p` says that every assignment in the program `p`
satisfies `q`. Each procedure has one law, and each command follows from its procedures'. -/

namespace Sys2Proof.Machine

/-- Every assignment of the program satisfies `q`. -/
def Prog.AssignsOnly (q : Assign → Prop) : Prog → Prop
  | .done _ => True
  | .read _ k => ∀ w, (k w).AssignsOnly q
  | .write _ _ k => k.AssignsOnly q
  | .tick k => ∀ t, (k t).AssignsOnly q
  | .wait _ k => ∀ t, (k t).AssignsOnly q
  | .look k => ∀ b, (k b).AssignsOnly q
  | .set u k => q u ∧ k.AssignsOnly q
  | .ask k => ∀ p, (k p).AssignsOnly q

/-- The rest of a program assigns only what the program does. -/
theorem resume_assignsOnly {q : Assign → Prop} {p r : Prog} {l : List Answer} (h : p.AssignsOnly q) (hr : p.resume l = some r) :
    r.AssignsOnly q := by
  induction p generalizing l with
  | set u k ih => exact ih h.2 (by simpa [Prog.resume] using hr)
  | done x => cases l <;> simp [Prog.resume] at hr; subst hr; exact h
  | read off k ih =>
    rcases l with _ | ⟨⟨⟩, l⟩ <;> simp [Prog.resume] at hr
    · subst hr; exact h
    · exact ih _ (h _) hr
  | write off v k ih =>
    rcases l with _ | ⟨⟨⟩, l⟩ <;> simp [Prog.resume] at hr
    · subst hr; exact h
    · exact ih h hr
  | tick k ih =>
    rcases l with _ | ⟨⟨⟩, l⟩ <;> simp [Prog.resume] at hr
    · subst hr; exact h
    · exact ih _ (h _) hr
  | wait t k ih =>
    rcases l with _ | ⟨⟨⟩, l⟩ <;> simp [Prog.resume] at hr
    · subst hr; exact h
    · exact ih _ (h _) hr
  | look k ih =>
    rcases l with _ | ⟨⟨⟩, l⟩ <;> simp [Prog.resume] at hr
    · subst hr; exact h
    · exact ih _ (h _) hr
  | ask k ih =>
    rcases l with _ | ⟨⟨⟩, l⟩ <;> simp [Prog.resume] at hr
    · subst hr; exact h
    · exact ih _ (h _) hr

/-! ## Properties of the map and the bus registers that the assignments keep -/

theorem memRead_map_bus {a : AgentId} {off : Nat} {s t : State} {v : Word} (h : memRead a off s = .ok (v, t)) :
    t.map = s.map ∧ t.bus = s.bus := by
  rcases (memRead_ok h).2 with ⟨w, -, -, rfl⟩ | ⟨w, -, -, rfl⟩ <;> exact ⟨rfl, rfl⟩

theorem memWrite_map_bus {a : AgentId} {off : Nat} {v : Word} {s t : State} (h : memWrite a off v s = .ok t) :
    t.map = s.map ∧ t.bus = s.bus := by
  obtain ⟨-, pins, -, rfl⟩ := memWrite_ok h
  exact ⟨rfl, rfl⟩

/-- A property of the map and the bus that every assignment of a program keeps holds after its run. -/
theorem run_keeps (inv : RegisterMap → Bus → Prop) (q : Assign → Prop)
    (hq : ∀ (s : State) (u : Assign), q u → inv s.map s.bus → inv (s.assign u).map (s.assign u).bus) (a : AgentId) (p : Prog) (s : State)
    (hp : p.AssignsOnly q) (hs : inv s.map s.bus) : inv (p.run a s).state.map (p.run a s).state.bus := by
  induction p generalizing s with
  | done r => exact hs
  | read off k ih =>
    simp only [Prog.run]
    split
    case h_1 w t h => exact ih w t (hp w) (by rw [(memRead_map_bus h).1, (memRead_map_bus h).2]; exact hs)
    case h_2 => exact hs
  | write off v k ih =>
    simp only [Prog.run]
    split
    case h_1 t h => exact ih t hp (by rw [(memWrite_map_bus h).1, (memWrite_map_bus h).2]; exact hs)
    case h_2 => exact hs
  | tick k ih => exact ih _ _ (hp _) hs
  | wait t k ih => exact ih _ _ (hp _) hs
  | look k ih => exact ih _ _ (hp _) (by rw [State.regsTaken_map, State.regsTaken_bus]; exact hs)
  | set u k ih => exact ih _ hp.2 (hq s u hp.1 hs)
  | ask k ih => exact ih _ _ (hp _) hs

/-- The same of the parts up to the next micro-step. -/
theorem settle_keeps (inv : RegisterMap → Bus → Prop) (q : Assign → Prop)
    (hq : ∀ (s : State) (u : Assign), q u → inv s.map s.bus → inv (s.assign u).map (s.assign u).bus) (p : Prog) (l : List Answer) (s : State)
    (hp : p.AssignsOnly q) (hs : inv s.map s.bus) : inv (p.settle l s).state.map (p.settle l s).state.bus := by
  induction p generalizing s l with
  | done r => exact hs
  | read off k _ => exact hs
  | write off v k _ => exact hs
  | tick k _ => exact hs
  | wait t k _ => exact hs
  | look k ih => exact ih _ _ _ (hp _) (by rw [State.regsTaken_map, State.regsTaken_bus]; exact hs)
  | set u k ih => exact ih _ _ hp.2 (hq s u hp.1 hs)
  | ask k ih => exact ih _ _ _ (hp _) hs

/-- The same of a micro-step. -/
theorem microStep_keeps (inv : RegisterMap → Bus → Prop) (q : Assign → Prop)
    (hq : ∀ (s : State) (u : Assign), q u → inv s.map s.bus → inv (s.assign u).map (s.assign u).bus) (a : AgentId) (p : Prog) (l : List Answer)
    (s : State) (hp : p.AssignsOnly q) (hs : inv s.map s.bus) :
    inv (microStep a p l s).state.map (microStep a p l s).state.bus := by
  unfold microStep
  split
  case h_1 off k =>
    split
    case h_1 w t h =>
      exact settle_keeps inv q hq _ _ _ (hp w) (by rw [(memRead_map_bus h).1, (memRead_map_bus h).2]; exact hs)
    case h_2 => exact hs
  case h_2 off v k =>
    split
    case h_1 t h => exact settle_keeps inv q hq _ _ _ hp (by rw [(memWrite_map_bus h).1, (memWrite_map_bus h).2]; exact hs)
    case h_2 => exact hs
  case h_3 k => exact settle_keeps inv q hq _ _ _ (hp _) hs
  case h_4 t k => exact settle_keeps inv q hq _ _ _ (hp _) hs
  all_goals exact hs

/-! ## The procedures -/

section
variable {q : Assign → Prop} {P : Params}

theorem configureAs_assigns (h : ∀ p d, q (.pinDir p d)) (p : Nat) (fn : BitVec 3) (d : PinDir) {k : Prog} (hk : k.AssignsOnly q) :
    (configureAs p fn d k).AssignsOnly q := fun _ => ⟨h _ _, hk⟩

theorem setValue_assigns (h : ∀ p v, q (.pinLast p v)) (p : Nat) (v : Level) {k : Prog} (hk : k.AssignsOnly q) :
    (setValue P p v k).AssignsOnly q := ⟨h _ _, hk⟩

theorem getValue_assigns (h : ∀ p v, q (.pinLast p v)) (p : Nat) {k : Level → Prog} (hk : ∀ v, (k v).AssignsOnly q) :
    (getValue P p k).AssignsOnly q := fun _ => ⟨h _ _, hk _⟩

/-- The assignments a bus procedure may make: pin attributes, the direction, the stamp. -/
def BusAssign : Assign → Prop
  | .pinDir _ _ => True
  | .pinLast _ _ => True
  | .busDir _ => True
  | .lastEdge _ => True
  | .busSetup _ _ _ _ => False
  | .busConfigured => False
  | .busCleared => False
  | .mapOpened _ => False
  | .mapClosed => False

theorem sclTo_assigns (v : Level) {k : Prog} (hk : k.AssignsOnly BusAssign) : (sclTo P v k).AssignsOnly BusAssign :=
  fun _ _ _ => ⟨trivial, trivial, hk⟩

theorem sdaDrive_assigns (v : Level) {k : Prog} (hk : k.AssignsOnly BusAssign) : (sdaDrive P v k).AssignsOnly BusAssign :=
  fun _ _ _ => ⟨trivial, hk⟩

theorem setWriteMode_assigns {fail k : Prog} (hf : fail.AssignsOnly BusAssign) (hk : k.AssignsOnly BusAssign) :
    (setWriteMode P fail k).AssignsOnly BusAssign := by
  intro b
  dsimp only
  split
  · exact hk
  · intro w
    refine ⟨trivial, ?_⟩
    dsimp only
    split
    · exact hf
    · exact fun _ => ⟨trivial, fun _ _ => ⟨trivial, trivial, hk⟩⟩

theorem setReadMode_assigns {fail k : Prog} (hf : fail.AssignsOnly BusAssign) (hk : k.AssignsOnly BusAssign) :
    (setReadMode P fail k).AssignsOnly BusAssign := by
  intro b
  dsimp only
  split
  · exact hk
  · intro w
    refine ⟨trivial, ?_⟩
    dsimp only
    split
    · exact hf
    · exact fun _ _ => ⟨trivial, trivial, hk⟩

theorem writeBit_assigns (b : Level) {fail k : Prog} (hf : fail.AssignsOnly BusAssign) (hk : k.AssignsOnly BusAssign) :
    (writeBit P b fail k).AssignsOnly BusAssign :=
  sclTo_assigns _ (setWriteMode_assigns hf (sdaDrive_assigns _ (sclTo_assigns _ hk)))

theorem readBit_assigns {fail : Prog} {k : Level → Prog} (hf : fail.AssignsOnly BusAssign) (hk : ∀ v, (k v).AssignsOnly BusAssign) :
    (readBit P fail k).AssignsOnly BusAssign :=
  sclTo_assigns _ (setReadMode_assigns hf (sclTo_assigns _ fun _ _ _ _ => ⟨trivial, hk _⟩))

theorem startCondition_assigns {fail k : Prog} (hf : fail.AssignsOnly BusAssign) (hk : k.AssignsOnly BusAssign) :
    (startCondition P fail k).AssignsOnly BusAssign := by
  have hr : (rearm P fail (sdaDrive P false k)).AssignsOnly BusAssign := writeBit_assigns true hf (sdaDrive_assigns _ hk)
  intro b w
  refine ⟨trivial, ?_⟩
  dsimp only
  split
  · intro b'
    dsimp only
    split
    · exact hr
    · intro w'
      refine ⟨trivial, ?_⟩
      dsimp only
      split
      · exact sdaDrive_assigns _ hk
      · exact hr
  · exact hf

theorem stopCondition_assigns {fail k : Prog} (hf : fail.AssignsOnly BusAssign) (hk : k.AssignsOnly BusAssign) :
    (stopCondition P fail k).AssignsOnly BusAssign := writeBit_assigns false hf (sdaDrive_assigns _ hk)

theorem writeBits_assigns {fail k : Prog} (hf : fail.AssignsOnly BusAssign) (hk : k.AssignsOnly BusAssign) (bits : List Level) :
    (writeBits P fail k bits).AssignsOnly BusAssign := by
  induction bits with
  | nil => exact hk
  | cons b rest ih => exact writeBit_assigns _ hf ih

theorem readBits_assigns {fail : Prog} {k : List Level → Prog} (hf : fail.AssignsOnly BusAssign)
    (hk : ∀ bits, (k bits).AssignsOnly BusAssign) (n : Nat) (got : List Level) :
    (readBits P fail k n got).AssignsOnly BusAssign := by
  induction n generalizing got with
  | zero => exact hk got
  | succ n ih => exact readBit_assigns hf fun _ => ih _

theorem writeByte_assigns (v : Byte) {fail : Prog} {k : Bool → Prog} (hf : fail.AssignsOnly BusAssign)
    (hk : ∀ ok, (k ok).AssignsOnly BusAssign) : (writeByte P v fail k).AssignsOnly BusAssign :=
  writeBits_assigns hf (readBit_assigns hf fun _ => hk _) _

theorem readByte_assigns (ackflag : Bool) {fail : Prog} {k : Byte → Prog} (hf : fail.AssignsOnly BusAssign)
    (hk : ∀ v, (k v).AssignsOnly BusAssign) : (readByte P ackflag fail k).AssignsOnly BusAssign :=
  readBits_assigns hf (fun _ => writeBit_assigns _ hf (hk _)) _ _

theorem writeBytes_assigns {fail : Prog} {k : Bool → Prog} (hf : fail.AssignsOnly BusAssign)
    (hk : ∀ ok, (k ok).AssignsOnly BusAssign) (data : List Byte) : (writeBytes P fail k data).AssignsOnly BusAssign := by
  induction data with
  | nil => exact hk _
  | cons v rest ih =>
    refine writeByte_assigns v hf fun ok => ?_
    split
    · exact ih
    · exact hk _

theorem readBytes_assigns {fail : Prog} {k : List Byte → Prog} (hf : fail.AssignsOnly BusAssign)
    (hk : ∀ out, (k out).AssignsOnly BusAssign) (n : Nat) (got : List Byte) : (readBytes P fail k n got).AssignsOnly BusAssign := by
  induction n generalizing got with
  | zero => exact hk got
  | succ n ih => exact readByte_assigns _ hf fun _ => ih _

theorem stopThenRaise_assigns : (stopThenRaise P).AssignsOnly BusAssign := stopCondition_assigns trivial trivial

theorem stopThenReturn_assigns (v : Value) : (stopThenReturn P v).AssignsOnly BusAssign := stopCondition_assigns trivial trivial

theorem writeBody_assigns (addr reg : Byte) (data : List Byte) : (writeBody addr reg data P).AssignsOnly BusAssign := by
  unfold writeBody
  refine startCondition_assigns stopThenRaise_assigns (writeByte_assigns _ stopThenRaise_assigns fun ok => ?_)
  split
  · refine writeByte_assigns _ stopThenRaise_assigns fun ok => ?_
    split
    · exact writeBytes_assigns stopThenRaise_assigns (fun _ => stopThenReturn_assigns _) data
    · exact stopThenReturn_assigns _
  · exact stopThenReturn_assigns _

theorem readBody_assigns (addr reg n : Byte) : (readBody addr reg n P).AssignsOnly BusAssign := by
  unfold readBody
  refine startCondition_assigns stopThenRaise_assigns (writeByte_assigns _ stopThenRaise_assigns fun ok => ?_)
  split
  · refine writeByte_assigns _ stopThenRaise_assigns fun ok => ?_
    split
    · refine startCondition_assigns stopThenRaise_assigns (writeByte_assigns _ stopThenRaise_assigns fun ok => ?_)
      split
      · exact readBytes_assigns stopThenRaise_assigns (fun _ => stopThenReturn_assigns _) _ _
      · exact stopThenReturn_assigns _
    · exact stopThenReturn_assigns _
  · exact stopThenReturn_assigns _

end

/-! ## The commands -/

/-- The assignments of each command that is no bus procedure; the others make those of `BusAssign`. -/
def assignsOf : Instr → Assign → Prop
  | .openMap => fun u => ∃ b, u = .mapOpened b
  | .closeMap => fun u => u = .mapClosed
  | .rdw _ => fun _ => False
  | .wrw _ _ => fun _ => False
  | .pcfgo pin => fun u => u = .pinDir pin.toNat .output
  | .pcfgi pin => fun u => u = .pinDir pin.toNat .input
  | .pset pin lv => fun u => u = .pinLast pin.toNat lv
  | .pget pin => fun u => ∃ v, u = .pinLast pin.toNat v
  | .i2cinit scl sda freq => fun u =>
    (∃ p d, u = .pinDir p d) ∨ (∃ p v, u = .pinLast p v) ∨ (∃ t, u = .lastEdge t) ∨ u = .busConfigured ∨
      ∃ rate, u = .busSetup scl.toNat sda.toNat (halfPeriodTicks rate freq.toNat) (quarterPeriodTicks rate freq.toNat)
  | .i2cdisp => fun u => (∃ p d, u = .pinDir p d) ∨ u = .busCleared
  | .setwm => BusAssign
  | .setrm => BusAssign
  | .wbit _ => BusAssign
  | .rbit => BusAssign
  | .start => BusAssign
  | .stop => BusAssign
  | .wbyte _ => BusAssign
  | .rbyte _ => BusAssign
  | .wbytes _ => BusAssign
  | .write _ _ _ => BusAssign
  | .read _ _ _ => BusAssign

/-- Every command makes only its assignments. -/
theorem body_assigns (i : Instr) (P : Params) : ((commandOf i).body P).AssignsOnly (assignsOf i) := by
  cases i with
  | openMap =>
    intro p
    dsimp only
    split
    · trivial
    · split
      · split
        · exact ⟨⟨_, rfl⟩, trivial⟩
        · trivial
      · trivial
  | closeMap => exact ⟨rfl, trivial⟩
  | rdw off => exact fun _ => trivial
  | wrw off v => exact trivial
  | pcfgo pin => exact fun _ => ⟨rfl, trivial⟩
  | pcfgi pin => exact fun _ => ⟨rfl, trivial⟩
  | pset pin lv => exact ⟨rfl, trivial⟩
  | pget pin => exact fun _ => ⟨⟨_, rfl⟩, trivial⟩
  | i2cinit scl sda freq =>
    exact ⟨.inr (.inl ⟨_, _, rfl⟩), fun _ => ⟨.inl ⟨_, _, rfl⟩, .inr (.inl ⟨_, _, rfl⟩), fun _ => ⟨.inl ⟨_, _, rfl⟩,
      .inr (.inr (.inr (.inr ⟨_, rfl⟩))), fun _ => ⟨.inr (.inr (.inl ⟨_, rfl⟩)), .inr (.inr (.inr (.inl rfl))), trivial⟩⟩⟩⟩
  | i2cdisp => exact fun _ _ => ⟨.inl ⟨_, _, rfl⟩, fun _ _ => ⟨.inl ⟨_, _, rfl⟩, .inr rfl, trivial⟩⟩
  | setwm => exact setWriteMode_assigns trivial trivial
  | setrm => exact setReadMode_assigns trivial trivial
  | wbit b => exact writeBit_assigns b trivial trivial
  | rbit => exact readBit_assigns trivial fun _ => trivial
  | start => exact startCondition_assigns trivial trivial
  | stop => exact stopCondition_assigns trivial trivial
  | wbyte v =>
    exact writeByte_assigns (fail := raiseProtocolViolation) (k := fun ack => .done (.ok (.bool ack))) v trivial fun _ => trivial
  | rbyte a =>
    exact readByte_assigns (fail := raiseProtocolViolation) (k := fun v => .done (.ok (.byte v))) a trivial fun _ => trivial
  | wbytes data =>
    exact writeBytes_assigns (fail := raiseProtocolViolation) (k := fun ok => .done (.ok (.bool ok))) trivial (fun _ => trivial) data
  | write addr reg data => exact writeBody_assigns addr reg data
  | read addr reg n => exact readBody_assigns addr reg n

end Sys2Proof.Machine
end

