-- ==== Sys2Proof/Laws/PerInstr.lean ====
section
/-! SUPPORT. Two facts of every instruction as syntax, one lemma for each constructor: the words of its encoding number what its first
word says, and its first word carries the opcode of its row of the opcode map. -/

namespace Sys2Proof.Laws

/-- The operation of each command in the opcode map (spec/30_encoding.md R86). -/
def opOf : Instr → Op
  | .openMap => .opn
  | .closeMap => .cls
  | .rdw _ => .rdw
  | .wrw _ _ => .wrw
  | .pcfgo _ => .pcfgo
  | .pcfgi _ => .pcfgi
  | .pset _ _ => .pset
  | .pget _ => .pget
  | .i2cinit _ _ _ => .i2cinit
  | .i2cdisp => .i2cdisp
  | .setwm => .setwm
  | .setrm => .setrm
  | .wbit _ => .wbit
  | .rbit => .rbit
  | .start => .start
  | .stop => .stop
  | .wbyte _ => .wbyte
  | .rbyte _ => .rbyte
  | .wbytes _ => .wbytes
  | .write _ _ _ => .write
  | .read _ _ _ => .read

/-- An operation is the one of its own opcode. -/
theorem ofCode_code (o : Op) : Op.ofCode o.code = some o := by cases o <;> decide

/-- The operation found for an opcode has that opcode. -/
theorem code_of_ofCode {c : BitVec 8} {o : Op} (h : Op.ofCode c = some o) : o.code = c := by
  have := List.find?_some h
  simpa using this

/-- The number of words of a payload (R79). -/
theorem length_packPayload (data : List Byte) : (packPayload data).length = payloadWords data.length := by
  induction data using packPayload.induct with
  | case1 => simp [packPayload, payloadWords]
  | case2 a => simp [packPayload, payloadWords]
  | case3 a b => simp [packPayload, payloadWords]
  | case4 a b c => simp [packPayload, payloadWords]
  | case5 a b c d rest ih => simp [packPayload, ih, payloadWords]; omega

/-- The opcode of a word whose top byte it is. -/
theorem opcodeOf_append (code : BitVec 8) (rest : BitVec 24) : opcodeOf (code ++ rest) = code := by
  apply BitVec.eq_of_getLsbD_eq
  intro j hj
  simp only [opcodeOf, BitVec.getLsbD_extractLsb', hj, decide_true, Bool.true_and, BitVec.getLsbD_append]
  have h : ¬ 24 + j < 24 := by omega
  simp [h, hj]

namespace FirstWord

/-- The first word of the encoding carries the instruction's opcode in bits 31 to 24 (R75). -/
def Statement (i : Instr) : Prop := ∃ c ws, encode i = c :: ws ∧ opcodeOf c = (opOf i).code

theorem openMap : Statement .openMap := ⟨_, _, rfl, by decide⟩
theorem closeMap : Statement .closeMap := ⟨_, _, rfl, by decide⟩
theorem rdw (off : Nat) : Statement (.rdw off) := ⟨_, _, rfl, opcodeOf_append _ _⟩
theorem wrw (off : Nat) (value : Word) : Statement (.wrw off value) := ⟨_, _, rfl, opcodeOf_append _ _⟩
theorem pcfgo (pin : PinField) : Statement (.pcfgo pin) := ⟨_, _, rfl, opcodeOf_append _ _⟩
theorem pcfgi (pin : PinField) : Statement (.pcfgi pin) := ⟨_, _, rfl, opcodeOf_append _ _⟩
theorem pset (pin : PinField) (lv : Level) : Statement (.pset pin lv) := ⟨_, _, rfl, opcodeOf_append _ _⟩
theorem pget (pin : PinField) : Statement (.pget pin) := ⟨_, _, rfl, opcodeOf_append _ _⟩
theorem i2cinit (scl sda : PinField) (freq : Word) : Statement (.i2cinit scl sda freq) := ⟨_, _, rfl, opcodeOf_append _ _⟩
theorem i2cdisp : Statement .i2cdisp := ⟨_, _, rfl, by decide⟩
theorem setwm : Statement .setwm := ⟨_, _, rfl, by decide⟩
theorem setrm : Statement .setrm := ⟨_, _, rfl, by decide⟩
theorem wbit (b : Level) : Statement (.wbit b) := ⟨_, _, rfl, opcodeOf_append _ _⟩
theorem rbit : Statement .rbit := ⟨_, _, rfl, by decide⟩
theorem start : Statement .start := ⟨_, _, rfl, by decide⟩
theorem stop : Statement .stop := ⟨_, _, rfl, by decide⟩
theorem wbyte (v : Byte) : Statement (.wbyte v) := ⟨_, _, rfl, opcodeOf_append _ _⟩
theorem rbyte (ackflag : Bool) : Statement (.rbyte ackflag) := ⟨_, _, rfl, opcodeOf_append _ _⟩
theorem wbytes (data : List Byte) : Statement (.wbytes data) := ⟨_, _, rfl, opcodeOf_append _ _⟩
theorem write (addr reg : Byte) (data : List Byte) : Statement (.write addr reg data) := ⟨_, _, rfl, opcodeOf_append _ _⟩
theorem read (addr reg n : Byte) : Statement (.read addr reg n) := ⟨_, _, rfl, opcodeOf_append _ _⟩

end FirstWord

end Sys2Proof.Laws
end

