-- ==== Sys2Proof/Laws/Procedures.lean ====
section
/-! SUPPORT. One law for each primitive and procedure: where its conditions hold, running it and then `k` is running `k` from a
state named here, whose fields read off by `rfl`. The laws compose by rewriting, so that no proof unfolds a procedure again. -/

namespace Sys2Proof.Machine

/-! ## The effects, by name -/

/-- The state after `SetValue(p, v)` (R122). -/
def State.valueSet (a : AgentId) (p : Nat) (v : Level) (s : State) : State :=
  { s with
    pins := updatePin p (fun x => { x with latch := v, last := some v }) s.pins
    history := s.history ++ [.memWrite a (if v then setOff s.params p else clrOff s.params p) (bitMask p)] }

/-- The level `GetValue(p)` reads (R27, R123). -/
def State.levelOf (p : Nat) (s : State) : Level :=
  lineLevel s.params (s.pin p) (s.nextLevels.getLsbD (p % pinsPerBank))

/-- The state after `GetValue(p)` (R123). -/
def State.valueGot (a : AgentId) (p : Nat) (s : State) : State :=
  { s with
    pins := updatePin p (fun x => { x with last := some (s.levelOf p) }) s.pins
    env := { s.env with levels := s.env.levels.next }
    history := s.history ++
      [.memRead a (levOff s.params p) (levWord s.params s.pins (p / pinsPerBank) s.nextLevels)] }

/-- The state after a function-select rewrite of `p` with no other agent's step inside it (R120, R121). -/
def State.configured (a : AgentId) (p : Nat) (fn : BitVec 3) (d : PinDir) (s : State) : State :=
  { s with
    pins := updatePin p (fun x => { x with fsel := fn, dir := some d }) s.pins
    env := { s.env with reserved := s.env.reserved.next }
    history := s.history ++
      [.memRead a (fselOff p) (fselWord s.pins (p / fselPerWord) s.nextReserved),
       .memWrite a (fselOff p) (withFsel (fselWord s.pins (p / fselPerWord) s.nextReserved) p fn)] }

/-- The counter value that ends a wait for `n` (R241). -/
def State.waitedTo (n : Nat) (s : State) : Nat := max s.clock n + s.nextDelay

/-- The state after a wait for `n`. -/
def State.waited (a : AgentId) (n : Nat) (s : State) : State := (readClock a n s).2

/-- The state after `SclLow` or `SclHigh` (R150, R151). -/
def State.sclSet (a : AgentId) (b : BusRegs) (v : Level) (s : State) : State :=
  ((s.waited a (b.lastEdge + b.halfPeriod)).valueSet a b.scl v).assign
    (.lastEdge (s.waitedTo (b.lastEdge + b.halfPeriod)))

/-- The bus registers after `SclLow` or `SclHigh`. -/
def BusRegs.stamped (b : BusRegs) (s : State) : BusRegs :=
  { b with lastEdge := s.waitedTo (b.lastEdge + b.halfPeriod) }

/-- The state after `SdaDrive(v)` (R152). -/
def State.sdaSet (a : AgentId) (b : BusRegs) (v : Level) (s : State) : State :=
  (s.waited a (b.lastEdge + b.quarterPeriod)).valueSet a b.sda v

/-! ## What the laws assume -/

/-- The conditions under which a procedure of the bus does what its rule says: the parameters meet R5, the map is open, the bus
registers are `b`, and the bus's pins are two pins of the controller. -/
structure Live (P : Params) (b : BusRegs) (s : State) : Prop where
  params : s.params = P
  ok : paramsOk P s.pins.length
  isOpen : s.map.isOpen = true
  regs : s.bus.regs = some b
  distinct : b.scl ≠ b.sda
  scl_lt : b.scl < s.pins.length
  sda_lt : b.sda < s.pins.length

/-- A ready bus is live. -/
theorem State.busReady.live {s : State} {b : BusRegs} (h : s.busReady b) : Live s.params b s := by
  obtain ⟨h1, h2, -, -, h5, h6, h7, h8, -, -⟩ := h
  exact ⟨rfl, h1, h2, h5, h6, h7, h8⟩

/-- The registers of a bus that has them, one by one. -/
theorem Bus.regs_eq_some {c : Bus} {b : BusRegs} :
    c.regs = some b ↔ c.scl = some b.scl ∧ c.sda = some b.sda ∧ c.dir = some b.dir ∧ c.halfPeriod = some b.halfPeriod ∧
      c.quarterPeriod = some b.quarterPeriod ∧ c.lastEdge = some b.lastEdge := by
  obtain ⟨cfg, scl, sda, dir, h, q, t, o⟩ := c
  obtain ⟨scl', sda', dir', h', q', t'⟩ := b
  cases scl <;> cases sda <;> cases dir <;> cases h <;> cases q <;> cases t <;>
    simp [Bus.regs]

@[simp] theorem Bus.regs_owner (c : Bus) (o : Option AgentId) : ({ c with owner := o } : Bus).regs = c.regs := rfl

theorem Bus.regs_lastEdge {c : Bus} {b : BusRegs} (h : c.regs = some b) (t : Nat) :
    ({ c with lastEdge := some t } : Bus).regs = some { b with lastEdge := t } := by
  rw [Bus.regs_eq_some] at h ⊢; simp [h]

theorem Bus.regs_dir {c : Bus} {b : BusRegs} (h : c.regs = some b) (d : BusDir) :
    ({ c with dir := some d } : Bus).regs = some { b with dir := d } := by
  rw [Bus.regs_eq_some] at h ⊢; simp [h]

/-! ## Primitives -/

theorem run_look {a : AgentId} {s : State} {b : BusRegs} (k : BusRegs → Prog) (h : s.bus.regs = some b) :
    (Prog.look k).run a s = (k b).run a s := by
  rw [Prog.run, (State.regsRead_eq h).1, (State.regsRead_eq h).2]

theorem run_wait (a : AgentId) (n : Nat) (k : Nat → Prog) (s : State) :
    (Prog.wait n k).run a s = (k (s.waitedTo n)).run a (s.waited a n) := rfl

theorem run_set (a : AgentId) (u : Assign) (k : Prog) (s : State) : (Prog.set u k).run a s = k.run a (s.assign u) := rfl

theorem run_done (a : AgentId) (r : Reply) (s : State) : (Prog.done r).run a s = .finished r s := rfl

/-- `SetValue` (R122). -/
theorem run_setValue {P : Params} {a : AgentId} {p : Nat} {v : Level} {k : Prog} {s : State} (hP : s.params = P)
    (ok : paramsOk P s.pins.length) (ho : s.map.isOpen = true) (hp : p < s.pins.length) :
    (setValue P p v k).run a s = k.run a (s.valueSet a p v) := by
  subst hP
  simp only [setValue, Prog.run, memWrite, ho, if_true, writePins_setValue _ _ p v ok hp]
  simp [State.assign, State.valueSet]

/-- `GetValue` (R123). -/
theorem run_getValue {P : Params} {a : AgentId} {p : Nat} {k : Level → Prog} {s : State} (hP : s.params = P)
    (ok : paramsOk P s.pins.length) (ho : s.map.isOpen = true) (hp : p < s.pins.length) :
    (getValue P p k).run a s = (k (s.levelOf p)).run a (s.valueGot a p) := by
  subst hP
  have hw := windowReg_levOff s.params s.pins.length p ok hp
  have hx : s.pins[p]? = some (s.pin p) := by
    simp [State.pin, List.getD_eq_getElem?_getD, List.getElem?_eq_getElem hp]
  have hl : (levWord s.params s.pins (p / pinsPerBank) s.nextLevels).getLsbD (p % pinsPerBank) = s.levelOf p :=
    getLsbD_levWord _ _ _ _ _ hx
  simp only [getValue, Prog.run, memRead, ho, if_true, State.numPins, hw, hl]
  rfl

/-- A function-select rewrite (R120, R121). -/
theorem run_configureAs {a : AgentId} {p : Nat} {fn : BitVec 3} {d : PinDir} {k : Prog} {s : State}
    (ho : s.map.isOpen = true) (hp : p < s.pins.length) :
    (configureAs p fn d k).run a s = k.run a (s.configured a p fn d) := by
  simp only [configureAs, Prog.run, memRead, ho, if_true, State.numPins, windowReg_fselOff s.params _ p hp, memWrite,
    writePins_withFsel s.params s.pins p fn _ hp]
  simp [State.assign, State.configured]

/-! ## The conditions are kept -/

variable {P : Params} {b : BusRegs} {s : State} {a : AgentId}

/-- The conditions depend on the parameters, the map, the bus registers and the number of pins alone. -/
theorem Live.of_eq {b' : BusRegs} {s' : State} (L : Live P b s) (hp : s'.params = s.params)
    (hl : s'.pins.length = s.pins.length) (ho : s'.map = s.map) (hr : s'.bus.regs = some b') (hc : b'.scl = b.scl)
    (hd : b'.sda = b.sda) : Live P b' s' :=
  ⟨hp.trans L.params, by rw [hl]; exact L.ok, by rw [ho]; exact L.isOpen, hr, by rw [hc, hd]; exact L.distinct,
    by rw [hl, hc]; exact L.scl_lt, by rw [hl, hd]; exact L.sda_lt⟩

theorem Live.waited (L : Live P b s) (n : Nat) : Live P b (s.waited a n) :=
  ⟨L.params, L.ok, L.isOpen, L.regs, L.distinct, L.scl_lt, L.sda_lt⟩

theorem Live.valueSet (L : Live P b s) (p : Nat) (v : Level) : Live P b (s.valueSet a p v) :=
  L.of_eq rfl (length_updatePin _ _ _) rfl L.regs rfl rfl

theorem Live.valueGot (L : Live P b s) (p : Nat) : Live P b (s.valueGot a p) :=
  L.of_eq rfl (length_updatePin _ _ _) rfl L.regs rfl rfl

theorem Live.configured (L : Live P b s) (p : Nat) (fn : BitVec 3) (d : PinDir) : Live P b (s.configured a p fn d) :=
  L.of_eq rfl (length_updatePin _ _ _) rfl L.regs rfl rfl

theorem Live.sclSet (L : Live P b s) (v : Level) : Live P (b.stamped s) (s.sclSet a b v) :=
  L.of_eq rfl (length_updatePin _ _ _) rfl (Bus.regs_lastEdge L.regs _) rfl rfl

theorem Live.sdaSet (L : Live P b s) (v : Level) : Live P b (s.sdaSet a b v) := (L.waited _).valueSet _ _

theorem Live.dir (L : Live P b s) (d : BusDir) : Live P { b with dir := d } (s.assign (.busDir d)) :=
  ⟨L.params, L.ok, L.isOpen, Bus.regs_dir L.regs d, L.distinct, L.scl_lt, L.sda_lt⟩

/-! ## Timing procedures -/

/-- `SclLow` and `SclHigh` (R150, R151). -/
theorem run_sclTo (L : Live P b s) (v : Level) (k : Prog) : (sclTo P v k).run a s = k.run a (s.sclSet a b v) := by
  have L' : Live P b (s.waited a (b.lastEdge + b.halfPeriod)) := L.waited _
  rw [sclTo, run_look _ L.regs, run_wait, run_look _ L'.regs, run_setValue L'.params L'.ok L'.isOpen L'.scl_lt, run_set]
  rfl

theorem run_sclLow (L : Live P b s) (k : Prog) : (sclLow P k).run a s = k.run a (s.sclSet a b false) := run_sclTo L _ _

theorem run_sclHigh (L : Live P b s) (k : Prog) : (sclHigh P k).run a s = k.run a (s.sclSet a b true) := run_sclTo L _ _

/-- `SdaDrive` (R152). -/
theorem run_sdaDrive (L : Live P b s) (v : Level) (k : Prog) : (sdaDrive P v k).run a s = k.run a (s.sdaSet a b v) := by
  have L' : Live P b (s.waited a (b.lastEdge + b.quarterPeriod)) := L.waited _
  rw [sdaDrive, run_look _ L.regs, run_wait, run_look _ L'.regs, run_setValue L'.params L'.ok L'.isOpen L'.sda_lt]
  rfl

/-! ## Direction switching -/

/-- The state after a switch to writing from reading (R143). -/
def State.madeWriting (a : AgentId) (b : BusRegs) (s : State) : State :=
  (((s.valueGot a b.scl).valueSet a b.sda true).configured a b.sda s.params.fnOutput .output).assign (.busDir .writing)

/-- The state after a switch to reading from writing (R144). -/
def State.madeReading (a : AgentId) (b : BusRegs) (s : State) : State :=
  ((s.valueGot a b.scl).configured a b.sda s.params.fnInput .input).assign (.busDir .reading)

/-- SetWriteMode does nothing in writing mode (R143). -/
theorem run_setWriteMode_writing (L : Live P b s) (hd : b.dir = .writing) (fail k : Prog) :
    (setWriteMode P fail k).run a s = k.run a s := by
  rw [setWriteMode, run_look _ L.regs, hd]

/-- SetWriteMode in reading mode with SCL read high raises ProtocolViolation before any pin changes (R143). -/
theorem run_setWriteMode_high (L : Live P b s) (hd : b.dir = .reading) (hl : s.levelOf b.scl = true) (fail k : Prog) :
    (setWriteMode P fail k).run a s = fail.run a (s.valueGot a b.scl) := by
  rw [setWriteMode, run_look _ L.regs, hd]
  simp only [run_getValue L.params L.ok L.isOpen L.scl_lt, hl, if_true]

/-- SetWriteMode in reading mode with SCL read low (R143). -/
theorem run_setWriteMode_low (L : Live P b s) (hd : b.dir = .reading) (hl : s.levelOf b.scl = false) (fail k : Prog) :
    (setWriteMode P fail k).run a s = k.run a (s.madeWriting a b) := by
  have L1 : Live P b (s.valueGot a b.scl) := L.valueGot _
  have L2 : Live P b ((s.valueGot a b.scl).valueSet a b.sda true) := L1.valueSet _ _
  rw [setWriteMode, run_look _ L.regs, hd]
  simp only [run_getValue L.params L.ok L.isOpen L.scl_lt, hl, Bool.false_eq_true, if_false]
  rw [run_look _ L1.regs, run_setValue L1.params L1.ok L1.isOpen L1.sda_lt, run_look _ L2.regs, configureAsOutput,
    run_configureAs L2.isOpen L2.sda_lt, run_set, State.madeWriting, L.params]

/-- SetReadMode does nothing in reading mode (R144). -/
theorem run_setReadMode_reading (L : Live P b s) (hd : b.dir = .reading) (fail k : Prog) :
    (setReadMode P fail k).run a s = k.run a s := by
  rw [setReadMode, run_look _ L.regs, hd]

/-- SetReadMode in writing mode with SCL read high raises ProtocolViolation before any pin changes (R144). -/
theorem run_setReadMode_high (L : Live P b s) (hd : b.dir = .writing) (hl : s.levelOf b.scl = true) (fail k : Prog) :
    (setReadMode P fail k).run a s = fail.run a (s.valueGot a b.scl) := by
  rw [setReadMode, run_look _ L.regs, hd]
  simp only [run_getValue L.params L.ok L.isOpen L.scl_lt, hl, if_true]

/-- SetReadMode in writing mode with SCL read low (R144). -/
theorem run_setReadMode_low (L : Live P b s) (hd : b.dir = .writing) (hl : s.levelOf b.scl = false) (fail k : Prog) :
    (setReadMode P fail k).run a s = k.run a (s.madeReading a b) := by
  have L1 : Live P b (s.valueGot a b.scl) := L.valueGot _
  rw [setReadMode, run_look _ L.regs, hd]
  simp only [run_getValue L.params L.ok L.isOpen L.scl_lt, hl, Bool.false_eq_true, if_false]
  rw [run_look _ L1.regs, configureAsInput, run_configureAs L1.isOpen L1.sda_lt, run_set, State.madeReading, L.params]

theorem Live.madeWriting (L : Live P b s) : Live P { b with dir := .writing } (s.madeWriting a b) :=
  Live.dir (((L.valueGot _).valueSet _ _).configured _ _ _) _

theorem Live.madeReading (L : Live P b s) : Live P { b with dir := .reading } (s.madeReading a b) :=
  Live.dir ((L.valueGot _).configured _ _ _) _

/-- After SclLow a driven SCL reads low, whatever the environment draws (R27, R150). -/
theorem levelOf_sclSet (L : Live P b s) (hs : (s.pin b.scl).fsel = P.fnOutput) (v : Level) :
    (s.sclSet a b v).levelOf b.scl = v := by
  have hp : ((s.sclSet a b v).pin b.scl) = { s.pin b.scl with latch := v, last := some v } :=
    getD_updatePin_self _ _ _ L.scl_lt
  simp only [State.levelOf, hp, lineLevel]
  rw [if_pos (by rw [show (s.sclSet a b v).params = s.params from rfl, L.params]; exact hs)]

end Sys2Proof.Machine
end

