-- ==== Sys2Proof/Laws/Wire.lean ====
section
/-! SUPPORT. The level of a line on the wire trace (spec/20_memory.md R60), by what the pin is and which event comes next; and which
reads are the I2C master's. -/

namespace Sys2Proof.Machine

variable (V : WireView) (P : Params) (inFlight : AgentId → Bool) (p k : Nat) (pins : List Pin) (events : List Event)

/-! ## The master's reads -/

@[simp] theorem ofMaster_nil (a : AgentId) : ofMaster inFlight a [] = inFlight a := rfl

@[simp] theorem ofMaster_memRead (a a' : AgentId) (off : Nat) (v : Word) :
    ofMaster inFlight a (.memRead a' off v :: events) = ofMaster inFlight a events := rfl

@[simp] theorem ofMaster_memWrite (a a' : AgentId) (off : Nat) (v : Word) :
    ofMaster inFlight a (.memWrite a' off v :: events) = ofMaster inFlight a events := rfl

@[simp] theorem ofMaster_tick (a a' : AgentId) (t : Nat) :
    ofMaster inFlight a (.tick a' t :: events) = ofMaster inFlight a events := rfl

/-- The agent's next completion decides. -/
@[simp] theorem ofMaster_own (a : AgentId) (i : Instr) (r : Reply) :
    ofMaster inFlight a (.completed a i r :: events) = isBusCommand i := by
  rw [ofMaster, if_pos rfl]

/-- Another agent's completion does not. -/
theorem ofMaster_other (a a' : AgentId) (i : Instr) (r : Reply) (h : a' ≠ a) :
    ofMaster inFlight a (.completed a' i r :: events) = ofMaster inFlight a events := by
  rw [ofMaster, if_neg h]

/-- Events among which agent `a` completes nothing leave the question to those after them. -/
theorem ofMaster_append (a : AgentId) (es : List Event) (h : ∀ i r, Event.completed a i r ∉ es) :
    ofMaster inFlight a (es ++ events) = ofMaster inFlight a events := by
  induction es with
  | nil => rfl
  | cons e rest ih =>
    have hr : ∀ i r, Event.completed a i r ∉ rest := fun i r m => h i r (List.mem_cons_of_mem _ m)
    cases e with
    | memRead a' off v => exact ih hr
    | memWrite a' off v => exact ih hr
    | tick a' t => exact ih hr
    | completed a' i r =>
      have hn : a' ≠ a := fun e => h i r (by rw [e]; exact List.mem_cons_self)
      rw [List.cons_append, ofMaster_other _ _ _ _ _ _ hn, ih hr]

/-! ## Levels -/

/-- An output shows its latch, whatever is read later. -/
theorem wireLevel_output (h : (pins.getD p Pin.absent).fsel = V.params.fnOutput) :
    wireLevel V p k pins events = (pins.getD p Pin.absent).latch := by
  rw [wireLevel, lineLevel, if_pos h]

/-- A pin that is no output shows what the master's next read of it finds, or a draw. -/
theorem wireLevel_input (h : (pins.getD p Pin.absent).fsel ≠ V.params.fnOutput) :
    wireLevel V p k pins events = (nextRead V.params V.inFlight p pins events).getD (V.draw k p) := by
  rw [wireLevel, lineLevel, if_neg h]

@[simp] theorem nextRead_nil : nextRead P inFlight p pins [] = none := rfl

@[simp] theorem nextRead_tick (a : AgentId) (t : Nat) :
    nextRead P inFlight p pins (.tick a t :: events) = nextRead P inFlight p pins events := rfl

@[simp] theorem nextRead_completed (a : AgentId) (i : Instr) (r : Reply) :
    nextRead P inFlight p pins (.completed a i r :: events) = nextRead P inFlight p pins events := rfl

/-- The master's read of the pin's level word decides its level. -/
theorem nextRead_lev (a : AgentId) (v : Word) (h : ofMaster inFlight a events = true) :
    nextRead P inFlight p pins (.memRead a (levOff P p) v :: events) = some (v.getLsbD (p % pinsPerBank)) := by
  rw [nextRead, if_pos ⟨rfl, h⟩]

/-- A read of another word, or by no operation of the master, does not. -/
theorem nextRead_other (a : AgentId) (off : Nat) (v : Word) (h : off ≠ levOff P p ∨ ofMaster inFlight a events = false) :
    nextRead P inFlight p pins (.memRead a off v :: events) = nextRead P inFlight p pins events := by
  rw [nextRead, if_neg fun c => h.elim (fun n => n c.1) fun n => by rw [n] at c; exact Bool.false_ne_true c.2]

/-- A write that leaves the pin no output is looked past. -/
theorem nextRead_write {pins' : List Pin} (a : AgentId) (off : Nat) (v : Word) (hw : writePins P off v pins = some pins')
    (h : (pins'.getD p Pin.absent).fsel ≠ P.fnOutput) :
    nextRead P inFlight p pins (.memWrite a off v :: events) = nextRead P inFlight p pins' events := by
  rw [nextRead, hw]
  exact if_neg h

/-- A write that makes the pin an output ends the search: no later read shows the level it had. -/
theorem nextRead_driven {pins' : List Pin} (a : AgentId) (off : Nat) (v : Word) (hw : writePins P off v pins = some pins')
    (h : (pins'.getD p Pin.absent).fsel = P.fnOutput) :
    nextRead P inFlight p pins (.memWrite a off v :: events) = none := by
  rw [nextRead, hw]
  exact if_pos h

/-- Where both pins are outputs the pair is their latches. -/
theorem wirePoint_outputs (hc : (pins.getD V.scl Pin.absent).fsel = V.params.fnOutput)
    (hd : (pins.getD V.sda Pin.absent).fsel = V.params.fnOutput) :
    wirePoint V k pins events = ((pins.getD V.scl Pin.absent).latch, (pins.getD V.sda Pin.absent).latch) := by
  rw [wirePoint, wireLevel_output V V.scl k pins events hc, wireLevel_output V V.sda k pins events hd]

/-- A write adds the pair after it to the trace, or nothing where it changes neither pin. -/
theorem wireChanges_write {pins' : List Pin} (a : AgentId) (off : Nat) (v : Word)
    (hw : writePins V.params off v pins = some pins') :
    wireChanges V k pins (.memWrite a off v :: events) =
      (if samePinOutput V.scl pins pins' && samePinOutput V.sda pins pins' then [] else [wirePoint V (k + 1) pins' events]) ++
        wireChanges V (k + 1) pins' events := by
  simp only [wireChanges, hw]
  split <;> rfl

end Sys2Proof.Machine
end

