-- ==== Sys2Proof/Tests/Slice0.lean ====
section
/-! SUPPORT. The model's own tests: ill-formed commands, the words of the spec's encodings, one step of each command against
spec/95_test_vectors.md (the vector is named in each docstring), and a witness for the hypotheses of each statement. -/

namespace Sys2Proof.Machine.Test

set_option Elab.async false

/-! ## Small states -/

/-- The next state of an outcome; a stop gives the reset state. -/
def after (o : Host.Outcome State Fault Refusal) : State :=
  match o with
  | .next s => s
  | .fault _ => State.reset
  | .refused _ => State.reset

/-- Whether an outcome is a next state. -/
def isNext (o : Host.Outcome State Fault Refusal) : Bool :=
  match o with
  | .next _ => true
  | .fault _ => false
  | .refused _ => false

theorem eq_next_after (o : Host.Outcome State Fault Refusal) (h : isNext o = true) : o = .next (after o) := by
  cases o <;> first | rfl | cases h

theorem exec_next (i : Instr) (s : State) : exec i s = .next (after (exec i s)) := by rw [exec_eq]; rfl

/-- The state with these level words ready, reserved bits drawn 0, and a prompt clock (section 0.1 of the vectors). -/
def answering (levels : List Word) (s : State) : State :=
  { s with env := { levels := ⟨levels, 0⟩, reserved := ⟨List.replicate 12 0#32, 0⟩, delays := ⟨List.replicate 600 0, 0⟩,
                    platform := ⟨[], 0⟩, registers := ⟨[], 0⟩ } }

/-- The reset state with the platform answering so. -/
def platformAnswers (p : PlatformAnswer) : State := { State.reset with env := { State.reset.env with platform := ⟨[p], 0⟩ } }

/-- The state after OPEN. -/
def opened : State := { State.reset with map := ⟨true, some 0x3F200000⟩ }

/-- An output pin with this latch. -/
def outPin (lv : Level) : Pin := { fsel := 1#3, latch := lv, dir := some .output, last := some lv }

/-- The opened state with pins 16 and 17 outputs, latches 0 and 1, of 18 pins. -/
def twoOutputs : State :=
  answering [0#32] { opened with pins := List.replicate 16 Pin.initial ++ [outPin false, outPin true] }

/-- The bus registers of I2CINIT 3, 2, 100000 (section 0 of the vectors). -/
def regsAt (dir : BusDir) (lastEdge : Nat) : BusRegs := ⟨3, 2, dir, 50, 25, lastEdge⟩

/-- A state of four pins whose bus is pins 3 and 2, in this direction, with these latches. -/
def busAt (dir : BusDir) (lastEdge : Nat) (scl sda : Level) (levels : List Word) : State :=
  answering levels
    { opened with
      pins := [Pin.initial, Pin.initial,
        { fsel := match dir with
            | .writing => 1#3
            | .reading => 0#3
          latch := sda, dir := some .output, last := some sda },
        outPin scl]
      bus := { cfg := .configured, scl := some 3, sda := some 2, dir := some dir, halfPeriod := some 50, quarterPeriod := some 25,
               lastEdge := some lastEdge, owner := none }
      clock := lastEdge }

/-- The bus as V11 leaves it. -/
def idleBus : State := busAt .writing 1000 true true []

/-- What V11 starts from. -/
def beforeBus : State := answering [] { opened with pins := List.replicate 4 Pin.initial }

/-- The idle bus, of which another agent's operation is the owner. -/
def ownedBus : State := idleBus.setOwner (some 7)

/-- The idle bus after CLOSE. -/
def closedBus : State := { idleBus with map := ⟨false, none⟩ }

/-- The new accesses and the result. -/
def seen (i : Instr) (s : State) : List Event := newEvents s (after (exec i s))

/-- The result an agent gets. -/
def resultOf (i : Instr) (s : State) : Option Event := (after (exec i s)).history.getLast?

/-! ## Well-formedness -/

theorem test_wf_rdw_offset : Instr.wf (.rdw 4096) = false ∧ Instr.wf (.rdw 4095) = true := by decide
theorem test_wf_wrw_offset : Instr.wf (.wrw 4096 0#32) = false ∧ Instr.wf (.wrw 4095 0#32) = true := by decide
theorem test_wf_wbytes_length :
    Instr.wf (.wbytes (List.replicate 256 0#8)) = false ∧ Instr.wf (.wbytes (List.replicate 255 0#8)) = true := by
  decide +kernel
theorem test_wf_write_length :
    Instr.wf (.write 0#8 0#8 (List.replicate 256 0#8)) = false ∧ Instr.wf (.write 0#8 0#8 (List.replicate 255 0#8)) = true := by
  decide +kernel

/-! ## Decoding: words written out from R78 to R86 -/

theorem test_decode_open : decode [0b00000001000000000000000000000000#32] = .ok (.openMap, []) := by decide
theorem test_decode_close : decode [0b00000010000000000000000000000000#32] = .ok (.closeMap, []) := by decide
theorem test_decode_rdw : decode [0b00000011000000000000000000110100#32] = .ok (.rdw 0x34, []) := by decide
theorem test_decode_wrw :
    decode [0b00000100000000000000000000011100#32, 0x00020000#32] = .ok (.wrw 0x1C 0x00020000#32, []) := by decide
theorem test_decode_pcfgo : decode [0b00010000000000000000000000010001#32] = .ok (.pcfgo 17#6, []) := by decide
theorem test_decode_pcfgi : decode [0b00010001000000000000000000110101#32] = .ok (.pcfgi 53#6, []) := by decide
theorem test_decode_pset : decode [0b00010010000000000000000001010001#32] = .ok (.pset 17#6 true, []) := by decide
theorem test_decode_pget : decode [0b00010011000000000000000000100001#32] = .ok (.pget 33#6, []) := by decide
/-- R82: SCL in bits 5 to 0, SDA in bits 11 to 6. -/
theorem test_decode_i2cinit :
    decode [0b00100000000000000000000010000011#32, 0x000186A0#32] = .ok (.i2cinit 3#6 2#6 100000#32, []) := by decide
theorem test_decode_i2cdisp : decode [0b00100001000000000000000000000000#32] = .ok (.i2cdisp, []) := by decide
theorem test_decode_setwm : decode [0b00100010000000000000000000000000#32] = .ok (.setwm, []) := by decide
theorem test_decode_setrm : decode [0b00100011000000000000000000000000#32] = .ok (.setrm, []) := by decide
theorem test_decode_wbit : decode [0b00100100000000000000000000000001#32] = .ok (.wbit true, []) := by decide
theorem test_decode_rbit : decode [0b00100101000000000000000000000000#32] = .ok (.rbit, []) := by decide
theorem test_decode_start : decode [0b00100110000000000000000000000000#32] = .ok (.start, []) := by decide
theorem test_decode_stop : decode [0b00100111000000000000000000000000#32] = .ok (.stop, []) := by decide
theorem test_decode_wbyte : decode [0b00101000000000000000000010100101#32] = .ok (.wbyte 0xA5#8, []) := by decide
/-- R83: the acknowledge flag is bit 8. -/
theorem test_decode_rbyte : decode [0b00101001000000000000000100000000#32] = .ok (.rbyte true, []) := by decide
/-- V23, R79: the first payload byte is in the lowest bits. -/
theorem test_decode_wbytes :
    decode [0x2A000003#32, 0x00030201#32, 0x26000000#32] = .ok (.wbytes [0x01#8, 0x02#8, 0x03#8], [0x26000000#32]) := by decide
/-- V24. -/
theorem test_decode_write : decode [0x2B480102#32, 0x0000A060#32] = .ok (.write 0x48#8 0x01#8 [0x60#8, 0xA0#8], []) := by decide
/-- V28. -/
theorem test_decode_read : decode [0x2C480102#32] = .ok (.read 0x48#8 0x01#8 0x02#8, []) := by decide

/-- V28: the refused words. -/
theorem test_decode_refuses :
    decode [0x00000000#32] = .error (.unlistedOpcode 0x00000000#32) ∧
    decode [0x05000000#32] = .error (.unlistedOpcode 0x05000000#32) ∧
    decode [0xFF000000#32] = .error (.unlistedOpcode 0xFF000000#32) ∧
    decode [0x01000001#32] = .error (.mustBeZero 0x01000001#32) ∧
    decode [0x10000051#32] = .error (.mustBeZero 0x10000051#32) ∧
    decode [0x12000091#32] = .error (.mustBeZero 0x12000091#32) ∧
    decode [0x24000002#32] = .error (.mustBeZero 0x24000002#32) ∧
    decode [0x29000101#32] = .error (.mustBeZero 0x29000101#32) ∧
    decode [0x03001000#32] = .error (.mustBeZero 0x03001000#32) ∧
    decode [0x2B480102#32, 0x0100A060#32] = .error (.padding 0x2B480102#32) := by decide

/-- V23: the empty list has no payload word, and a padding byte that is not 0 is refused. -/
theorem test_decode_payload :
    decode [0x2A000000#32] = .ok (.wbytes [], []) ∧ decode [0x2A000001#32, 0x00000101#32] = .error (.padding 0x2A000001#32) := by
  decide

/-- The words of V11 and V24, encoded. -/
theorem test_encode :
    encode (.i2cinit 3#6 2#6 100000#32) = [0x20000083#32, 0x000186A0#32] ∧
    encode (.write 0x48#8 0x01#8 [0x60#8, 0xA0#8]) = [0x2B480102#32, 0x0000A060#32] ∧
    encode (.pset 17#6 true) = [0x12000051#32] ∧ encode (.rdw 0xFFC) = [0x03000FFC#32] := by decide

/-- opcode_table.json's numbering: operand words above the command word are zeros. -/
theorem test_decodeTableWord :
    decodeTableWord 32 0x04000028 = some (.wrw 0x28 0#32) ∧ decodeTableWord 32 0x2A000005 = some (.wbytes (List.replicate 5 0#8)) ∧
    decodeTableWord 64 0x000186A020000083 = some (.i2cinit 3#6 2#6 100000#32) ∧ decodeTableWord 32 0x05000000 = none := by decide

/-- R88. -/
theorem test_asm :
    Instr.asm (.pset 17#6 true) = "PSET 17, 1" ∧ Instr.asm (.rbyte false) = "RBYTE nack" ∧
    Instr.asm (.write 72#8 1#8 [96#8, 160#8]) = "WRITE 72, 1, [96, 160]" := by decide +kernel

/-! ## The register helpers -/

/-- V1. -/
theorem test_fsel_location :
    (fselOff 17, fselShift 17, fselMask 17) = (0x04, 21, 0x00E00000#32) ∧ (fselOff 9, fselShift 9, fselMask 9) = (0, 27, 0x38000000#32) ∧
    (fselOff 10, fselShift 10, fselMask 10) = (0x04, 0, 7#32) ∧ (fselOff 53, fselShift 53, fselMask 53) = (0x14, 9, 0x00000E00#32) := by
  decide

/-- V2. -/
theorem test_bank_location :
    (setOff Config.defaultParams 53, clrOff Config.defaultParams 53, levOff Config.defaultParams 53, bitMask 53) =
      (0x20, 0x2C, 0x38, 0x00200000#32) ∧
    (setOff Config.defaultParams 31, bitMask 31) = (0x1C, 0x80000000#32) := by decide

/-- V10. -/
theorem test_ticks :
    (halfPeriodTicks 10000000 100000, quarterPeriodTicks 10000000 100000) = (50, 25) ∧
    (halfPeriodTicks 10000000 400000, quarterPeriodTicks 10000000 400000) = (13, 7) ∧
    (halfPeriodTicks 10000000 3, quarterPeriodTicks 10000000 3) = (1666667, 833334) ∧
    (halfPeriodTicks 10000000 30000000, quarterPeriodTicks 10000000 30000000) = (1, 1) := by decide

/-- R73: the address byte, of V21 and V25. -/
theorem test_addrByte : addrByte 0x48#8 false = 0x90#8 ∧ addrByte 0x48#8 true = 0x91#8 ∧ addrByte 0x50#8 false = 0xA0#8 := by decide

/-! ## One step of each command -/

/-- V3, rows 1 to 4. -/
theorem test_open :
    ((after (exec .openMap (platformAnswers ⟨some 0x3F200000, true, true⟩))).map,
      resultOf .openMap (platformAnswers ⟨none, true, true⟩), resultOf .openMap (platformAnswers ⟨some 0, false, true⟩),
      resultOf .openMap (platformAnswers ⟨some 0, true, false⟩)) =
    (⟨true, some 0x3F200000⟩, some (.completed 0 .openMap (.error .platformDetectionFailure)),
      some (.completed 0 .openMap (.error .privilegeFailure)), some (.completed 0 .openMap (.error .mappingFailure))) := by
  decide +kernel

/-- V3: OPEN of an open map. -/
theorem test_open_again : (after (exec .openMap opened)).faults = [.alreadyOpen] := by decide +kernel

/-- V3: CLOSE of an open and of a closed map. -/
theorem test_close :
    (after (exec .closeMap opened)).map = ⟨false, none⟩ ∧
    resultOf .closeMap State.reset = some (.completed 0 .closeMap (.error .registerMapUnavailable)) := by decide +kernel

/-- V3: RDW 0x04 with pin 17 an output. -/
theorem test_rdw :
    seen (.rdw 4) { twoOutputs with pins := List.replicate 17 Pin.initial ++ [outPin true] } =
      [.memRead 0 4 0x00200000#32, .completed 0 (.rdw 4) (.ok (.word 0x00200000#32))] := by decide +kernel

/-- V3: RDW's faults. -/
theorem test_rdw_faults :
    (after (exec (.rdw 5) opened)).faults = [.misalignedOffset 5] ∧
    (after (exec (.rdw 0x1C) opened)).faults = [.unmodelledRegister 0x1C .read] ∧
    (after (exec (.rdw 0xFFC) opened)).faults = [.unmodelledRegister 0xFFC .read] := by decide +kernel

/-- V3: WRW to SET sets one latch, and 0 to CLR none. -/
theorem test_wrw :
    (after (exec (.wrw 0x1C 0x00020000#32) opened)).pins = List.replicate 17 Pin.initial ++ [{ Pin.initial with latch := true }] ++
      List.replicate 36 Pin.initial ∧
    (after (exec (.wrw 0x28 0#32) twoOutputs)).pins = twoOutputs.pins := by decide +kernel

/-- V3: WRW to LEV faults, and WRW to FSEL0 gives pin 3 another function. -/
theorem test_wrw_other :
    (after (exec (.wrw 0x34 0#32) opened)).faults = [.unmodelledRegister 0x34 .write] ∧
    ((after (exec (.wrw 0 0x00000E00#32) opened)).pin 3).fsel = 0b111#3 := by decide +kernel

/-- V4, row 2: the reserved bits drawn 1 are written back. -/
theorem test_pcfgo :
    seen (.pcfgo 17) { opened with
      pins := List.replicate 20 { Pin.initial with fsel := 7#3 }, env := { State.reset.env with reserved := ⟨[0xFFFFFFFF#32], 0⟩ } } =
      [.memRead 0 4 0xFFFFFFFF#32, .memWrite 0 4 0xFF3FFFFF#32, .completed 0 (.pcfgo 17) (.ok .none)] := by decide +kernel

/-- V4, row 5. -/
theorem test_pcfgi :
    seen (.pcfgi 3) idleBus = [.memRead 0 0 0x240#32, .memWrite 0 0 0x40#32, .completed 0 (.pcfgi 3) (.ok .none)] := by decide +kernel

/-- V5: PSET 53, 0 and PSET 54, 1. -/
theorem test_pset :
    seen (.pset 53 false) opened = [.memWrite 0 0x2C 0x00200000#32, .completed 0 (.pset 53 false) (.ok .none)] ∧
    seen (.pset 54 true) opened = [.completed 0 (.pset 54 true) (.error .configurationError)] := by decide +kernel

/-- V5, V6: PGET of an output is its latch, of an input the draw. -/
theorem test_pget :
    resultOf (.pget 17) twoOutputs = some (.completed 0 (.pget 17) (.ok (.bit true))) ∧
    resultOf (.pget 16) (after (exec (.pset 17 true) twoOutputs)) = some (.completed 0 (.pget 16) (.ok (.bit false))) ∧
    resultOf (.pget 17) (answering [0#32] opened) = some (.completed 0 (.pget 17) (.ok (.bit false))) := by decide +kernel

/-- V11. -/
theorem test_i2cinit :
    seen (.i2cinit 3 2 100000) beforeBus =
      [.memWrite 0 0x1C 8#32, .memRead 0 0 0#32, .memWrite 0 0 0x200#32, .memWrite 0 0x1C 4#32, .memRead 0 0 0x200#32,
       .memWrite 0 0 0x240#32, .tick 0 1000, .completed 0 (.i2cinit 3 2 100000) (.ok .none)] ∧
    (after (exec (.i2cinit 3 2 100000) beforeBus)).bus = idleBus.bus ∧
    (after (exec (.i2cinit 3 2 100000) beforeBus)).pins = idleBus.pins := by decide +kernel

/-- V12. -/
theorem test_i2cinit_errors :
    resultOf (.i2cinit 3 3 100000) opened = some (.completed 0 (.i2cinit 3 3 100000) (.error .configurationError)) ∧
    resultOf (.i2cinit 3 2 0) opened = some (.completed 0 (.i2cinit 3 2 0) (.error .configurationError)) ∧
    resultOf (.i2cinit 54 2 100000) opened = some (.completed 0 (.i2cinit 54 2 100000) (.error .configurationError)) ∧
    (after (exec (.i2cinit 3 2 100000) idleBus)).faults = [.alreadyConfigured] := by decide +kernel

/-- V13. -/
theorem test_i2cdisp :
    seen .i2cdisp idleBus =
      [.memRead 0 0 0x240#32, .memWrite 0 0 0x40#32, .memRead 0 0 0x40#32, .memWrite 0 0 0#32, .completed 0 .i2cdisp (.ok .none)] ∧
    (after (exec .i2cdisp idleBus)).bus = Bus.initial := by decide +kernel

/-- A configured bus of four pins whose registers hold none, as overlapping I2CINITs under an I2CDISP leave it, and what its readings
draw. -/
def unsetBus (drawn : List BusRegs) : State :=
  let s := busAt .writing 1000 true true []
  { s with bus := { Bus.initial with cfg := .configured }, env := { s.env with registers := ⟨drawn, 0⟩ } }

/-- R30, R142: an unset register is no stop; each reading of it gives a value of its type, here pins 7 mod 4 and 2. -/
theorem test_unset_i2cdisp :
    seen .i2cdisp (unsetBus [⟨7, 0, .writing, 0, 0, 0⟩, ⟨0, 2, .writing, 0, 0, 0⟩]) =
      [.memRead 0 0 0x240#32, .memWrite 0 0 0x40#32, .memRead 0 0 0x40#32, .memWrite 0 0 0#32, .completed 0 .i2cdisp (.ok .none)] := by
  decide +kernel

/-- R143: the direction drawn decides; a tick count is at least 1, so SCL's wait ends past the drawn stamp. -/
theorem test_unset_bits :
    seen .setwm (unsetBus [⟨0, 0, .writing, 0, 0, 0⟩]) = [.completed 0 .setwm (.ok .none)] ∧
    (seen .stop (unsetBus (List.replicate 9 ⟨3, 2, .writing, 0, 0, 2000⟩))).take 2 = [.tick 0 2001, .memWrite 0 0x28 8#32] := by
  decide +kernel

/-- V16, V17. -/
theorem test_setwm :
    seen .setwm idleBus = [.completed 0 .setwm (.ok .none)] ∧
    seen .setwm (busAt .reading 1100 false true [0#32]) =
      [.memRead 0 0x34 0#32, .memWrite 0 0x1C 4#32, .memRead 0 0 0x200#32, .memWrite 0 0 0x240#32, .completed 0 .setwm (.ok .none)] := by
  decide +kernel

/-- V16, V17. -/
theorem test_setrm :
    seen .setrm (busAt .writing 1000 true true [0#32]) = [.memRead 0 0x34 0xC#32, .completed 0 .setrm (.error .protocolViolation)] ∧
    seen .setrm (busAt .writing 1000 false true [0#32]) =
      [.memRead 0 0x34 4#32, .memRead 0 0 0x240#32, .memWrite 0 0 0x200#32, .completed 0 .setrm (.ok .none)] := by decide +kernel

/-- V14. -/
theorem test_wbit :
    seen (.wbit false) idleBus =
      [.tick 0 1050, .memWrite 0 0x28 8#32, .tick 0 1075, .memWrite 0 0x28 4#32, .tick 0 1100, .memWrite 0 0x1C 8#32,
       .completed 0 (.wbit false) (.ok .none)] ∧
    (after (exec (.wbit false) idleBus)).bus.lastEdge = some 1100 := by decide +kernel

/-- V15: the draw of the second level read is the bit. -/
theorem test_rbit :
    seen .rbit (busAt .writing 1000 true true [0#32, 4#32]) =
      [.tick 0 1050, .memWrite 0 0x28 8#32, .memRead 0 0x34 4#32, .memRead 0 0 0x240#32, .memWrite 0 0 0x200#32, .tick 0 1100,
       .memWrite 0 0x1C 8#32, .tick 0 1125, .memRead 0 0x34 0xC#32, .completed 0 .rbit (.ok (.bit true))] := by decide +kernel

/-- V18, rows 1 and 4. -/
theorem test_start :
    seen .start (busAt .writing 1000 true true [0#32, 0#32]) =
      [.memRead 0 0x34 0xC#32, .memRead 0 0x34 0xC#32, .tick 0 1025, .memWrite 0 0x28 4#32, .completed 0 .start (.ok .none)] ∧
    seen .start (busAt .writing 1000 false true [0#32]) =
      [.memRead 0 0x34 4#32, .completed 0 .start (.error .protocolViolation)] := by decide +kernel

/-- V18, row 2: the repeated START. -/
theorem test_start_repeated :
    seen .start (busAt .reading 1900 true false [4#32, 4#32]) =
      [.memRead 0 0x34 0xC#32, .tick 0 1950, .memWrite 0 0x28 8#32, .memRead 0 0x34 4#32, .memWrite 0 0x1C 4#32, .memRead 0 0 0x200#32,
       .memWrite 0 0 0x240#32, .tick 0 1975, .memWrite 0 0x1C 4#32, .tick 0 2000, .memWrite 0 0x1C 8#32, .tick 0 2025,
       .memWrite 0 0x28 4#32, .completed 0 .start (.ok .none)] := by decide +kernel

/-- V19, rows 2 and 3. -/
theorem test_stop :
    seen .stop idleBus =
      [.tick 0 1050, .memWrite 0 0x28 8#32, .tick 0 1075, .memWrite 0 0x28 4#32, .tick 0 1100, .memWrite 0 0x1C 8#32, .tick 0 1125,
       .memWrite 0 0x1C 4#32, .completed 0 .stop (.ok .none)] ∧
    (after (exec .stop (busAt .writing 1000 false true []))).pins = idleBus.pins := by decide +kernel

/-- V20: 18 stamps of 50 ticks, and the acknowledge is a level of 0. -/
theorem test_wbyte :
    (resultOf (.wbyte 0xA5) (busAt .writing 1000 true false [0#32, 0#32]),
      (after (exec (.wbyte 0xA5) (busAt .writing 1000 true false [0#32, 0#32]))).bus.lastEdge) =
    (some (.completed 0 (.wbyte 0xA5) (.ok (.bool true))), some 1900) := by decide +kernel

/-- No line is drawn high. -/
def drawnLow : Nat → Nat → Level := fun _ _ => false

/-- V20: the pulses of 0xA5, and the acknowledge the slave drives. -/
theorem test_wbyte_pulses :
    pulseBits ((busAt .writing 1000 true false [0#32, 0#32]).traceTo
      (after (exec (.wbyte 0xA5) (busAt .writing 1000 true false [0#32, 0#32]))) (regsAt .writing 1000) drawnLow) =
    [true, false, true, false, false, true, false, true, false] := by decide +kernel

/-- R60, V22: the bits a slave drives are on the trace, and the master's NACK. -/
theorem test_rbyte_pulses :
    pulseBits ((busAt .reading 1900 true false [0#32, 4#32, 4#32, 0#32, 0#32, 0#32, 0#32, 0#32, 0#32]).traceTo
      (after (exec (.rbyte false) (busAt .reading 1900 true false [0#32, 4#32, 4#32, 0#32, 0#32, 0#32, 0#32, 0#32, 0#32])))
      (regsAt .reading 1900) drawnLow) =
    [false, true, true, false, false, false, false, false, true] := by decide +kernel

/-- The STOP conditions of an I2CDISP with SCL 1 and SDA 0 whose released lines are drawn so. -/
def disposalStops (scl sda : Level) : Nat :=
  let s := busAt .writing 1000 true false []
  countChanges isStopCondition
    (s.traceTo (after (exec .i2cdisp s)) (regsAt .writing 1000) fun _ p => if p = 3 then scl else sda)

/-- R142: it is a STOP where pull-ups hold the lines at 1, and none where SDA is held low. -/
theorem test_i2cdisp_stop : disposalStops true true = 1 ∧ disposalStops true false = 0 := by decide +kernel

/-- The events of an RBIT of agent 0 from reading mode, between whose rise of SCL and whose sample agent 1 reads the level word. -/
def eventsOfSample : List Event :=
  [.memWrite 0 0x28 8#32, .memWrite 0 0x1C 8#32, .memRead 1 0x34 8#32, .completed 1 (.pget 2) (.ok (.bit false)), .memRead 0 0x34 12#32,
   .completed 0 .rbit (.ok (.bit true))]

/-- R60: the bit of the pulse is the level the master's read sees, not another agent's. -/
theorem test_masters_read :
    pulseBits (wireTrace ⟨Config.defaultParams, 3, 2, fun _ => false, drawnLow⟩ 0 (busAt .reading 1900 true false []).pins
      eventsOfSample) = [true] := by decide +kernel

/-- V22: 0,1,1,0,0,0,0,0 is 0x60; eight samples, then the check of the ninth pulse. -/
theorem test_rbyte :
    resultOf (.rbyte false) (busAt .reading 1900 true false [0#32, 4#32, 4#32, 0#32, 0#32, 0#32, 0#32, 0#32, 0#32]) =
      some (.completed 0 (.rbyte false) (.ok (.byte 0x60#8))) := by decide +kernel

/-- V23, rows 1 and 4. -/
theorem test_wbytes :
    seen (.wbytes []) idleBus = [.completed 0 (.wbytes []) (.ok (.bool true))] ∧
    resultOf (.wbytes [1, 2, 3]) (busAt .writing 1000 true true [0#32, 4#32]) =
      some (.completed 0 (.wbytes [1, 2, 3]) (.ok (.bool false))) ∧
    (after (exec (.wbytes [1, 2, 3]) (busAt .writing 1000 true true [0#32, 4#32]))).bus.lastEdge = some 1900 := by decide +kernel

/-- V24, row 2: 19 pulses are 38 stamps of 50 ticks. -/
theorem test_write :
    (resultOf (.write 0x48 1 []) (busAt .writing 1000 true true (List.replicate 12 0#32)),
      (after (exec (.write 0x48 1 []) (busAt .writing 1000 true true (List.replicate 12 0#32)))).bus.lastEdge) =
    (some (.completed 0 (.write 0x48 1 []) (.ok (.bool true))), some 2900) := by decide +kernel

/-- V24, rows 5 and 6. -/
theorem test_write_errors :
    resultOf (.write 0x80 0 []) idleBus = some (.completed 0 (.write 0x80 0 []) (.error .configurationError)) ∧
    seen (.write 0x48 1 []) (busAt .writing 1000 false true [0#32]) =
      [.memRead 0 0x34 4#32, .tick 0 1050, .memWrite 0 0x28 8#32, .tick 0 1075, .memWrite 0 0x28 4#32, .tick 0 1100,
       .memWrite 0 0x1C 8#32, .tick 0 1125, .memWrite 0 0x1C 4#32,
       .completed 0 (.write 0x48 1 []) (.error .protocolViolation)] := by decide +kernel

/-- The level words a READ 0x48, 0x01, 1 of 0x60 draws: START's two reads, then two for each byte sent, START's one and the check of its
re-arming, the address byte, the eight samples, the check of the acknowledge's switch. -/
def readDraws : List Word :=
  List.replicate 11 0#32 ++ [0#32, 4#32, 4#32, 0#32, 0#32, 0#32, 0#32, 0#32] ++ List.replicate 4 0#32

/-- V25, row 2: 38 pulses are 76 stamps of 50 ticks. -/
theorem test_read :
    (resultOf (.read 0x48 1 1) (busAt .writing 1000 true true readDraws),
      (after (exec (.read 0x48 1 1) (busAt .writing 1000 true true readDraws))).bus.lastEdge) =
    (some (.completed 0 (.read 0x48 1 1) (.ok (.bytes [0x60#8]))), some 4800) := by decide +kernel

/-- V25, rows 4 and 5. -/
theorem test_read_errors :
    resultOf (.read 0x48 1 0) idleBus = some (.completed 0 (.read 0x48 1 0) (.error .configurationError)) ∧
    resultOf (.read 0xC8 1 2) idleBus = some (.completed 0 (.read 0xC8 1 2) (.error .configurationError)) := by decide +kernel

/-- V27: NotConfigured comes before the map check, the map check before the argument check; another agent's operation faults. -/
theorem test_frame :
    (after (exec .start State.reset)).faults = [.notConfigured] ∧
    resultOf (.write 0x80 0 []) closedBus = some (.completed 0 (.write 0x80 0 []) (.error .registerMapUnavailable)) ∧
    (after (exec .stop ownedBus)).faults = [.concurrentBusUse] := by decide +kernel

/-- The command of a table word is the next step's. -/
theorem test_withFetchWord :
    (after (step (State.reset.withFetchWord 32 0x12000051))).history =
      [.completed 0 (.pset 17 true) (.error .registerMapUnavailable)] := by decide +kernel

/-! ## Several agents -/

/-- Agents 0 and 1 with these operations in flight, and this order of micro-steps. -/
def inFlight (i j : Instr) (order : List AgentId) (s : State) : State :=
  { s with agents := [{ seq := .busy i [], pending := [] }, { seq := .busy j [], pending := [] }], sched := order }

/-- V8: the first micro-step of the lost update is a read, and leaves the operation in flight. -/
theorem test_microStep :
    ((after (step (inFlight (.pcfgo 17) (.pcfgo 18) [0, 1, 0, 1] (answering [] opened)))).agent 0).seq =
      .busy (.pcfgo 17) [.word 0#32] := by decide +kernel

/-- V8: in that order agent 0's change is lost. -/
theorem test_lost_update :
    ((after (Host.Core.run Sys2Proof.core 4 (inFlight (.pcfgo 17) (.pcfgo 18) [0, 1, 0, 1] (answering [] opened)))).pin 17).fsel = 0#3 ∧
    ((after (Host.Core.run Sys2Proof.core 4 (inFlight (.pcfgo 17) (.pcfgo 18) [0, 1, 0, 1] (answering [] opened)))).pin 18).fsel = 1#3 := by
  decide +kernel

/-! ## Witnesses: for each statement, states and operands that meet its hypotheses, each clause at the ends of its range -/

/-- The four kinds of ready bus: writing or reading, SCL high or low. -/
theorem witness_busReady :
    idleBus.busReady (regsAt .writing 1000) ∧ (busAt .writing 1000 false true []).busReady (regsAt .writing 1000) ∧
    (busAt .reading 1900 true false []).busReady (regsAt .reading 1900) ∧
    (busAt .reading 1900 false false []).busReady (regsAt .reading 1900) ∧
    idleBus.busIdle (regsAt .writing 1000) :=
  ⟨by decide +kernel, by decide +kernel, by decide +kernel, by decide +kernel, by decide +kernel⟩

theorem witness_DecodeReadsBackEncode :
    Instr.wf (.rdw 4095) = true ∧ Instr.wf (.rdw 0) = true ∧ Instr.wf (.wbytes []) = true ∧
    Instr.wf (.write 0x48 1 (List.replicate 255 0xFF#8)) = true := by decide +kernel

theorem witness_EncodingIsTheOnlyOne :
    decode [0x2A000001#32, 0x000000FF#32, 1#32] = .ok (.wbytes [0xFF#8], [1#32]) ∧ decode [0x03000FFF#32] = .ok (.rdw 4095, []) := by
  decide

/-- The three clauses; in the third, padding byte 1 of 4, and byte 3 of the last payload word. -/
theorem witness_IllegalEncodingsAreRejected :
    (∀ o ∈ Op.all, o.code ≠ opcodeOf 0x05000000#32) ∧
    (Op.pset ∈ Op.all ∧ Op.pset.code = opcodeOf 0x12000091#32 ∧ 0x12000091#32 &&& Op.pset.mustBeZero ≠ 0#32) ∧
    (Op.wbytes.code = opcodeOf 0x2A000001#32 ∧ 0x2A000001#32 &&& Op.wbytes.mustBeZero = 0#32 ∧
      payloadWords ((0x2A000001#32).extractLsb' 0 8).toNat ≤ [0x00000101#32].length ∧
      ∃ j, ((0x2A000001#32).extractLsb' 0 8).toNat ≤ j ∧ j < 4 * payloadWords ((0x2A000001#32).extractLsb' 0 8).toNat ∧
        ([0x00000101#32].getD (j / 4) 0#32).extractLsb' (8 * (j % 4)) 8 ≠ 0#8) ∧
    (Op.write.code = opcodeOf 0x2B480103#32 ∧ 0x2B480103#32 &&& Op.write.mustBeZero = 0#32 ∧
      ∃ j, ((0x2B480103#32).extractLsb' 0 8).toNat ≤ j ∧ j < 4 * payloadWords ((0x2B480103#32).extractLsb' 0 8).toNat ∧
        ([0x01000000#32].getD (j / 4) 0#32).extractLsb' (8 * (j % 4)) 8 ≠ 0#8) := by
  refine ⟨by decide, by decide, ⟨by decide, by decide, by decide, 1, by decide⟩, ⟨by decide, by decide, 3, by decide⟩⟩

theorem witness_FirstWordGivesLength :
    decode (0x2A000005#32 :: [0x04030201#32, 5#32, 6#32]) = .ok (.wbytes [1, 2, 3, 4, 5], [6#32]) := by decide

/-- The reset state with the words of PSET 17, 1, and a refused word of each kind, issued. -/
def issuing (ws : List Word) : State := State.reset.setPending 0 ws

theorem witness_StepRunsTheDecodedCommand :
    (issuing [0x12000051#32]).faults = [] ∧ (issuing [0x12000051#32]).sched = [] ∧
    ((issuing [0x12000051#32]).agent (issuing [0x12000051#32]).turn).seq = .idle ∧
    decode ((issuing [0x12000051#32]).agent (issuing [0x12000051#32]).turn).pending = .ok (.pset 17 true, []) := by decide +kernel

theorem witness_StepFollowsTheLaidDownOrder :
    ({ State.reset with sched := [3] } : State).faults = [] ∧ ({ State.reset with sched := [3] } : State).sched = 3 :: [] := by
  decide +kernel

theorem witness_RefusedCommandOnlySetsTheMark :
    (∀ w ∈ [0x05000000#32, 0x12000091#32, 0x2A000001#32], (issuing [w, 0x101#32]).faults = [] ∧ (issuing [w, 0x101#32]).sched = [] ∧
      ((issuing [w, 0x101#32]).agent (issuing [w, 0x101#32]).turn).seq = .idle ∧
      ((issuing [w, 0x101#32]).agent (issuing [w, 0x101#32]).turn).pending = [w, 0x101#32]) ∧
    (∀ o ∈ Op.all, o.code ≠ opcodeOf 0x05000000#32) ∧
    (∃ o ∈ Op.all, o.code = opcodeOf 0x12000091#32 ∧ 0x12000091#32 &&& o.mustBeZero ≠ 0#32) ∧
    decode [0x2A000001#32, 0x101#32] = .error (.padding 0x2A000001#32) :=
  ⟨fun _ _ => ⟨rfl, rfl, rfl, rfl⟩, by decide, by decide, by decide⟩

theorem witness_RefusedWordsAreTaken :
    ((issuing [0x2A000001#32, 0x101#32]).agent 0).seq = .idle ∧
    ((issuing [0x2A000001#32, 0x101#32]).agent 0).pending = 0x2A000001#32 :: [0x101#32] ∧
    decode [0x2A000001#32, 0x101#32] = .error (.padding 0x2A000001#32) ∧ 0 = (issuing [0x2A000001#32, 0x101#32]).turn :=
  ⟨rfl, rfl, by decide, rfl⟩

/-- The second clause's. -/
theorem witness_RefusedCommandOnlySetsTheMark_later :
    State.reset.refuse.refused = true ∧ step State.reset.refuse = .next (after (step State.reset.refuse)) :=
  ⟨rfl, eq_next_after _ (by decide +kernel)⟩

theorem witness_FaultsAndHistoryOnlyGrow :
    (after (exec .openMap opened)).faults = .alreadyOpen :: [] ∧ step (issuing [0x12000051#32]) = .next (after (step (issuing [0x12000051#32]))) :=
  ⟨by decide +kernel, eq_next_after _ (by decide +kernel)⟩

theorem witness_CommandsLeaveAgentsAndParametersAlone : exec .start idleBus = .next (after (exec .start idleBus)) := exec_next _ _

/-- The first micro-step of PCFGO leaves it in flight. -/
theorem witness_MicroStepAdvancesPosition :
    let s := inFlight (.pcfgo 17) (.pcfgo 18) [] (answering [] opened)
    (s.agent 0).seq = .busy (.pcfgo 17) [] ∧ agentStep 0 s = .next (after (agentStep 0 s)) ∧
    (after (agentStep 0 s)).faults = s.faults ∧ ((after (agentStep 0 s)).agent 0).seq = .busy (.pcfgo 17) [.word 0#32] :=
  ⟨rfl, eq_next_after _ (by decide +kernel), by decide +kernel, by decide +kernel⟩

/-- The last micro-step of WBIT, the sixth, ends it. -/
theorem witness_CompletionLeavesAgentIdleAndBusFree :
    let s := after (agentSteps 0 5 (begin 0 (.wbit false) idleBus))
    s.bus.owner = some 0 ∧ agentStep 0 s = .next (after (agentStep 0 s)) ∧
    (newEvents s (after (agentStep 0 s))).getLast? = some (.completed 0 (.wbit false) (.ok .none)) :=
  ⟨by decide +kernel, eq_next_after _ (by decide +kernel), by decide +kernel⟩

theorem witness_MicroStepsAloneAreTheCommand :
    (idleBus.agent idleBus.turn).seq = .idle ∧ exec (.wbit false) idleBus = .next (after (exec (.wbit false) idleBus)) ∧
    (after (exec (.wbit false) idleBus)).faults = idleBus.faults :=
  ⟨rfl, exec_next _ _, by decide +kernel⟩

/-- A counter read in a step from a sound state. -/
theorem witness_CounterNeverRunsBack :
    let s := { inFlight (.wbit false) .stop [0] idleBus with history := [.tick 0 999, .tick 1 1000] }
    s.clockSound ∧ step s = .next (after (step s)) :=
  ⟨⟨by decide +kernel, by decide +kernel⟩, eq_next_after _ (by decide +kernel)⟩

theorem witness_BusRegistersStaySound : State.reset.busSound ∧ step State.reset = .next (after (step State.reset)) := by
  refine ⟨⟨by decide, ?_, ?_, ?_, ?_, ?_⟩, eq_next_after _ (by decide +kernel)⟩
  · intro p h; cases h
  · intro p h; cases h
  · intro p q h; cases h
  · intro h q e; cases e
  · intro a scl sda freq l h
    simp [State.agent, State.reset, HostAgent.none] at h

theorem witness_AttributesAreNeverRead :
    let s := { beforeBus with agents := [{ seq := .busy (.pget 3) [], pending := [] }], sched := [0] }
    let s' := { s with pins := List.replicate 4 { Pin.initial with dir := some .output, last := some true } }
    s' ≠ s ∧ s'.withoutAttributes = s.withoutAttributes ∧ step s = .next (after (step s)) :=
  ⟨by decide +kernel, by decide +kernel, eq_next_after _ (by decide +kernel)⟩

/-- The clauses: a pin command, and a bus command. -/
theorem witness_RegistersAreWrittenOnlyByTheirOperations :
    (exec (.pset 3 true) idleBus = .next (after (exec (.pset 3 true) idleBus)) ∧ isBusCommand (.pset 3 true) = false) ∧
    exec .start idleBus = .next (after (exec .start idleBus)) ∧ isBusCommand .start = true ∧ Instr.start ≠ .i2cdisp :=
  ⟨⟨exec_next _ _, by decide⟩, exec_next _ _, by decide, by decide⟩

/-- The four clauses, one for each outcome of the stages. -/
theorem witness_OpenRunsItsStages :
    State.reset.map.isOpen = false ∧ (platformAnswers ⟨none, true, true⟩).nextPlatform.detected = none ∧
    (platformAnswers ⟨some 0, false, true⟩).nextPlatform = ⟨some 0, false, true⟩ ∧
    (platformAnswers ⟨some 0, true, false⟩).nextPlatform = ⟨some 0, true, false⟩ ∧
    (platformAnswers ⟨some 0x3F200000, true, true⟩).nextPlatform = ⟨some 0x3F200000, true, true⟩ := by decide +kernel

theorem witness_CloseUnmapsTheWindow : opened.map.isOpen = true := rfl

/-- A command of the window, a bus command and I2CINIT. -/
theorem witness_ClosedMapIsUnavailable :
    Instr.closeMap ≠ .openMap ∧ State.reset.map.isOpen = false ∧ State.reset.busAdmits .closeMap ∧
    closedBus.map.isOpen = false ∧ closedBus.busAdmits .stop ∧ State.reset.busAdmits (.i2cinit 3 2 100000) := by
  exact ⟨by decide, rfl, ⟨by decide, fun _ _ _ h => by cases h⟩, rfl, ⟨fun _ => ⟨rfl, rfl⟩, fun _ _ _ h => by cases h⟩,
    ⟨by decide, fun _ _ _ _ => rfl⟩⟩

/-- Word 5 of 54 pins: pin 53 is its last, field 4 and bit 30 are reserved. -/
theorem witness_RdwReadsFunctionSelect :
    opened.map.isOpen = true ∧ 5 < ceilDiv opened.numPins 10 ∧ 4 * 5 < 4096 ∧ (53 < opened.numPins ∧ 53 / 10 = 5) ∧
    (opened.numPins ≤ 10 * 5 + 12 / 3) ∧ 0 < ceilDiv opened.numPins 10 := by decide +kernel

/-- Word 1 of 54 pins: bit 21 is pin 53, bit 22 is reserved. -/
theorem witness_RdwReadsLevels :
    opened.paramsOk ∧ opened.map.isOpen = true ∧ 1 < ceilDiv opened.numPins 32 ∧ 32 * 1 + 21 < opened.numPins ∧
    ¬ 32 * 1 + 22 < opened.numPins ∧ (twoOutputs.pin 17).fsel = twoOutputs.params.fnOutput := by decide +kernel

theorem witness_WrwWritesFunctionSelect :
    opened.map.isOpen = true ∧ 5 < ceilDiv opened.numPins 10 ∧ 4 * 5 < 4096 ∧ 53 < opened.numPins ∧ 53 / 10 = 5 ∧ 49 / 10 ≠ 5 := by
  decide +kernel

theorem witness_WrwSetsAndClearsLatches :
    opened.paramsOk ∧ opened.map.isOpen = true ∧ 1 < ceilDiv opened.numPins 32 ∧ 53 < opened.numPins ∧ 53 / 32 = 1 ∧
    (0x00200000#32).getLsbD (53 % 32) = true := by decide +kernel

/-- SET word 0 and the last offset for a read; LEV word 0 and the offset after the function-select words for a write. -/
theorem witness_UnmodelledOffsetsFault :
    opened.map.isOpen = true ∧
    (∀ off ∈ [0x1C, 0x28, 0x18, 0xFFC], off % 4 = 0 ∧ off < 4096 ∧ (∀ w, w < ceilDiv opened.numPins 10 → off ≠ 4 * w) ∧
      (∀ w, w < ceilDiv opened.numPins 32 → off ≠ opened.params.levOff + 4 * w)) ∧
    (∀ off ∈ [0x34, 0x18, 0x24, 0xFFC], off % 4 = 0 ∧ off < 4096 ∧ (∀ w, w < ceilDiv opened.numPins 10 → off ≠ 4 * w) ∧
      (∀ w, w < ceilDiv opened.numPins 32 → off ≠ opened.params.setOff + 4 * w ∧ off ≠ opened.params.clrOff + 4 * w)) := by
  decide +kernel

theorem witness_BadOffsetsFault : opened.map.isOpen = true ∧ 5 % 4 ≠ 0 ∧ 4097 % 4 ≠ 0 ∧ 4096 % 4 = 0 ∧ 4096 ≤ 4096 := by
  decide +kernel

theorem witness_DirectionCommandsRewriteOneField :
    opened.map.isOpen = true ∧ (53#6).toNat < opened.numPins ∧ (0#6).toNat < opened.numPins := by decide +kernel

theorem witness_PsetDrivesOneLatch :
    opened.paramsOk ∧ opened.map.isOpen = true ∧ (53#6).toNat < opened.numPins ∧ (0#6).toNat < opened.numPins := by decide +kernel

theorem witness_PgetReadsTheLevel :
    twoOutputs.paramsOk ∧ twoOutputs.map.isOpen = true ∧ (17#6).toNat < twoOutputs.numPins ∧
    (twoOutputs.pin 17).fsel = twoOutputs.params.fnOutput ∧ (twoOutputs.pin 0).fsel ≠ twoOutputs.params.fnOutput := by decide +kernel

/-- Pin 16 against pin 17, an output, and against pin 0, an input. -/
theorem witness_PinsAreIndependent :
    (twoOutputs.paramsOk ∧ twoOutputs.map.isOpen = true ∧ (16#6).toNat < twoOutputs.numPins ∧ (17#6).toNat < twoOutputs.numPins ∧
      (16#6) ≠ 17#6 ∧ (16#6) ≠ 0#6 ∧ (twoOutputs.pin 17).fsel = twoOutputs.params.fnOutput ∧
      (twoOutputs.pin 0).fsel ≠ twoOutputs.params.fnOutput) ∧
    exec (.pset 16 true) twoOutputs = .next (after (exec (.pset 16 true) twoOutputs)) ∧
    exec (.pget 17) (after (exec (.pset 16 true) twoOutputs)) =
      .next (after (exec (.pget 17) (after (exec (.pset 16 true) twoOutputs)))) ∧
    exec (.pget 17) twoOutputs = .next (after (exec (.pget 17) twoOutputs)) :=
  ⟨by decide +kernel, exec_next _ _, exec_next _ _, exec_next _ _⟩

theorem witness_ConcurrentPsetsCommute :
    let s := inFlight (.pset 16 true) (.pset 17 true) [] opened
    s.paramsOk ∧ s.map.isOpen = true ∧ s.faults = [] ∧ (16#6) ≠ 17#6 ∧ (16#6).toNat < s.numPins ∧ (17#6).toNat < s.numPins ∧
    (s.agent 0).seq = .busy (.pset 16 true) [] ∧ (s.agent 1).seq = .busy (.pset 17 true) [] := by decide +kernel

theorem witness_DirectionChangeCanBeLost :
    let s := inFlight (.pcfgo 17) (.pcfgo 18) [] opened
    s.map.isOpen = true ∧ s.faults = [] ∧ (17#6) ≠ 18#6 ∧ (17#6).toNat / 10 = (18#6).toNat / 10 ∧ (17#6).toNat < s.numPins ∧
    (18#6).toNat < s.numPins ∧ (s.agent 0).seq = .busy (.pcfgo 17) [] ∧ (s.agent 1).seq = .busy (.pcfgo 18) [] := by decide +kernel

/-- Each kind of argument R200 lists, at its first bad value. -/
theorem witness_BadArgumentsChangeNothing :
    (badArguments opened.numPins (.pset 54 true) ∧ badArguments opened.numPins (.i2cinit 54 2 1) ∧
      badArguments opened.numPins (.i2cinit 3 54 1) ∧ badArguments opened.numPins (.i2cinit 3 3 1) ∧
      badArguments opened.numPins (.i2cinit 3 2 0) ∧ badArguments 4 (.write 128 0 []) ∧ badArguments 4 (.read 128 0 1) ∧
      badArguments 4 (.read 0 0 0) ∧ ¬ badArguments 54 (.pset 53 true)) ∧
    opened.map.isOpen = true ∧ opened.busAdmits (.pset 54 true) ∧ opened.busAdmits (.i2cinit 3 3 1) ∧
    idleBus.map.isOpen = true ∧ idleBus.busAdmits (.write 128 0 []) := by
  exact ⟨by decide +kernel, rfl, ⟨by decide, fun _ _ _ h => by cases h⟩, ⟨by decide, fun _ _ _ _ => rfl⟩, rfl,
    ⟨fun _ => ⟨rfl, rfl⟩, fun _ _ _ h => by cases h⟩⟩

theorem witness_FirstChecksFault :
    opened.map.isOpen = true ∧ idleBus.bus.cfg = .configured ∧ isBusCommand .start = true ∧ opened.bus.cfg = .unconfigured ∧
    ownedBus.bus.cfg = .configured ∧ ownedBus.bus.owner = some 7 := by decide +kernel

theorem witness_TickCountsAreExactCeilings : 0 < 1 ∧ 0 < 4294967295 ∧ 10000000 ≤ 50 * (2 * 100000) := by decide

/-- Pins 0 and 3 of four, and the least frequency. -/
theorem witness_I2cinitCreatesTheBus :
    beforeBus.paramsOk ∧ beforeBus.map.isOpen = true ∧ beforeBus.bus.cfg = .unconfigured ∧ (3#6).toNat < beforeBus.numPins ∧
    (0#6).toNat < beforeBus.numPins ∧ (3#6) ≠ 0#6 ∧ 1#32 ≠ 0#32 := by decide +kernel

theorem witness_I2cdispReleasesThePins : idleBus.busReady (regsAt .writing 1000) := by decide +kernel

/-- A bus in the middle of a transaction. -/
theorem witness_DisposalWithPullUpsShowsAStop :
    let s := busAt .writing 1000 true false []
    s.busReady (regsAt .writing 1000) ∧ (s.pin 3).latch = true ∧ (s.pin 2).latch = false := by decide +kernel

/-- The three clauses. -/
theorem witness_SetwmSwitchesOnlyWhileSclLow :
    idleBus.busReady (regsAt .writing 1000) ∧
    ((busAt .reading 1900 false false []).busReady (regsAt .reading 1900) ∧ ((busAt .reading 1900 false false []).pin 3).latch = false) ∧
    ((busAt .reading 1900 true false []).busReady (regsAt .reading 1900) ∧ ((busAt .reading 1900 true false []).pin 3).latch = true) :=
  ⟨by decide +kernel, by decide +kernel, by decide +kernel⟩

/-- The three clauses. -/
theorem witness_SetrmSwitchesOnlyWhileSclLow :
    (busAt .reading 1900 true false []).busReady (regsAt .reading 1900) ∧
    ((busAt .writing 1000 false true []).busReady (regsAt .writing 1000) ∧ ((busAt .writing 1000 false true []).pin 3).latch = false) ∧
    (idleBus.busReady (regsAt .writing 1000) ∧ (idleBus.pin 3).latch = true) :=
  ⟨by decide +kernel, by decide +kernel, by decide +kernel⟩

/-- Both directions, for the statements on bits, bytes and STOP. -/
theorem witness_WbitSendsOneBit :
    idleBus.busReady (regsAt .writing 1000) ∧ (busAt .reading 1900 true false []).busReady (regsAt .reading 1900) := by decide +kernel

theorem witness_RbitReceivesOneBit :
    idleBus.busReady (regsAt .writing 1000) ∧ (busAt .reading 1900 true false []).busReady (regsAt .reading 1900) := by decide +kernel

/-- Idle; writing with SDA low; reading. -/
theorem witness_StartMakesOneStartCondition :
    (idleBus.busReady (regsAt .writing 1000) ∧ (idleBus.pin 3).latch = true ∧ (idleBus.pin 2).latch = true) ∧
    ((busAt .writing 1900 true false []).busReady (regsAt .writing 1900) ∧ ((busAt .writing 1900 true false []).pin 3).latch = true ∧
      ((busAt .writing 1900 true false []).pin 2).latch = false) ∧
    ((busAt .reading 1900 true false []).busReady (regsAt .reading 1900) ∧ ((busAt .reading 1900 true false []).pin 3).latch = true) :=
  ⟨by decide +kernel, by decide +kernel, by decide +kernel⟩

/-- SCL driven low, and SCL an input that the environment holds low. -/
theorem witness_StartWithSclLowFails :
    let s := busAt .writing 1000 false true [0#32]
    let x := (after (exec (.pcfgi 3) (busAt .writing 1000 true true [0#32])))
    (s.paramsOk ∧ s.map.isOpen = true ∧ s.bus.cfg = .configured ∧ s.bus.owner = none ∧ s.bus.regs = some (regsAt .writing 1000) ∧
      3 < s.numPins ∧ lineLevel s.params (s.pin 3) (s.nextLevels.getLsbD (3 % 32)) = false) ∧
    (x.paramsOk ∧ x.map.isOpen = true ∧ x.bus.regs = some (regsAt .writing 1000) ∧
      lineLevel x.params (x.pin 3) (x.nextLevels.getLsbD (3 % 32)) = false) := by decide +kernel

theorem witness_StopEndsIdleWithOneStopCondition :
    (busAt .reading 1900 true false []).busReady (regsAt .reading 1900) ∧
    (busAt .writing 1000 false true []).busReady (regsAt .writing 1000) := by decide +kernel

theorem witness_WbyteSendsMostSignificantFirst :
    (busAt .writing 1000 true false []).busReady (regsAt .writing 1000) ∧
    (busAt .reading 1900 true true []).busReady (regsAt .reading 1900) := by decide +kernel

theorem witness_RbyteReceivesMostSignificantFirst :
    (busAt .writing 1000 true false []).busReady (regsAt .writing 1000) ∧
    (busAt .reading 1900 true true []).busReady (regsAt .reading 1900) := by decide +kernel

theorem witness_WbytesStopsAtTheFirstNack :
    (busAt .writing 1000 true false []).busReady (regsAt .writing 1000) ∧ idleBus.busReady (regsAt .writing 1000) ∧
    (busAt .reading 1900 true true []).busReady (regsAt .reading 1900) :=
  ⟨by decide +kernel, by decide +kernel, by decide +kernel⟩

/-- SCL high and SCL low; the largest address. -/
theorem witness_WriteAlwaysStopsOnce :
    (idleBus.busReady (regsAt .writing 1000) ∧ (idleBus.pin 3).latch = true) ∧
    ((busAt .writing 1000 false true []).busReady (regsAt .writing 1000) ∧ ((busAt .writing 1000 false true []).pin 3).latch = false) ∧
    (127#8).toNat < 128 :=
  ⟨by decide +kernel, by decide +kernel, by decide +kernel⟩

theorem witness_ReadAlwaysStopsOnce :
    (idleBus.busReady (regsAt .writing 1000) ∧ (idleBus.pin 3).latch = true) ∧
    ((busAt .writing 1000 false true []).busReady (regsAt .writing 1000) ∧ ((busAt .writing 1000 false true []).pin 3).latch = false) ∧
    (127#8).toNat < 128 ∧ 1#8 ≠ 0#8 ∧ 255#8 ≠ 0#8 :=
  ⟨by decide +kernel, by decide +kernel, by decide +kernel⟩

theorem witness_WriteTransactionOnTheWire : idleBus.busIdle (regsAt .writing 1000) ∧ (127#8).toNat < 128 := by decide +kernel

/-- The level words of a WRITE of one byte, every byte acknowledged. -/
def writeDraws : List Word := List.replicate 12 0#32

/-- The state after the WRITE 0x48, 0x01, [0x60] that the round trip begins with. -/
def written : State := after (exec (.write 0x48 1 [0x60]) (busAt .writing 1000 true true writeDraws))

/-- A WRITE of 0x60, and an environment that answers the READ as the slave does. -/
theorem witness_RoundTripLaw :
    let s := busAt .writing 1000 true true writeDraws
    let env := (answering readDraws idleBus).env
    exec (.write 0x48 1 [0x60]) s = .next written ∧
    (s.busIdle (regsAt .writing 1000) ∧ (0x48#8).toNat < 128 ∧ 0 < [0x60#8].length ∧ [0x60#8].length < 256 ∧
      written.history.getLast? = some (.completed s.turn (.write 0x48 1 [0x60]) (.ok (.bool true))) ∧
      State.sdaDraw { written with env := env } (regsAt .writing 1000) 3 = false ∧
      State.sdaDraw { written with env := env } (regsAt .writing 1000) 6 = false ∧
      State.sdaDraw { written with env := env } (regsAt .writing 1000) 10 = false ∧
      ∀ j, j < [0x60#8].length → State.byteDrawn { written with env := env } (regsAt .writing 1000) (11 + 10 * j) =
        ((bytesOnWire (pulseBits (s.traceTo written (regsAt .writing 1000) drawnLow))).drop 2).getD j 0#8) :=
  ⟨exec_next _ _, by decide +kernel⟩

theorem witness_ReadReturnsTheBytesTheSlaveDrives :
    let s := busAt .writing 1000 true true readDraws
    s.busIdle (regsAt .writing 1000) ∧ (0x48#8).toNat < 128 ∧ 0 < [0x60#8].length ∧ [0x60#8].length < 256 ∧
    s.sdaDraw (regsAt .writing 1000) 3 = false ∧ s.sdaDraw (regsAt .writing 1000) 6 = false ∧
    s.sdaDraw (regsAt .writing 1000) 10 = false ∧
    ∀ j, j < [0x60#8].length → s.byteDrawn (regsAt .writing 1000) (11 + 10 * j) = [0x60#8].getD j 0#8 := by decide +kernel

/-- The address byte, the register byte and the second address byte not acknowledged. -/
theorem witness_ReadNackGivesTheEmptyList :
    ∀ k ∈ [3, 6, 10], let s := busAt .writing 1000 true true (List.replicate k 0#32 ++ [4#32])
      s.busIdle (regsAt .writing 1000) ∧ (0x50#8).toNat < 128 ∧ 4#8 ≠ 0#8 ∧ s.sdaDraw (regsAt .writing 1000) k = true := by
  decide +kernel

/-- A command that can raise ProtocolViolation and one that cannot. -/
theorem witness_BusCommandsKeepTheBusReady :
    isBusCommand .start = true ∧ Instr.start ≠ .i2cdisp ∧ (busAt .writing 1000 false true []).busReady (regsAt .writing 1000) ∧
    ¬ badArguments (busAt .writing 1000 false true []).numPins .start ∧ isBusCommand (.read 127 0 255) = true ∧
    ¬ badArguments 4 (.read 127 0 255) := by decide +kernel

theorem witness_SclIsHighBetweenOperations :
    (isBusCommand .rbit = true ∧ Instr.rbit ≠ .i2cdisp ∧ idleBus.busReady (regsAt .writing 1000) ∧ (idleBus.pin 3).latch = true) ∧
    exec .rbit idleBus = .next (after (exec .rbit idleBus)) :=
  ⟨by decide +kernel, exec_next _ _⟩

/-- A bit, a byte and a WRITE all acknowledged. -/
theorem witness_OperationsTakeTheirLeastTime :
    let s := busAt .writing 1000 true true writeDraws
    (s.busReady (regsAt .writing 1000) ∧ (after (exec (.wbit true) s)).bus.lastEdge = some 1100 ∧
      (after (exec (.wbyte 0xFF) s)).bus.lastEdge = some 1900 ∧ written.bus.lastEdge = some 3800 ∧
      written.history.getLast? = some (.completed s.turn (.write 0x48 1 [0x60]) (.ok (.bool true)))) ∧
    exec (.write 0x48 1 [0x60]) s = .next written :=
  ⟨by decide +kernel, exec_next _ _⟩

/-- The READ clause's: V25, row 2. -/
theorem witness_OperationsTakeTheirLeastTime_read :
    let s := busAt .writing 1000 true true readDraws
    (s.busReady (regsAt .writing 1000) ∧
      (after (exec (.read 0x48 1 1) s)).history.getLast? = some (.completed s.turn (.read 0x48 1 1) (.ok (.bytes [0x60#8]))) ∧
      (after (exec (.read 0x48 1 1) s)).bus.lastEdge = some 4800) ∧
    exec (.read 0x48 1 1) s = .next (after (exec (.read 0x48 1 1) s)) :=
  ⟨by decide +kernel, exec_next _ _⟩

end Sys2Proof.Machine.Test
end

section
/-! SUPPORT. The unmodelled offsets of the window (spec/40_register_map.md R104): where the registers of the map stand, the accesses that
fault, and what RDW and WRW do with a fault of their one access. -/

namespace Sys2Proof.Machine

/-! ## Where the registers stand -/

/-- The register is a word of its array for `n` pins, and the word is at offset `off` (R25, R26, R54). -/
def WindowReg.StandsAt (P : Params) (n off : Nat) : WindowReg → Prop
  | .fsel w => w < ceilDiv n fselPerWord ∧ off = 4 * w
  | .set w => w < ceilDiv n pinsPerBank ∧ off = P.setOff + 4 * w
  | .clr w => w < ceilDiv n pinsPerBank ∧ off = P.clrOff + 4 * w
  | .lev w => w < ceilDiv n pinsPerBank ∧ off = P.levOff + 4 * w

/-- The converse of `wordIn_some`. -/
theorem lt_and_eq_of_wordIn {base words off w : Nat} (h : wordIn base words off = some w) : w < words ∧ off = base + 4 * w := by
  unfold wordIn at h
  split at h
  case isTrue hin =>
    cases h
    exact ⟨hin.2.2, by omega⟩
  case isFalse => cases h

/-- The address map gives no register but the one that stands at the offset, whatever the parameters. -/
theorem standsAt_of_windowReg {P : Params} {n off : Nat} {r : WindowReg} (h : windowReg P n off = some r) : r.StandsAt P n off := by
  unfold windowReg at h
  split at h
  case h_1 w hw =>
    cases h
    simpa [WindowReg.StandsAt] using lt_and_eq_of_wordIn hw
  case h_2 =>
    split at h
    case h_1 w hw => cases h; exact lt_and_eq_of_wordIn hw
    case h_2 =>
      split at h
      case h_1 w hw => cases h; exact lt_and_eq_of_wordIn hw
      case h_2 =>
        split at h
        case h_1 w hw => cases h; exact lt_and_eq_of_wordIn hw
        case h_2 => cases h

/-! ## The accesses that fault -/

/-- A read faults at an offset where neither a function-select nor a level word stands (R104). -/
theorem memRead_unmodelled {a : AgentId} {off : Nat} {s : State} (ho : s.map.isOpen = true)
    (hf : ∀ w, ¬ (WindowReg.fsel w).StandsAt s.params s.numPins off)
    (hl : ∀ w, ¬ (WindowReg.lev w).StandsAt s.params s.numPins off) :
    memRead a off s = .error (.unmodelledRegister off .read) := by
  rw [memRead, if_pos ho]
  rcases hr : windowReg s.params s.numPins off with _ | ⟨w | w | w | w⟩
  case some.fsel => exact absurd (standsAt_of_windowReg hr) (hf w)
  case some.lev => exact absurd (standsAt_of_windowReg hr) (hl w)
  all_goals rfl

/-- A write faults at an offset where no function-select, SET or CLR word stands (R104). -/
theorem memWrite_unmodelled {a : AgentId} {off : Nat} {v : Word} {s : State} (ho : s.map.isOpen = true)
    (hf : ∀ w, ¬ (WindowReg.fsel w).StandsAt s.params s.numPins off)
    (hs : ∀ w, ¬ (WindowReg.set w).StandsAt s.params s.numPins off)
    (hc : ∀ w, ¬ (WindowReg.clr w).StandsAt s.params s.numPins off) :
    memWrite a off v s = .error (.unmodelledRegister off .write) := by
  have hp : writePins s.params off v s.pins = none := by
    unfold writePins
    rcases hr : windowReg s.params s.pins.length off with _ | ⟨w | w | w | w⟩
    case some.fsel => exact absurd (standsAt_of_windowReg hr) (hf w)
    case some.set => exact absurd (standsAt_of_windowReg hr) (hs w)
    case some.clr => exact absurd (standsAt_of_windowReg hr) (hc w)
    all_goals rfl
  rw [memWrite, if_pos ho, hp]

/-! ## RDW and WRW -/

/-- A command that holds no bus, past its checks, ends with the fault of its body marked (R210). -/
theorem commandResult_of_body_faulted {i : Instr} {c : Command} {s t : State} {f : Fault} (hchecks : firstStop (c.checks s) = none)
    (hown : c.ownsBus = false) (hbody : (c.body s.params).run s.turn s = .faulted f t) : commandResult i c s = t.markFault f := by
  have henter : c.enter s.turn s = s := by simp [Command.enter, hown]
  simp only [commandResult, hchecks, henter, hbody]

section
variable {s : State} {off : Nat} (ho : s.map.isOpen = true) (ha : off % 4 = 0) (hw : off < 4096)
include ho ha hw

/-- With the map open, an aligned offset inside the window passes the checks of RDW and WRW. -/
theorem firstStop_offsetChecks_none : firstStop (offsetChecks off s) = none := by
  have hin : ¬ Config.windowSize ≤ off := Nat.not_le.2 hw
  simp [firstStop, offsetChecks, mapCheck, ho, ha, hin]

/-- Past its checks, RDW ends in the fault its read ends in. -/
theorem exec_rdw_of_memRead_error {f : Fault} (h : memRead s.turn off s = .error f) : exec (.rdw off) s = .next (s.markFault f) := by
  have hbody : ((rdwCommand off).body s.params).run s.turn s = .faulted f s := by simp only [rdwCommand, Prog.run, h]
  rw [exec_eq, commandOf, commandResult_of_body_faulted (firstStop_offsetChecks_none ho ha hw) rfl hbody]

/-- Past its checks, WRW ends in the fault its write ends in. -/
theorem exec_wrw_of_memWrite_error {v : Word} {f : Fault} (h : memWrite s.turn off v s = .error f) :
    exec (.wrw off v) s = .next (s.markFault f) := by
  have hbody : ((wrwCommand off v).body s.params).run s.turn s = .faulted f s := by simp only [wrwCommand, Prog.run, h]
  rw [exec_eq, commandOf, commandResult_of_body_faulted (firstStop_offsetChecks_none ho ha hw) rfl hbody]

end

/-- Settles O28: the address map gives the registers at their own offsets alone, so at any other offset the one access of RDW or WRW
faults, and the command marks that fault. -/
theorem unmodelledOffsetsFault : Obligations.UnmodelledOffsetsFault := by
  unfold Obligations.UnmodelledOffsetsFault
  intro s off ho ha hw
  constructor
  · intro hf hl
    exact exec_rdw_of_memRead_error ho ha hw
      (memRead_unmodelled ho (fun w h => hf w h.1 h.2) (fun w h => hl w h.1 h.2))
  · intro v hf hsc
    exact exec_wrw_of_memWrite_error ho ha hw
      (memWrite_unmodelled ho (fun w h => hf w h.1 h.2) (fun w h => (hsc w h.1).1 h.2) (fun w h => (hsc w h.1).2 h.2))

end Sys2Proof.Machine
end

section
/-! SUPPORT. The errors and refusals of spec/60_exceptions.md: what a refused command word does (R211), the order of a command's checks
(R204, R206, R208), and the stages of OPEN (R201 to R203). -/

namespace Sys2Proof.Machine

/-! ## Refused command words (R77, R211) -/

/-- An opcode that no operation has is refused as unlisted. -/
theorem decode_of_unlistedOpcode {c : Word} (ws : List Word) (h : ∀ o ∈ Op.all, o.code ≠ opcodeOf c) :
    decode (c :: ws) = .error (.unlistedOpcode c) := by
  have hnone : Op.ofCode (opcodeOf c) = none := List.find?_eq_none.2 fun o ho => by simpa using h o ho
  simp only [decode, hnone]

/-- A one in a bit that the format marks 0 is refused, however many operand words are issued. -/
theorem decode_of_mustBeZero {c : Word} {o : Op} (ws : List Word) (ho : o.code = opcodeOf c) (hbit : c &&& o.mustBeZero ≠ 0#32) :
    decode (c :: ws) = .error (.mustBeZero c) := by
  have hsome : Op.ofCode (opcodeOf c) = some o := ho ▸ Laws.ofCode_code o
  simp only [decode, hsome, if_pos hbit]

/-- The decoder's reasons on which the agent's words are refused: R77's three, not those of words still to come (log 9). -/
def RefusesWord (c : Word) (x : Reject) : Prop := x = .unlistedOpcode c ∨ x = .mustBeZero c ∨ x = .padding c

/-- Words refused for such a reason are fetched as a refusal: some of them taken and the mark set. -/
theorem fetch_of_refusesWord {a : AgentId} {s : State} {c : Word} {x : Reject} (hd : decode (s.agent a).pending = .error x)
    (hx : RefusesWord c x) : ∃ rest, fetch a s = .refusal (s.setPending a rest).refuse := by
  rcases hx with rfl | rfl | rfl
  all_goals
    simp only [fetch, hd]
    exact ⟨_, rfl⟩

/-- With no order laid down, the step of an idle agent that fetches a refusal is that refusal. -/
theorem step_of_fetch_refusal {s t : State} (hf : s.faults = []) (hs : s.sched = []) (hi : (s.agent s.turn).seq = .idle)
    (h : fetch s.turn s = .refusal t) : step s = .next t := by
  simp only [step, hf, hs, operationStep, hi, h]

/-- Settles O8: each of the three kinds of word is a reason the decoder gives, and a fetched refusal is the whole step; that the mark
stays is part of what every step keeps. -/
theorem refusedCommandOnlySetsTheMark : Obligations.RefusedCommandOnlySetsTheMark := by
  unfold Obligations.RefusedCommandOnlySetsTheMark
  refine ⟨?_, fun s t hr h => (step_steps h).refused hr⟩
  intro s c ws hf hs hi hp hkind
  have hd : ∃ x, decode (s.agent s.turn).pending = .error x ∧ RefusesWord c x := by
    rw [hp]
    rcases hkind with hcode | ⟨o, -, ho, hbit⟩ | hpad
    · exact ⟨_, decode_of_unlistedOpcode ws hcode, .inl rfl⟩
    · exact ⟨_, decode_of_mustBeZero ws ho hbit, .inr (.inl rfl)⟩
    · exact ⟨_, hpad, .inr (.inr rfl)⟩
  obtain ⟨x, hx, hrefusal⟩ := hd
  obtain ⟨rest, hfetch⟩ := fetch_of_refusesWord hx hrefusal
  exact ⟨rest, step_of_fetch_refusal hf hs hi hfetch⟩

/-! ## The checks of a command in order (R208) -/

/-- A command stopped by an error changes nothing and records its completion with that error (R209). -/
theorem commandResult_of_error {i : Instr} {c : Command} {s : State} {e : Error} (h : firstStop (c.checks s) = some (.error e)) :
    commandResult i c s = { s with history := s.history ++ [.completed s.turn i (.error e)] } := by
  simp only [commandResult, h]
  rfl

/-- The checks a command makes after the map check: on the offset of RDW and WRW (R53), and on the arguments of R200. -/
def checksPastMap (s : State) : Instr → List (Bool × Stop)
  | .rdw off | .wrw off _ => (offsetChecks off s).tail
  | .pcfgo pin | .pcfgi pin | .pset pin _ | .pget pin => (pinChecks pin s).tail
  | .i2cinit scl sda freq =>
    [(decide (s.numPins ≤ scl.toNat ∨ s.numPins ≤ sda.toNat ∨ scl = sda ∨ freq = 0#32), .error .configurationError)]
  | .write addr _ _ => [(decide (128 ≤ addr.toNat), .error .configurationError)]
  | .read addr _ n => [(decide (128 ≤ addr.toNat ∨ n = 0#8), .error .configurationError)]
  | _ => []

/-- On a bus that is configured and free, the frame's checks come down to the map check (R140). -/
theorem firstStop_frameChecks_append {s : State} (h : s.bus.cfg = .configured ∧ s.bus.owner = none) (rest : List (Bool × Stop)) :
    firstStop (frameChecks s ++ rest) = firstStop (mapCheck s :: rest) := by
  obtain ⟨hcfg, howner⟩ := h
  simp [frameChecks, firstStop, hcfg, howner]

/-- Once the checks on the bus pass, every command but OPEN checks the map, and then what is left. -/
theorem firstStop_checks_of_busAdmits {i : Instr} {s : State} (hi : i ≠ .openMap) (h : s.busAdmits i) :
    firstStop ((commandOf i).checks s) = firstStop (mapCheck s :: checksPastMap s i) := by
  obtain ⟨hbus, hinit⟩ := h
  cases i with
  | openMap => exact absurd rfl hi
  | i2cinit scl sda freq =>
    have hcfg : ¬ s.bus.cfg = .configured := by simp [hinit scl sda freq rfl]
    simp only [commandOf, i2cinitCommand, checksPastMap, firstStop, hcfg, decide_false, Bool.false_eq_true, if_false]
  | closeMap | rdw | wrw | pcfgo | pcfgi | pset | pget => rfl
  | i2cdisp | setwm | setrm | wbit | rbit | start | stop | wbyte | rbyte | wbytes | write | read =>
    exact firstStop_frameChecks_append (hbus rfl) _

/-- Settles O23: past the checks on the bus, the map check is the first of every command but OPEN, and a closed map fails it. -/
theorem closedMapIsUnavailable : Obligations.ClosedMapIsUnavailable := by
  unfold Obligations.ClosedMapIsUnavailable
  intro i s hi hclosed hbus
  have hstop : firstStop ((commandOf i).checks s) = some (.error .registerMapUnavailable) := by
    simp [firstStop_checks_of_busAdmits hi hbus, firstStop, mapCheck, hclosed]
  rw [exec_eq, commandResult_of_error hstop]

/-- Arguments R200 lists as invalid fail the one check left past the map's (R204). -/
theorem firstStop_checksPastMap_of_badArguments {i : Instr} {s : State} (h : badArguments s.numPins i) :
    firstStop (checksPastMap s i) = some (.error .configurationError) := by
  cases i with
  | openMap | closeMap | rdw | wrw | i2cdisp | setwm | setrm | wbit | rbit | start | stop | wbyte | rbyte | wbytes => exact h.elim
  | pcfgo | pcfgi | pset | pget | i2cinit | write | read => exact if_pos (decide_eq_true h)

/-- Settles O36: past the checks on the bus and the map, invalid arguments fail the check that is left, which is made before the body. -/
theorem badArgumentsChangeNothing : Obligations.BadArgumentsChangeNothing := by
  unfold Obligations.BadArgumentsChangeNothing
  intro i s hbad hopen hbus
  have hi : i ≠ .openMap := by
    rintro rfl
    exact hbad
  have hstop : firstStop ((commandOf i).checks s) = some (.error .configurationError) := by
    simp [firstStop_checks_of_busAdmits hi hbus, firstStop, mapCheck, hopen, firstStop_checksPastMap_of_badArguments hbad]
  rw [exec_eq, commandResult_of_error hstop]

/-! ## The stages of OPEN (R100) -/

/-- What OPEN answers to the platform `p`, and the map it leaves where it found `m`: the first stage that fails, else the window mapped
at the base detected. -/
def openStages (m : RegisterMap) (p : PlatformAnswer) : Reply × RegisterMap :=
  match p.detected with
  | none => (.error .platformDetectionFailure, m)
  | some b =>
    if p.deviceOpened then
      if p.mapped then (.ok .none, { isOpen := true, base := some b }) else (.error .mappingFailure, m)
    else (.error .privilegeFailure, m)

/-- The body of OPEN takes the platform's answer and changes the map as its stages say, nothing else. -/
theorem run_openCommand (a : AgentId) (s : State) :
    (openCommand.body s.params).run a s =
      .finished (openStages s.map s.nextPlatform).1 { s.platformTaken with map := (openStages s.map s.nextPlatform).2 } := by
  simp only [openCommand, Prog.run]
  rcases s.nextPlatform with ⟨_ | b, _ | _, _ | _⟩ <;> rfl

/-- OPEN on a closed map: its stages, and the completion recorded. -/
theorem exec_openMap_closed {s : State} (h : s.map.isOpen = false) :
    exec .openMap s = .next { s with
      map := (openStages s.map s.nextPlatform).2
      env := { s.env with platform := s.env.platform.next }
      history := s.history ++ [.completed s.turn .openMap (openStages s.map s.nextPlatform).1] } := by
  have hchecks : firstStop (openCommand.checks s) = none := by simp [firstStop, openCommand, h]
  have henter : openCommand.enter s.turn s = s := rfl
  rw [exec_eq, commandOf, commandResult, hchecks, henter, run_openCommand]
  rfl

/-- Settles O21: the witnesses are what the stages of OPEN give for the platform drawn. -/
theorem openRunsItsStages : Obligations.OpenRunsItsStages := by
  unfold Obligations.OpenRunsItsStages
  intro s h
  refine ⟨_, _, exec_openMap_closed h, ?_, ?_, ?_, ?_⟩
  · intro hdet
    simp [openStages, hdet]
  · intro b hdet hdev
    simp [openStages, hdet, hdev]
  · intro b hdet hdev hmap
    simp [openStages, hdet, hdev, hmap]
  · intro b hdet hdev hmap
    simp [openStages, hdet, hdev, hmap]

end Sys2Proof.Machine
end

section
/-! SUPPORT. The command encoding (spec/30_encoding.md R75 to R86): the fields of the words of each format, the payload as words and as
bytes, and the decoder as the inverse of the encoder. -/

namespace Sys2Proof.Laws

open Sys2Proof

/-! ## The fields of the words (R78 to R85) -/

section
variable (o : Op)

@[simp] theorem wordM_off (off : Nat) : (wordM o off).extractLsb' 0 12 = BitVec.ofNat 12 off := by
  rw [wordM, BitVec.extractLsb'_append_eq_of_add_le (by decide)]
  exact BitVec.extractLsb'_append_eq_right

@[simp] theorem wordP_pin (lv : Bool) (pin : PinField) : (wordP o lv pin).extractLsb' 0 6 = pin := by
  rw [wordP, BitVec.extractLsb'_append_eq_of_add_le (by decide)]
  exact BitVec.extractLsb'_append_eq_right

@[simp] theorem wordP_level (lv : Bool) (pin : PinField) : (wordP o lv pin)[6] = lv := by
  rw [← BitVec.getLsbD_eq_getElem]
  simp only [wordP, BitVec.getLsbD_append, BitVec.getLsbD_ofBool]
  rfl

@[simp] theorem wordI_scl (scl sda : PinField) : (wordI o scl sda).extractLsb' 0 6 = scl := by
  rw [wordI, BitVec.extractLsb'_append_eq_of_add_le (by decide)]
  exact BitVec.extractLsb'_append_eq_right

@[simp] theorem wordI_sda (scl sda : PinField) : (wordI o scl sda).extractLsb' 6 6 = sda := by
  rw [wordI, BitVec.extractLsb'_append_eq_of_add_le (by decide), BitVec.extractLsb'_append_eq_of_le (by decide)]
  exact BitVec.extractLsb'_append_eq_right

@[simp] theorem wordB_bit (b : Bool) : (wordB o b)[0] = b := by
  rw [← BitVec.getLsbD_eq_getElem]
  simp only [wordB, BitVec.getLsbD_append, BitVec.getLsbD_ofBool]
  rfl

@[simp] theorem wordY_byte (v : Byte) : (wordY o v).extractLsb' 0 8 = v := by
  rw [wordY, BitVec.extractLsb'_append_eq_of_add_le (by decide)]
  exact BitVec.extractLsb'_append_eq_right

@[simp] theorem wordA_flag (a : Bool) : (wordA o a)[8] = a := by
  rw [← BitVec.getLsbD_eq_getElem]
  simp only [wordA, BitVec.getLsbD_append, BitVec.getLsbD_ofBool]
  rfl

@[simp] theorem wordX_addr (addr reg n : Byte) : (wordX o addr reg n).extractLsb' 16 8 = addr := by
  rw [wordX, BitVec.extractLsb'_append_eq_of_add_le (by decide), BitVec.extractLsb'_append_eq_of_le (by decide)]
  exact BitVec.extractLsb'_append_eq_left

@[simp] theorem wordX_reg (addr reg n : Byte) : (wordX o addr reg n).extractLsb' 8 8 = reg := by
  rw [wordX, BitVec.extractLsb'_append_eq_of_add_le (by decide), BitVec.extractLsb'_append_eq_of_le (by decide)]
  exact BitVec.extractLsb'_append_eq_right

@[simp] theorem wordX_count (addr reg n : Byte) : (wordX o addr reg n).extractLsb' 0 8 = n := by
  rw [wordX, BitVec.extractLsb'_append_eq_of_add_le (by decide)]
  exact BitVec.extractLsb'_append_eq_right

end

/-! ## The bits a format marks 0 -/

/-- The mask of a field selects it: a word has no bit of the mask exactly where the field is 0. -/
theorem append_and_fieldMask {k m n : Nat} (a : BitVec k) (z : BitVec m) (y : BitVec n) :
    (a ++ (z ++ y)) &&& (0#k ++ (BitVec.allOnes m ++ 0#n)) = 0#(k + (m + n)) ↔ z = 0#m := by
  simp only [BitVec.and_append, BitVec.and_zero, BitVec.and_allOnes]
  constructor
  · intro h
    have hz := congrArg (fun w => (w.extractLsb' 0 (m + n)).extractLsb' n m) h
    simpa [BitVec.extractLsb'_append_eq_of_add_le, BitVec.extractLsb'_append_eq_of_le] using hz
  · rintro rfl
    simp

/-- Every word is an upper and a lower part. -/
theorem exists_append {m n : Nat} (x : BitVec (m + n)) : ∃ (z : BitVec m) (y : BitVec n), x = z ++ y :=
  ⟨_, _, BitVec.extractLsb'_append_extractLsb'.symm⟩

/-- A single bit is that of a Boolean. -/
theorem exists_eq_ofBool (x : BitVec 1) : ∃ b, x = BitVec.ofBool b := ⟨x.getLsbD 0, by revert x; decide⟩

/-- A word whose field under the mask is 0 is its upper part, that 0, and what stands below. -/
theorem exists_below_field {k : Nat} (m n : Nat) {c : BitVec (k + (m + n))}
    (hz : c &&& (0#k ++ (BitVec.allOnes m ++ 0#n)) = 0#(k + (m + n))) :
    ∃ y : BitVec n, c = c.extractLsb' (m + n) k ++ (0#m ++ y) := by
  obtain ⟨a, x, rfl⟩ := exists_append c
  obtain ⟨z, y, rfl⟩ := exists_append x
  rw [(append_and_fieldMask a z y).1 hz, BitVec.extractLsb'_append_eq_left]
  exact ⟨y, rfl⟩

section
variable {c : Word} {o : Op} (ho : opcodeOf c = o.code)
include ho

theorem eq_wordN (hz : c &&& 0x00FFFFFF#32 = 0#32) : c = wordN o := by
  obtain ⟨y, hy⟩ := exists_below_field (k := 8) 24 0 hz
  rw [BitVec.eq_nil y] at hy
  rw [wordN, ← ho]
  exact hy

theorem eq_wordM (hz : c &&& 0x00FFF000#32 = 0#32) : ∃ off < 4096, c = wordM o off := by
  obtain ⟨y, hy⟩ := exists_below_field (k := 8) 12 12 hz
  refine ⟨y.toNat, y.isLt, ?_⟩
  rw [wordM, ← ho, BitVec.ofNat_toNat, BitVec.setWidth_eq]
  exact hy

theorem eq_wordP (hz : c &&& 0x00FFFFC0#32 = 0#32) : ∃ pin, c = wordP o false pin := by
  obtain ⟨pin, hy⟩ := exists_below_field (k := 8) 18 6 hz
  refine ⟨pin, ?_⟩
  rw [wordP, ← ho]
  exact hy

/-- Format P of PSET, which alone has a level. -/
theorem eq_wordP_level (hz : c &&& 0x00FFFF80#32 = 0#32) : ∃ lv pin, c = wordP o lv pin := by
  obtain ⟨y, hy⟩ := exists_below_field (k := 8) 17 7 hz
  obtain ⟨z, pin, rfl⟩ := exists_append (m := 1) (n := 6) y
  obtain ⟨lv, rfl⟩ := exists_eq_ofBool z
  refine ⟨lv, pin, ?_⟩
  rw [wordP, ← ho, show (0#17 ++ BitVec.ofBool lv ++ pin : BitVec 24) = 0#17 ++ (BitVec.ofBool lv ++ pin) from BitVec.append_assoc]
  exact hy

theorem eq_wordI (hz : c &&& 0x00FFF000#32 = 0#32) : ∃ scl sda, c = wordI o scl sda := by
  obtain ⟨y, hy⟩ := exists_below_field (k := 8) 12 12 hz
  obtain ⟨sda, scl, rfl⟩ := exists_append (m := 6) (n := 6) y
  refine ⟨scl, sda, ?_⟩
  rw [wordI, ← ho, show (0#12 ++ sda ++ scl : BitVec 24) = 0#12 ++ (sda ++ scl) from BitVec.append_assoc]
  exact hy

theorem eq_wordB (hz : c &&& 0x00FFFFFE#32 = 0#32) : ∃ b, c = wordB o b := by
  obtain ⟨y, hy⟩ := exists_below_field (k := 8) 23 1 hz
  obtain ⟨b, rfl⟩ := exists_eq_ofBool y
  refine ⟨b, ?_⟩
  rw [wordB, ← ho]
  exact hy

theorem eq_wordY (hz : c &&& 0x00FFFF00#32 = 0#32) : ∃ v, c = wordY o v := by
  obtain ⟨v, hy⟩ := exists_below_field (k := 8) 16 8 hz
  refine ⟨v, ?_⟩
  rw [wordY, ← ho]
  exact hy

/-- Format A, whose mask has a field above the flag and one below it. -/
theorem eq_wordA (hz : c &&& 0x00FFFEFF#32 = 0#32) : ∃ a, c = wordA o a := by
  have hsub (m : Word) (hm : 0x00FFFEFF#32 &&& m = m) : c &&& m = 0#32 := by
    rw [← hm, ← BitVec.and_assoc, hz, BitVec.zero_and]
  obtain ⟨y, hy⟩ := exists_below_field (k := 8) 15 9 (hsub 0x00FFFE00#32 (by decide))
  obtain ⟨z, w, rfl⟩ := exists_append (m := 1) (n := 8) y
  obtain ⟨a, rfl⟩ := exists_eq_ofBool z
  have hw : w = 0#8 := by
    have hlow : c.extractLsb' 0 8 = w := by
      rw [hy, BitVec.extractLsb'_append_eq_of_add_le (by decide), BitVec.extractLsb'_append_eq_of_add_le (by decide)]
      exact BitVec.extractLsb'_append_eq_right
    have hand := congrArg (BitVec.extractLsb' 0 8) (hsub 0x000000FF#32 (by decide))
    rw [BitVec.extractLsb'_and, hlow] at hand
    exact (BitVec.and_allOnes (x := w)).symm.trans hand
  subst hw
  refine ⟨a, ?_⟩
  rw [wordA, ← ho, show (0#15 ++ BitVec.ofBool a ++ 0#8 : BitVec 24) = 0#15 ++ (BitVec.ofBool a ++ 0#8) from BitVec.append_assoc]
  exact hy

/-- Format X has no bit marked 0. -/
theorem eq_wordX : ∃ addr reg n, c = wordX o addr reg n := by
  obtain ⟨op, x, rfl⟩ := exists_append (m := 8) (n := 24) c
  obtain ⟨z, n, rfl⟩ := exists_append (m := 16) (n := 8) x
  obtain ⟨addr, reg, rfl⟩ := exists_append (m := 8) (n := 8) z
  rw [opcodeOf_append] at ho
  exact ⟨addr, reg, n, by rw [ho]; rfl⟩

end

/-! ## The encoder's words decode (R76) -/

/-- The decoder on a word of a listed opcode with no bit that its format marks 0, all its operand words there. -/
theorem decode_append {c : Word} {o : Op} {ws rest : List Word} {i : Instr} (ho : opcodeOf c = o.code)
    (hz : c &&& o.mustBeZero = 0#32) (hn : ws.length = o.operandWords c) (ha : assemble o c ws = .ok i) :
    decode (c :: ws ++ rest) = .ok (i, rest) := by
  have hlen : ¬ (ws ++ rest).length < ws.length := by simp
  rw [List.cons_append, decode, ho, ofCode_code]
  simp only [hz, ne_eq, not_true_eq_false, if_false, if_neg hlen, ← hn, List.take_left, List.drop_left, ha]
  rfl

/-- Everything a word that begins a decoded command says. -/
theorem decode_ok {c : Word} {ws rest : List Word} {i : Instr} (h : decode (c :: ws) = .ok (i, rest)) :
    ∃ o : Op, opcodeOf c = o.code ∧ c &&& o.mustBeZero = 0#32 ∧ ∃ operands, operands.length = o.operandWords c ∧
      ws = operands ++ rest ∧ assemble o c operands = .ok i := by
  rw [decode] at h
  split at h
  case h_1 => cases h
  case h_2 o ho =>
    split at h
    case isTrue => cases h
    case isFalse hz =>
      split at h
      case isTrue => cases h
      case isFalse hn =>
        refine ⟨o, (code_of_ofCode ho).symm, not_not.1 hz, ws.take (o.operandWords c), ?_, ?_⟩
        · rw [List.length_take]; omega
        · cases ha : assemble o c (ws.take (o.operandWords c)) with
          | error x => rw [ha] at h; cases h
          | ok j => rw [ha] at h; cases h; exact ⟨(List.take_append_drop _ _).symm, rfl⟩

/-! ## Payloads (R79) -/

/-- The bytes of a word put together from four. -/
theorem wordBytes_append (a b c d : Byte) : wordBytes (d ++ c ++ b ++ a) = [a, b, c, d] := by
  have ha : (d ++ c ++ b ++ a : Word).extractLsb' 0 8 = a := BitVec.extractLsb'_append_eq_right
  have hb : (d ++ c ++ b ++ a : Word).extractLsb' 8 8 = b := by
    rw [BitVec.extractLsb'_append_eq_of_le (by decide)]
    exact BitVec.extractLsb'_append_eq_right
  have hc : (d ++ c ++ b ++ a : Word).extractLsb' 16 8 = c := by
    rw [BitVec.extractLsb'_append_eq_of_le (by decide), BitVec.extractLsb'_append_eq_of_le (by decide)]
    exact BitVec.extractLsb'_append_eq_right
  have hd : (d ++ c ++ b ++ a : Word).extractLsb' 24 8 = d := by
    rw [BitVec.extractLsb'_append_eq_of_le (by decide), BitVec.extractLsb'_append_eq_of_le (by decide)]
    exact BitVec.extractLsb'_append_eq_left
  rw [wordBytes, ha, hb, hc, hd]

/-- Every word is put together from its bytes. -/
theorem exists_bytes (w : Word) : ∃ a b c d : Byte, w = d ++ c ++ b ++ a := by
  obtain ⟨x, a, rfl⟩ := exists_append (m := 24) (n := 8) w
  obtain ⟨y, b, rfl⟩ := exists_append (m := 16) (n := 8) x
  obtain ⟨d, c, rfl⟩ := exists_append (m := 8) (n := 8) y
  exact ⟨a, b, c, d, rfl⟩

/-- Words with the same bytes are the same. -/
theorem flatMap_wordBytes_injective {vs ws : List Word} (h : vs.flatMap wordBytes = ws.flatMap wordBytes) : vs = ws := by
  induction vs generalizing ws with
  | nil =>
    cases ws with
    | nil => rfl
    | cons w ws => simp [wordBytes] at h
  | cons v vs ih =>
    cases ws with
    | nil => simp [wordBytes] at h
    | cons w ws =>
      obtain ⟨a, b, c, d, rfl⟩ := exists_bytes v
      obtain ⟨a', b', c', d', rfl⟩ := exists_bytes w
      simp only [List.flatMap_cons, wordBytes_append, List.cons_append, List.nil_append, List.cons.injEq] at h
      obtain ⟨rfl, rfl, rfl, rfl, hrest⟩ := h
      rw [ih hrest]

theorem length_flatMap_wordBytes (ws : List Word) : (ws.flatMap wordBytes).length = 4 * ws.length := by
  simp [List.length_flatMap, wordBytes, Nat.mul_comm]

/-- The bytes of a packed payload are the payload and its padding. -/
theorem flatMap_wordBytes_packPayload (data : List Byte) :
    (packPayload data).flatMap wordBytes = data ++ List.replicate (4 * payloadWords data.length - data.length) 0#8 := by
  induction data using packPayload.induct with
  | case1 => rfl
  | case2 a =>
    simp only [packPayload, List.flatMap_cons, wordBytes_append]
    simp [payloadWords]
  | case3 a b =>
    simp only [packPayload, List.flatMap_cons, wordBytes_append]
    simp [payloadWords]
  | case4 a b c =>
    simp only [packPayload, List.flatMap_cons, wordBytes_append]
    simp [payloadWords]
  | case5 a b c d rest ih =>
    have hpad : 4 * payloadWords (rest.length + 1 + 1 + 1 + 1) - (rest.length + 1 + 1 + 1 + 1) =
        4 * payloadWords rest.length - rest.length := by simp only [payloadWords]; omega
    simp only [packPayload, List.flatMap_cons, wordBytes_append, ih, List.length_cons, hpad]
    rfl

/-- A packed payload is taken back. -/
theorem takePayload_packPayload (c : Word) (data : List Byte) : takePayload c data.length (packPayload data) = .ok data := by
  rw [takePayload, flatMap_wordBytes_packPayload]
  simp

/-- A payload taken has its length, and its words are its packing. -/
theorem takePayload_ok {c : Word} {n : Nat} {ws : List Word} {data : List Byte} (hn : ws.length = payloadWords n)
    (h : takePayload c n ws = .ok data) : data.length = n ∧ packPayload data = ws := by
  simp only [takePayload] at h
  split at h
  case isFalse => cases h
  case isTrue hpad =>
    cases h
    have hlen := length_flatMap_wordBytes ws
    have hle : n ≤ 4 * payloadWords n := by simp only [payloadWords]; omega
    have htake : ((ws.flatMap wordBytes).take n).length = n := by rw [List.length_take]; omega
    have hdrop : (ws.flatMap wordBytes).drop n = List.replicate (4 * payloadWords n - n) 0#8 :=
      List.eq_replicate_iff.2 ⟨by simp [hlen, hn], by simpa using hpad⟩
    refine ⟨htake, flatMap_wordBytes_injective ?_⟩
    rw [flatMap_wordBytes_packPayload, htake, ← hdrop, List.take_append_drop]

/-- A payload whose words hold a byte past its length that is not 0 is refused. -/
theorem takePayload_padding {c : Word} {n : Nat} {ws : List Word} {j : Nat} (hj : n ≤ j) (hlt : j < 4 * ws.length)
    (hbyte : (ws.flatMap wordBytes)[j]? ≠ some 0#8) : takePayload c n ws = .error (.padding c) := by
  have hlt' : j < (ws.flatMap wordBytes).length := by rw [length_flatMap_wordBytes]; exact hlt
  refine if_neg fun hall => hbyte ?_
  have hmem : (ws.flatMap wordBytes)[j] ∈ (ws.flatMap wordBytes).drop n :=
    List.mem_drop_iff_getElem.2 ⟨j - n, by omega, by simp [Nat.add_sub_cancel' hj]⟩
  rw [List.getElem?_eq_getElem hlt', beq_iff_eq.1 (List.all_eq_true.1 hall _ hmem)]

/-- Byte `j` of the words is byte `j % 4` of word `j / 4`. -/
theorem getElem?_flatMap_wordBytes {ws : List Word} {j : Nat} (h : j < 4 * ws.length) :
    (ws.flatMap wordBytes)[j]? = some ((ws.getD (j / 4) 0#32).extractLsb' (8 * (j % 4)) 8) := by
  induction ws generalizing j with
  | nil => simp at h
  | cons w ws ih =>
    rcases Nat.lt_or_ge j 4 with hj | hj
    · have hcases : j = 0 ∨ j = 1 ∨ j = 2 ∨ j = 3 := by omega
      rcases hcases with rfl | rfl | rfl | rfl <;> rfl
    · obtain ⟨m, rfl⟩ := Nat.exists_eq_add_of_le hj
      have hdiv : (4 + m) / 4 = m / 4 + 1 := by omega
      have hmod : (4 + m) % 4 = m % 4 := by omega
      have hlt : m < 4 * ws.length := by simp only [List.length_cons] at h; omega
      rw [List.flatMap_cons, List.getElem?_append_right (by simp [wordBytes]), hdiv, hmod, List.getD_cons_succ, ← ih hlt]
      simp [wordBytes]

/-! ## The statements about the encoding -/

/-- The first words of the encoder have none of the bits that their formats mark 0. -/
theorem encode_mustBeZero {i : Instr} {c : Word} {ws : List Word} (h : encode i = c :: ws) : c &&& (opOf i).mustBeZero = 0#32 := by
  have hM (o : Op) (off : Nat) : wordM o off &&& 0x00FFF000#32 = 0#32 := (append_and_fieldMask o.code 0#12 (BitVec.ofNat 12 off)).2 rfl
  have hP (o : Op) (pin : PinField) : wordP o false pin &&& 0x00FFFFC0#32 = 0#32 := (append_and_fieldMask o.code 0#18 pin).2 rfl
  have hY (o : Op) (v : Byte) : wordY o v &&& 0x00FFFF00#32 = 0#32 := (append_and_fieldMask o.code 0#16 v).2 rfl
  cases i <;> cases h
  case rdw off => exact hM .rdw off
  case wrw off value => exact hM .wrw off
  case pcfgo pin => exact hP .pcfgo pin
  case pcfgi pin => exact hP .pcfgi pin
  case pget pin => exact hP .pget pin
  case pset pin lv =>
    simp only [opOf, Op.mustBeZero]
    rw [wordP, show (0#17 ++ BitVec.ofBool lv ++ pin : BitVec 24) = 0#17 ++ (BitVec.ofBool lv ++ pin) from BitVec.append_assoc]
    exact (append_and_fieldMask Op.pset.code 0#17 (BitVec.ofBool lv ++ pin)).2 rfl
  case i2cinit scl sda freq =>
    simp only [opOf, Op.mustBeZero]
    rw [wordI, show (0#12 ++ sda ++ scl : BitVec 24) = 0#12 ++ (sda ++ scl) from BitVec.append_assoc]
    exact (append_and_fieldMask Op.i2cinit.code 0#12 (sda ++ scl)).2 rfl
  case wbit b => exact (append_and_fieldMask Op.wbit.code 0#23 (BitVec.ofBool b)).2 rfl
  case wbyte v => exact hY .wbyte v
  case rbyte a => cases a <;> decide
  case wbytes data => exact hY .wbytes _
  case write addr reg data => exact BitVec.and_zero
  case read addr reg n => exact BitVec.and_zero
  all_goals decide

/-- The first words of the encoder carry the opcodes of their commands. -/
theorem encode_opcode (i : Instr) : FirstWord.Statement i := by
  cases i with
  | openMap => exact FirstWord.openMap
  | closeMap => exact FirstWord.closeMap
  | rdw off => exact FirstWord.rdw off
  | wrw off value => exact FirstWord.wrw off value
  | pcfgo pin => exact FirstWord.pcfgo pin
  | pcfgi pin => exact FirstWord.pcfgi pin
  | pset pin lv => exact FirstWord.pset pin lv
  | pget pin => exact FirstWord.pget pin
  | i2cinit scl sda freq => exact FirstWord.i2cinit scl sda freq
  | i2cdisp => exact FirstWord.i2cdisp
  | setwm => exact FirstWord.setwm
  | setrm => exact FirstWord.setrm
  | wbit b => exact FirstWord.wbit b
  | rbit => exact FirstWord.rbit
  | start => exact FirstWord.start
  | stop => exact FirstWord.stop
  | wbyte v => exact FirstWord.wbyte v
  | rbyte a => exact FirstWord.rbyte a
  | wbytes data => exact FirstWord.wbytes data
  | write addr reg data => exact FirstWord.write addr reg data
  | read addr reg n => exact FirstWord.read addr reg n

/-- A payload's length fits the 8 bits of its field. -/
theorem toNat_ofNat_length {data : List Byte} (h : data.length < 256) : (BitVec.ofNat 8 data.length).toNat = data.length := by
  simpa using h

/-- The operand words of a well-formed command's encoding number what its first word says, and all its words assemble to it. -/
theorem assemble_encode {i : Instr} {c : Word} {ws : List Word} (hwf : i.wf = true) (h : encode i = c :: ws) :
    ws.length = (opOf i).operandWords c ∧ assemble (opOf i) c ws = .ok i := by
  cases i with
  | openMap | closeMap | i2cdisp | setwm | setrm | rbit | start | stop =>
    cases h
    exact ⟨rfl, rfl⟩
  | pcfgo | pcfgi | pset | pget | i2cinit | wbit | wbyte | rbyte | read =>
    cases h
    exact ⟨rfl, by simp [assemble, opOf]⟩
  | rdw off | wrw off =>
    cases h
    exact ⟨rfl, by simpa [assemble, opOf] using of_decide_eq_true hwf⟩
  | wbytes data =>
    cases h
    have hn := toNat_ofNat_length (of_decide_eq_true hwf)
    simp only [Op.operandWords, opOf, assemble, wordY_byte, hn, length_packPayload, takePayload_packPayload, true_and]
    rfl
  | write addr reg data =>
    cases h
    have hn := toNat_ofNat_length (of_decide_eq_true hwf)
    simp only [Op.operandWords, opOf, assemble, wordX_addr, wordX_reg, wordX_count, hn, length_packPayload,
      takePayload_packPayload, true_and]
    rfl

/-- Settles O1: the encoder's words have their command's opcode, none of the bits its format marks 0, and as many operand words as the
first says, and the fields read off them are the operands. -/
theorem decodeReadsBackEncode : Obligations.DecodeReadsBackEncode := by
  unfold Obligations.DecodeReadsBackEncode
  intro i rest hwf
  obtain ⟨c, ws, he, hop⟩ := encode_opcode i
  obtain ⟨hn, ha⟩ := assemble_encode hwf he
  rw [he]
  exact decode_append hop (encode_mustBeZero he) hn ha

/-- A mapped result comes from a result. -/
theorem ok_of_map_ok {ε α β : Type} {f : α → β} {x : Except ε α} {y : β} (h : x.map f = .ok y) : ∃ z, x = .ok z ∧ f z = y := by
  cases x with
  | error e => cases h
  | ok z => cases h; exact ⟨z, rfl, rfl⟩

/-- The words that assemble to a command are its encoding. -/
theorem encode_of_assemble {o : Op} {c : Word} {ws : List Word} {i : Instr} (ho : opcodeOf c = o.code)
    (hz : c &&& o.mustBeZero = 0#32) (hn : ws.length = o.operandWords c) (ha : assemble o c ws = .ok i) :
    i.wf = true ∧ encode i = c :: ws := by
  have hnil (h : ws.length = 0) : ws = [] := List.eq_nil_of_length_eq_zero h
  have hone (h : ws.length = 1) : ∃ w, ws = [w] := List.length_eq_one_iff.1 h
  cases o with
  | opn | cls | i2cdisp | setwm | setrm | rbit | start | stop =>
    cases ha
    rw [eq_wordN ho hz, hnil hn]
    exact ⟨rfl, rfl⟩
  | rdw =>
    obtain ⟨off, hoff, rfl⟩ := eq_wordM ho hz
    cases hnil hn
    simp only [assemble, wordM_off, BitVec.toNat_ofNat, Nat.mod_eq_of_lt hoff] at ha
    cases ha
    exact ⟨decide_eq_true hoff, rfl⟩
  | wrw =>
    obtain ⟨off, hoff, rfl⟩ := eq_wordM ho hz
    obtain ⟨w, rfl⟩ := hone hn
    simp only [assemble, wordM_off, BitVec.toNat_ofNat, Nat.mod_eq_of_lt hoff] at ha
    cases ha
    exact ⟨decide_eq_true hoff, rfl⟩
  | pcfgo | pcfgi | pget =>
    obtain ⟨pin, rfl⟩ := eq_wordP ho hz
    cases hnil hn
    rw [assemble, wordP_pin] at ha
    cases ha
    exact ⟨rfl, rfl⟩
  | pset =>
    obtain ⟨lv, pin, rfl⟩ := eq_wordP_level ho hz
    cases hnil hn
    simp [assemble] at ha
    cases ha
    exact ⟨rfl, rfl⟩
  | i2cinit =>
    obtain ⟨scl, sda, rfl⟩ := eq_wordI ho hz
    obtain ⟨w, rfl⟩ := hone hn
    rw [assemble, wordI_scl, wordI_sda] at ha
    cases ha
    exact ⟨rfl, rfl⟩
  | wbit =>
    obtain ⟨b, rfl⟩ := eq_wordB ho hz
    cases hnil hn
    simp [assemble] at ha
    cases ha
    exact ⟨rfl, rfl⟩
  | wbyte =>
    obtain ⟨v, rfl⟩ := eq_wordY ho hz
    cases hnil hn
    rw [assemble, wordY_byte] at ha
    cases ha
    exact ⟨rfl, rfl⟩
  | rbyte =>
    obtain ⟨a, rfl⟩ := eq_wordA ho hz
    cases hnil hn
    simp [assemble] at ha
    cases ha
    exact ⟨rfl, rfl⟩
  | read =>
    obtain ⟨addr, reg, n, rfl⟩ := eq_wordX ho
    cases hnil hn
    rw [assemble, wordX_addr, wordX_reg, wordX_count] at ha
    cases ha
    exact ⟨rfl, rfl⟩
  | wbytes =>
    obtain ⟨n, rfl⟩ := eq_wordY ho hz
    simp only [Op.operandWords, assemble, wordY_byte] at hn ha
    obtain ⟨data, hdata, rfl⟩ := ok_of_map_ok ha
    obtain ⟨hlen, rfl⟩ := takePayload_ok hn hdata
    exact ⟨decide_eq_true (hlen ▸ n.isLt), by simp [encode, hlen]⟩
  | write =>
    obtain ⟨addr, reg, n, rfl⟩ := eq_wordX ho
    simp only [Op.operandWords, assemble, wordX_addr, wordX_reg, wordX_count] at hn ha
    obtain ⟨data, hdata, rfl⟩ := ok_of_map_ok ha
    obtain ⟨hlen, rfl⟩ := takePayload_ok hn hdata
    exact ⟨decide_eq_true (hlen ▸ n.isLt), by simp [encode, hlen]⟩

/-- Settles O2: what a decoded word says of its bits and its operand words makes them the encoding of the command. -/
theorem encodingIsTheOnlyOne : Obligations.EncodingIsTheOnlyOne := by
  unfold Obligations.EncodingIsTheOnlyOne
  intro ws i rest h
  cases ws with
  | nil => cases h
  | cons c ws =>
    obtain ⟨o, ho, hz, operands, hn, rfl, ha⟩ := decode_ok h
    obtain ⟨hwf, he⟩ := encode_of_assemble ho hz hn ha
    exact ⟨hwf, by rw [he]; rfl⟩

/-- The decoder on a payload with a byte past its length that is not 0. -/
theorem decode_of_padding {c : Word} {o : Op} {rest : List Word} {j : Nat} (hmem : o ∈ [Op.wbytes, Op.write])
    (ho : o.code = opcodeOf c) (hz : c &&& o.mustBeZero = 0#32)
    (hlen : payloadWords (c.extractLsb' 0 8).toNat ≤ rest.length) (hj : (c.extractLsb' 0 8).toNat ≤ j)
    (hlt : j < 4 * payloadWords (c.extractLsb' 0 8).toNat)
    (hbyte : (rest.getD (j / 4) 0#32).extractLsb' (8 * (j % 4)) 8 ≠ 0#8) : decode (c :: rest) = .error (.padding c) := by
  have hn : o.operandWords c = payloadWords (c.extractLsb' 0 8).toNat := by
    rcases List.mem_pair.1 hmem with rfl | rfl <;> rfl
  have htake : (rest.take (payloadWords (c.extractLsb' 0 8).toNat)).length = payloadWords (c.extractLsb' 0 8).toNat := by
    rw [List.length_take]; omega
  have hbad : takePayload c (c.extractLsb' 0 8).toNat (rest.take (o.operandWords c)) = .error (.padding c) := by
    rw [hn]
    refine takePayload_padding hj (by rw [htake]; exact hlt) ?_
    have hword : j / 4 < payloadWords (c.extractLsb' 0 8).toNat := by omega
    rw [getElem?_flatMap_wordBytes (by rw [htake]; exact hlt), List.getD_eq_getElem?_getD, List.getElem?_take_of_lt hword,
      ← List.getD_eq_getElem?_getD]
    exact fun h => hbyte (Option.some.inj h)
  have hassemble : assemble o c (rest.take (o.operandWords c)) = .error (.padding c) := by
    rcases List.mem_pair.1 hmem with rfl | rfl <;> rw [assemble, hbad] <;> rfl
  rw [decode, ← ho, ofCode_code]
  simp only [hz, ne_eq, not_true_eq_false, if_false, hn, Nat.not_lt.2 hlen]
  rw [← hn, hassemble]
  rfl

/-- Settles O3: the decoder's three checks in their order, the last on the bytes of the payload's words. -/
theorem illegalEncodingsAreRejected : Obligations.IllegalEncodingsAreRejected := by
  unfold Obligations.IllegalEncodingsAreRejected
  intro c rest
  refine ⟨Machine.decode_of_unlistedOpcode rest, fun o _ ho hbit => Machine.decode_of_mustBeZero rest ho hbit, ?_⟩
  rintro o hmem ho hz hlen ⟨j, hj, hlt, hbyte⟩
  exact decode_of_padding hmem ho hz hlen hj hlt hbyte

/-- Settles O4: the words a decoded command takes are its first word and the operand words that word names. -/
theorem firstWordGivesLength : Obligations.FirstWordGivesLength := by
  unfold Obligations.FirstWordGivesLength
  intro c ws i rest h
  obtain ⟨o, ho, -, operands, hn, rfl, -⟩ := decode_ok h
  simp only [commandLength, ho, ofCode_code, List.length_append, hn]
  omega

/-- Settles O5. -/
theorem specWordsDecode : Obligations.SpecWordsDecode := by
  unfold Obligations.SpecWordsDecode
  refine ⟨?_, ?_, ?_, ?_, ?_, ?_, ?_, ?_, ?_, ?_, ?_⟩ <;> decide

end Sys2Proof.Laws
end

section
/-! SUPPORT. What steps and whole commands keep, over all agents and interleavings (spec/10_state.md R21, R30, R35, spec/70_reset_and_hazards.md
R240): the obligations on `step`, `agentStep` and `exec` that speak of every command at once. -/

namespace Sys2Proof.Machine

/-! ## Which step is taken -/

/-- Settles O6. -/
theorem stepRunsTheDecodedCommand : Obligations.StepRunsTheDecodedCommand := by
  unfold Obligations.StepRunsTheDecodedCommand
  intro s i rest hf hs hi hd
  simp only [step, hf, hs, operationStep, hi, fetch, hd]

/-- Settles O7. -/
theorem stepFollowsTheLaidDownOrder : Obligations.StepFollowsTheLaidDownOrder := by
  unfold Obligations.StepFollowsTheLaidDownOrder
  intro s a rest hf hs
  simp only [step, hf, hs]

/-- The three kinds of word that R77 names are refused for its reasons. -/
theorem exists_refusesWord {c : Word} {ws : List Word}
    (h : (∀ o ∈ Op.all, o.code ≠ opcodeOf c) ∨ (∃ o ∈ Op.all, o.code = opcodeOf c ∧ c &&& o.mustBeZero ≠ 0#32) ∨
      decode (c :: ws) = .error (.padding c)) : ∃ x, decode (c :: ws) = .error x ∧ RefusesWord c x := by
  rcases h with hcode | ⟨o, -, ho, hbit⟩ | hpad
  · exact ⟨_, decode_of_unlistedOpcode ws hcode, .inl rfl⟩
  · exact ⟨_, decode_of_mustBeZero ws ho hbit, .inr (.inl rfl)⟩
  · exact ⟨_, hpad, .inr (.inr rfl)⟩

/-- Words refused for one of R77's reasons are fetched as a refusal that drops the words of the command. -/
theorem fetch_drops_commandLength {a : AgentId} {s : State} {c : Word} {x : Reject} (hd : decode (s.agent a).pending = .error x)
    (hx : RefusesWord c x) :
    fetch a s = .refusal (s.setPending a ((s.agent a).pending.drop (commandLength c))).refuse := by
  rcases hx with rfl | rfl | rfl
  all_goals simp only [fetch, hd]

/-- Settles O9: the fetched refusal is the step of the agent, alone or as a whole operation. -/
theorem refusedWordsAreTaken : Obligations.RefusedWordsAreTaken := by
  unfold Obligations.RefusedWordsAreTaken
  intro s a c ws hi hp hkind
  have hd : ∃ x, decode (s.agent a).pending = .error x ∧ RefusesWord c x := hp ▸ exists_refusesWord hkind
  obtain ⟨x, hx, hrefusal⟩ := hd
  have hfetch := fetch_drops_commandLength hx hrefusal
  rw [hp] at hfetch
  have hstep : agentStep a s = .next ((s.setPending a ((c :: ws).drop (commandLength c))).refuse) := by
    simp only [agentStep, hi, hfetch]
  refine ⟨hstep, ?_, ?_⟩
  · rintro rfl
    rw [hstep]
    simp only [operationStep, hi, hfetch]
  · intro hcode
    have hnone : Op.ofCode (opcodeOf c) = none := List.find?_eq_none.2 fun o ho => by simpa using hcode o ho
    simp only [commandLength, hnone]

/-! ## What every step keeps -/

/-- Settles O10: a faulted state is answered by its first fault; that the marks and the history only grow is part of what every step
keeps. -/
theorem faultsAndHistoryOnlyGrow : Obligations.FaultsAndHistoryOnlyGrow := by
  unfold Obligations.FaultsAndHistoryOnlyGrow
  refine ⟨fun s f fs hf => by simp only [step, hf], fun s t h => ?_⟩
  obtain ⟨hadv, -, hfaults⟩ := step_steps h
  obtain ⟨es, hhist, -, -⟩ := hadv.history
  exact ⟨hfaults, ⟨es, hhist⟩, hadv.params, hadv.numPins⟩

/-- Settles O11. -/
theorem commandsLeaveAgentsAndParametersAlone : Obligations.CommandsLeaveAgentsAndParametersAlone := by
  unfold Obligations.CommandsLeaveAgentsAndParametersAlone
  intro i s t h
  rw [exec_eq] at h
  cases h
  obtain ⟨hadv, hagents, hsched, hrefused, -⟩ := commandResult_keeps i (commandOf i) s
  exact ⟨hagents, hadv.turn, hsched, hadv.params, hadv.numPins, hrefused⟩

/-- The events a state has beyond its history extended. -/
theorem newEvents_of_append {s t : State} {es : List Event} (h : t.history = s.history ++ es) : newEvents s t = es := by
  rw [newEvents, h, List.drop_left]

/-- Settles O17: the values a step reads are in order, not before the clock it starts from and not after the clock it leaves, so those of
the longer history are in order too. -/
theorem counterNeverRunsBack : Obligations.CounterNeverRunsBack := by
  unfold Obligations.CounterNeverRunsBack
  intro s t hs h
  obtain ⟨horder, hbound⟩ := hs
  obtain ⟨-, -, -, hclock, es, hhist, hnew, hnewOrder⟩ := (step_steps h).advances
  refine ⟨⟨?_, ?_⟩, hclock, ?_⟩
  · rw [hhist, tickValues_append, List.pairwise_append]
    exact ⟨horder, hnewOrder, fun x hx y hy => Nat.le_trans (hbound x hx) (hnew y hy).1⟩
  · intro v hv
    rw [hhist, tickValues_append, List.mem_append] at hv
    rcases hv with hv | hv
    · exact Nat.le_trans (hbound v hv) hclock
    · exact (hnew v hv).2
  · intro v hv
    rw [newEvents_of_append hhist] at hv
    exact (hnew v hv).1

/-! ## The position of an operation in flight (R21) -/

theorem microStepsMade_append (l m : List Answer) : microStepsMade (l ++ m) = microStepsMade l + microStepsMade m := by
  induction l with
  | nil => simp [microStepsMade]
  | cons x l ih => cases x <;> simp only [List.cons_append, microStepsMade, ih] <;> omega

/-- The parts up to the next micro-step make none. -/
theorem settle_microStepsMade {p : Prog} {l m : List Answer} {s t : State} (h : p.settle l s = .waiting m t) :
    microStepsMade m = microStepsMade l := by
  induction p generalizing l s with
  | done r => cases h
  | read | write | tick | wait => cases h; rfl
  | look k ih => exact (ih _ h).trans (by simp [microStepsMade_append, microStepsMade])
  | set u k ih => exact ih h
  | ask k ih => exact (ih _ h).trans (by simp [microStepsMade_append, microStepsMade])

/-- A micro-step after which the operation goes on makes one. -/
theorem microStep_microStepsMade {a : AgentId} {p : Prog} {l m : List Answer} {s t : State} (h : microStep a p l s = .waiting m t) :
    microStepsMade m = microStepsMade l + 1 := by
  cases p with
  | done | look | set | ask => cases h
  | read off k =>
    rw [microStep] at h
    split at h
    case h_1 => exact (settle_microStepsMade h).trans (by simp [microStepsMade_append, microStepsMade])
    case h_2 => cases h
  | write off v k =>
    rw [microStep] at h
    split at h
    case h_1 => exact (settle_microStepsMade h).trans (by simp [microStepsMade_append, microStepsMade])
    case h_2 => cases h
  | tick k => exact (settle_microStepsMade h).trans (by simp [microStepsMade_append, microStepsMade])
  | wait n k => exact (settle_microStepsMade h).trans (by simp [microStepsMade_append, microStepsMade])

/-- Settles O12: of the three places where a micro-step can leave the program, only waiting leaves the agent busy without a fault. -/
theorem microStepAdvancesPosition : Obligations.MicroStepAdvancesPosition := by
  unfold Obligations.MicroStepAdvancesPosition
  intro s t a i j l m hbusy h hfaults hafter
  rcases agentStep_next h with ⟨hidle, -⟩ | ⟨i', l', hbusy', ⟨p, -, rfl⟩ | ⟨-, rfl⟩⟩
  · rw [hbusy] at hidle; cases hidle
  · rw [hbusy] at hbusy'
    cases hbusy'
    have hruns := microStep_runs a p l s
    cases hx : microStep a p l s with
    | waiting l' u =>
      rw [hx, park, agent_setSeq, if_pos rfl] at hafter
      cases hafter
      exact ⟨rfl, microStep_microStepsMade hx⟩
    | finished r u =>
      rw [hx, park, agent_setSeq, if_pos rfl] at hafter
      cases hafter
    | faulted f u =>
      rw [hx] at hruns hfaults
      have hsame : u.faults = s.faults := hruns.faults
      simp [park, hsame] at hfaults
  · simp at hfaults

/-! ## The end of an operation (R209) -/

/-- No event of the list is a completion. -/
def NoCompletion (es : List Event) : Prop := ∀ a i r, Event.completed a i r ∉ es

theorem settle_history (p : Prog) (l : List Answer) (s : State) : (p.settle l s).state.history = s.history := by
  induction p generalizing l s with
  | done | read | write | tick | wait => rfl
  | look k ih => exact (ih _ _ _).trans s.regsTaken_history
  | set u k ih => exact (ih _ _).trans (s.assign_history u)
  | ask k ih => exact ih _ _ _

theorem enter_history (c : Command) (a : AgentId) (s : State) : (c.enter a s).history = s.history := by
  unfold Command.enter
  split <;> rfl

/-- A micro-step records no completion. -/
theorem microStep_history (a : AgentId) (p : Prog) (l : List Answer) (s : State) :
    ∃ es, (microStep a p l s).state.history = s.history ++ es ∧ NoCompletion es := by
  have hnil : ∃ es, s.history = s.history ++ es ∧ NoCompletion es := ⟨[], by simp, fun _ _ _ h => by cases h⟩
  cases p with
  | done | look | set | ask => exact hnil
  | read off k =>
    rw [microStep]
    split
    case h_1 w t h =>
      rw [settle_history]
      rcases (memRead_ok h).2 with ⟨n, -, -, rfl⟩ | ⟨n, -, -, rfl⟩ <;> exact ⟨_, rfl, fun _ _ _ h => by simp at h⟩
    case h_2 => exact hnil
  | write off v k =>
    rw [microStep]
    split
    case h_1 t h =>
      rw [settle_history]
      obtain ⟨-, pins, -, rfl⟩ := memWrite_ok h
      exact ⟨_, rfl, fun _ _ _ h => by simp at h⟩
    case h_2 => exact hnil
  | tick k =>
    rw [microStep, settle_history]
    exact ⟨_, rfl, fun _ _ _ h => by simp at h⟩
  | wait n k =>
    rw [microStep, settle_history]
    exact ⟨_, rfl, fun _ _ _ h => by simp at h⟩

/-- A bus command holds the bus. -/
theorem ownsBus_of_isBusCommand {i : Instr} (h : isBusCommand i = true) : (commandOf i).ownsBus = true := by
  cases i with
  | openMap | closeMap | rdw | wrw | pcfgo | pcfgi | pset | pget | i2cinit => cases h
  | i2cdisp | setwm | setrm | wbit | rbit | start | stop | wbyte | rbyte | wbytes | write | read => rfl

/-- Every bus command makes the frame's checks first (R140). -/
theorem checks_of_isBusCommand {i : Instr} (hi : isBusCommand i = true) (s : State) :
    ∃ rest, (commandOf i).checks s = frameChecks s ++ rest := by
  cases i with
  | openMap | closeMap | rdw | wrw | pcfgo | pcfgi | pset | pget | i2cinit => cases hi
  | i2cdisp | setwm | setrm | wbit | rbit | start | stop | wbyte | rbyte | wbytes => exact ⟨[], (List.append_nil _).symm⟩
  | write | read => exact ⟨_, rfl⟩

/-- A bus command stopped by an error found the bus free (R140, R208). -/
theorem owner_of_error {i : Instr} {s : State} {e : Error} (hi : isBusCommand i = true)
    (h : firstStop ((commandOf i).checks s) = some (.error e)) : s.bus.owner = none := by
  obtain ⟨rest, hc⟩ := checks_of_isBusCommand hi s
  rw [hc] at h
  by_contra hne
  by_cases hcfg : s.bus.cfg = .unconfigured
  · simp [frameChecks, firstStop, hcfg] at h
  · simp [frameChecks, firstStop, hcfg, hne] at h

/-- How an operation begins: stopped by a fault or an error of its checks, or going to its first micro-step. -/
theorem begin_cases (a : AgentId) (i : Instr) (s : State) :
    (∃ f, firstStop ((commandOf i).checks s) = some (.fault f) ∧ begin a i s = s.markFault f) ∨
    (∃ e, firstStop ((commandOf i).checks s) = some (.error e) ∧ begin a i s = s.deliver a i false (.error e)) ∨
    (firstStop ((commandOf i).checks s) = none ∧
      begin a i s =
        park a i (commandOf i) (((commandOf i).body s.params).settle [] ((commandOf i).enter a (s.setSeq a (.busy i []))))) := by
  unfold begin
  split
  case h_1 f h => exact .inl ⟨f, h, rfl⟩
  case h_2 e h => exact .inr (.inl ⟨e, h, rfl⟩)
  case h_3 h => exact .inr (.inr ⟨h, rfl⟩)

/-- What an agent's step leaves where its operation comes to rest at `x`, the history having grown by `es` without a completion: a
completion is recorded only where the operation has finished, and then the agent is idle and the bus free. -/
theorem park_completion {a : AgentId} {i j : Instr} {r : Reply} {x : Settled} {s : State} {es : List Event}
    (hes : x.state.history = s.history ++ es) (hno : NoCompletion es)
    (hlast : (newEvents s (park a i (commandOf i) x)).getLast? = some (.completed a j r)) :
    ((park a i (commandOf i) x).agent a).seq = .idle ∧ (isBusCommand j = true → (park a i (commandOf i) x).bus.owner = none) := by
  have hnot (t : State) (ht : t.history = s.history ++ es) (hl : (newEvents s t).getLast? = some (.completed a j r)) : False := by
    rw [newEvents_of_append ht] at hl
    exact hno a j r (List.mem_of_getLast? hl)
  cases x with
  | waiting l t => exact (hnot _ hes hlast).elim
  | faulted f t => exact (hnot _ hes hlast).elim
  | finished r' t =>
    have hhist : (park a i (commandOf i) (.finished r' t)).history = s.history ++ (es ++ [.completed a i r']) := by
      have ht : t.history = s.history ++ es := hes
      simp [park, ht]
    rw [newEvents_of_append hhist, List.getLast?_concat] at hlast
    cases hlast
    refine ⟨?_, fun hb => ?_⟩
    · rw [park, agent_setSeq, if_pos rfl]
    · simp [park, ownsBus_of_isBusCommand hb]

/-- Settles O13: a completion is recorded where an operation comes to rest finished, or where a check ends it with an error before it
begins; a check of a bus command that ends it so found the bus free. -/
theorem completionLeavesAgentIdleAndBusFree : Obligations.CompletionLeavesAgentIdleAndBusFree := by
  unfold Obligations.CompletionLeavesAgentIdleAndBusFree
  intro s t a i r h hlast
  have hsame (ht : t.history = s.history) : False := by
    rw [newEvents_of_append (es := []) (by simpa using ht)] at hlast
    cases hlast
  rcases agentStep_next h with ⟨hidle, ⟨j, u, hf, rfl⟩ | hf | ⟨-, rfl⟩⟩ | ⟨j, l, hbusy, ⟨p, -, rfl⟩ | ⟨-, rfl⟩⟩
  · obtain ⟨ws, -, rfl⟩ := fetch_command hf
    rcases begin_cases a j (s.setPending a ws) with ⟨f, -, hb⟩ | ⟨e, he, hb⟩ | ⟨-, hb⟩
    · rw [hb] at hsame
      exact (hsame rfl).elim
    · have hhist : (begin a j (s.setPending a ws)).history = s.history ++ [.completed a j (.error e)] := by
        rw [hb, State.deliver_history, State.setPending_history]
      rw [newEvents_of_append hhist] at hlast
      cases hlast
      rw [hb, State.deliver_bus]
      refine ⟨?_, fun hbus => owner_of_error hbus he⟩
      simp only [State.agent, State.deliver_agents]
      exact (congrArg HostAgent.seq (agent_setPending s a a ws)).trans (by rw [if_pos rfl]; exact hidle)
    · rw [hb] at hlast ⊢
      refine park_completion (es := []) ?_ (fun _ _ _ h => by cases h) hlast
      rw [settle_history, enter_history]
      simp
  · obtain ⟨ws, rfl⟩ := fetch_refusal hf
    exact (hsame rfl).elim
  · exact (hsame rfl).elim
  · obtain ⟨es, hes, hno⟩ := microStep_history a p l s
    exact park_completion hes hno hlast
  · exact (hsame rfl).elim

/-! ## Reset -/

/-- Settles O15. -/
theorem resetIsProcessStart : Obligations.ResetIsProcessStart := by
  unfold Obligations.ResetIsProcessStart
  have hpin (p : Nat) : State.reset.pin p = Pin.initial ∨ State.reset.pin p = Pin.absent := by
    rcases Nat.lt_or_ge p Config.defaultNumPins with hp | hp
    · exact .inl (by simp [State.pin, State.reset, List.getD_eq_getElem?_getD, hp])
    · exact .inr (by simp [State.pin, State.reset, List.getD_eq_getElem?_getD, Nat.not_lt.2 hp])
  refine ⟨rfl, fun p => ?_, rfl, fun a => rfl, rfl, rfl, rfl⟩
  rcases hpin p with h | h <;> rw [h] <;> exact ⟨rfl, rfl⟩

/-- Settles O16: no counter value has been read, no bus register holds a value, and no agent has an operation in flight. -/
theorem resetMeetsTheInvariants : Obligations.ResetMeetsTheInvariants := by
  unfold Obligations.ResetMeetsTheInvariants
  refine ⟨⟨List.Pairwise.nil, fun t ht => (List.not_mem_nil ht).elim⟩, by decide, ?_, ?_, ?_, ?_, ?_⟩
  · intro p h; cases h
  · intro p h; cases h
  · intro p q h; cases h
  · intro h q hh; cases hh
  · intro a scl sda freq l h; cases h

end Sys2Proof.Machine
end

section
/-! SUPPORT. The whole command and its micro-steps taken alone (spec/10_state.md R21), and which registers a command can write (R22, R28,
R30). -/

namespace Sys2Proof.Machine

/-! ## Running does not depend on the agents -/

/-- The state with these agents. -/
def State.withAgents (xs : List HostAgent) (s : State) : State := { s with agents := xs }

/-- The end with these agents in its state. -/
def Ended.withAgents (xs : List HostAgent) : Ended → Ended
  | .finished r t => .finished r (t.withAgents xs)
  | .faulted f t => .faulted f (t.withAgents xs)

theorem memRead_withAgents {a : AgentId} {off : Nat} {s : State} (xs : List HostAgent) :
    memRead a off (s.withAgents xs) = (memRead a off s).map fun x => (x.1, x.2.withAgents xs) := by
  unfold memRead State.withAgents
  dsimp only [State.numPins]
  split
  · split <;> rfl
  · rfl

theorem memWrite_withAgents {a : AgentId} {off : Nat} {v : Word} {s : State} (xs : List HostAgent) :
    memWrite a off v (s.withAgents xs) = (memWrite a off v s).map (State.withAgents xs) := by
  unfold memWrite State.withAgents
  dsimp only
  split
  · split <;> rfl
  · rfl

theorem assign_withAgents (u : Assign) (s : State) (xs : List HostAgent) :
    (s.withAgents xs).assign u = (s.assign u).withAgents xs := by
  cases u <;> rfl

theorem regsTaken_withAgents (s : State) (xs : List HostAgent) : (s.withAgents xs).regsTaken = s.regsTaken.withAgents xs := by
  unfold State.regsTaken State.withAgents
  dsimp only
  split <;> rfl

/-- A program runs the same whatever the agents' records are. -/
theorem run_withAgents (a : AgentId) (p : Prog) (s : State) (xs : List HostAgent) :
    p.run a (s.withAgents xs) = (p.run a s).withAgents xs := by
  induction p generalizing s with
  | done r => rfl
  | read off k ih =>
    rw [Prog.run, Prog.run, memRead_withAgents]
    cases memRead a off s with
    | error f => rfl
    | ok x => exact ih x.1 x.2
  | write off v k ih =>
    rw [Prog.run, Prog.run, memWrite_withAgents]
    cases memWrite a off v s with
    | error f => rfl
    | ok t => exact ih t
  | tick k ih => exact ih (Machine.tick a s).1 (Machine.tick a s).2
  | wait n k ih => exact ih (waitUntil a n s).1 (waitUntil a n s).2
  | look k ih =>
    rw [Prog.run, Prog.run, regsTaken_withAgents]
    exact ih _ _
  | set u k ih =>
    rw [Prog.run, Prog.run, assign_withAgents]
    exact ih _
  | ask k ih => exact ih s.nextPlatform s.platformTaken

/-! ## The micro-steps of a program taken alone -/

/-- The micro-step of an agent in the place where it waits. -/
theorem agentStep_waiting {a : AgentId} {i : Instr} {p : Prog} {l : List Answer} {s : State}
    (hp : ((commandOf i).body s.params).resume l = some p) :
    agentStep a (s.setSeq a (.busy i l)) = .next (park a i (commandOf i) (microStep a p l (s.setSeq a (.busy i l)))) := by
  have hseq : ((s.setSeq a (.busy i l)).agent a).seq = .busy i l := by rw [agent_setSeq, if_pos rfl]
  have hrest : restOf i l (s.setSeq a (.busy i l)) = some p := hp
  simp only [agentStep, hseq, hrest]

/-- A program that has finished would have finished with other agents' records too. -/
theorem run_finished_withAgents {a : AgentId} {p : Prog} {s t : State} {r : Reply} (h : p.run a s = .finished r t)
    (xs : List HostAgent) : p.run a (s.withAgents xs) = .finished r (t.withAgents xs) := by
  rw [run_withAgents, h]
  rfl

/-- One answer more is the rest resumed with it. -/
theorem resume_concat {p q : Prog} {l : List Answer} (h : p.resume l = some q) (x : Answer) : p.resume (l ++ [x]) = q.resume [x] := by
  rw [resume_append, h]
  rfl

/-- Where agent `a` has ended its operation alone, the agents' records having been `xs`: the state is `t` but for the records, and of those
only the sequencer of `a` is another. -/
structure EndsAlone (a : AgentId) (xs : List HostAgent) (t u : State) : Prop where
  state : u.withAgents t.agents = t
  idle : (u.agent a).seq = .idle
  pending : (u.agent a).pending = (xs.getD a HostAgent.none).pending
  others : ∀ c, c ≠ a → u.agent c = xs.getD c HostAgent.none

section
variable {a : AgentId} {i : Instr} {p : Prog} {l : List Answer} {s t x : State} {r : Reply}

/-- Delivering the result and leaving the sequencer idle ends an operation. -/
theorem endsAlone_deliver (own : Bool) : EndsAlone a s.agents (s.deliver a i own r) ((s.deliver a i own r).setSeq a .idle) := by
  have hagent (c : AgentId) : (s.deliver a i own r).agent c = s.agent c := by simp only [State.agent, State.deliver_agents]
  refine ⟨rfl, ?_, ?_, fun c hc => ?_⟩
  · rw [agent_setSeq, if_pos rfl]
  · rw [agent_setSeq, if_pos rfl, hagent]
    rfl
  · rw [agent_setSeq, if_neg hc, hagent]
    rfl

/-- The sequencer of `a` and the records with which its operation went on do not matter at its end. -/
theorem EndsAlone.of_setSeq {q : Seq} {own : Bool} {u : State}
    (h : EndsAlone a (s.setSeq a q).agents ((t.withAgents (s.setSeq a q).agents).deliver a i own r) u) :
    EndsAlone a s.agents (t.deliver a i own r) u := by
  refine ⟨?_, h.idle, h.pending.trans ?_, fun c hc => (h.others c hc).trans ?_⟩
  · have hu := congrArg (State.withAgents t.agents) h.state
    cases own <;> exact hu
  · exact (congrArg HostAgent.pending (agent_setSeq s a a q)).trans (by rw [if_pos rfl]; rfl)
  · exact (agent_setSeq s a c q).trans (if_neg hc)

/-- One micro-step of the agent from where it waits, and its steps from there on. -/
theorem agentSteps_waiting {p' : Prog} {l' : List Answer} (hp : ((commandOf i).body s.params).resume l = some p)
    (hm : microStep a p l (s.setSeq a (.busy i l)) = p'.settle l' (x.withAgents (s.setSeq a (.busy i l)).agents))
    (hrest : ∃ n u, agentSteps a n (park a i (commandOf i) (p'.settle l' (x.withAgents (s.setSeq a (.busy i l)).agents))) = .next u ∧
      EndsAlone a (s.setSeq a (.busy i l)).agents
        ((t.withAgents (s.setSeq a (.busy i l)).agents).deliver a i (commandOf i).ownsBus r) u) :
    ∃ n u, agentSteps a n (park a i (commandOf i) (.waiting l s)) = .next u ∧
      EndsAlone a s.agents (t.deliver a i (commandOf i).ownsBus r) u := by
  obtain ⟨n, u, hn, hu⟩ := hrest
  refine ⟨n + 1, u, ?_, hu.of_setSeq⟩
  rw [park, agentSteps, agentStep_waiting hp, hm]
  exact hn

/-- From where agent `a` has come to rest in its operation, what is left being `p`, its steps alone end as the run of `p` does. -/
theorem agentSteps_park (hp : ((commandOf i).body s.params).resume l = p.resume []) (hr : p.run a s = .finished r t) :
    ∃ n u, agentSteps a n (park a i (commandOf i) (p.settle l s)) = .next u ∧
      EndsAlone a s.agents (t.deliver a i (commandOf i).ownsBus r) u := by
  induction p generalizing l s t with
  | done r' =>
    cases hr
    exact ⟨0, _, rfl, endsAlone_deliver _⟩
  | read off k ih =>
    rw [Prog.run] at hr
    split at hr
    case h_2 => cases hr
    case h_1 w y hy =>
      refine agentSteps_waiting (x := y) (l' := l ++ [.word w]) hp ?_ (ih w ?_ (run_finished_withAgents hr _))
      · have hread := memRead_withAgents (a := a) (off := off) (s := s) (s.setSeq a (.busy i l)).agents
        rw [hy] at hread
        simp only [microStep]
        rw [show s.setSeq a (.busy i l) = s.withAgents (s.setSeq a (.busy i l)).agents from rfl, hread]
        rfl
      · rw [← (memRead_runs hy).advances.params] at hp
        exact resume_concat hp _
  | write off v k ih =>
    rw [Prog.run] at hr
    split at hr
    case h_2 => cases hr
    case h_1 y hy =>
      refine agentSteps_waiting (x := y) (l' := l ++ [.written]) hp ?_ (ih ?_ (run_finished_withAgents hr _))
      · have hwrite := memWrite_withAgents (a := a) (off := off) (v := v) (s := s) (s.setSeq a (.busy i l)).agents
        rw [hy] at hwrite
        simp only [microStep]
        rw [show s.setSeq a (.busy i l) = s.withAgents (s.setSeq a (.busy i l)).agents from rfl, hwrite]
        rfl
      · rw [← (memWrite_runs hy).advances.params] at hp
        exact resume_concat hp _
  | tick k ih =>
    exact agentSteps_waiting (x := (Machine.tick a s).2) hp rfl
      (ih _ (resume_concat hp _) (run_finished_withAgents hr (s.setSeq a (.busy i l)).agents))
  | wait n k ih =>
    exact agentSteps_waiting (x := (waitUntil a n s).2) hp rfl
      (ih _ (resume_concat hp _) (run_finished_withAgents hr (s.setSeq a (.busy i l)).agents))
  | look k ih =>
    have h := ih s.regsRead (l := l ++ [.regs s.regsRead]) (s := s.regsTaken)
      (by rw [State.regsTaken_params]; exact resume_concat hp _) hr
    rwa [State.regsTaken_agents] at h
  | set u k ih =>
    have h := ih (l := l) (s := s.assign u) (by rw [State.assign_params]; exact hp) hr
    rwa [State.assign_agents] at h
  | ask k ih => exact ih s.nextPlatform (s := s.platformTaken) (resume_concat hp _) hr

end

/-- How a command ends that raises no fault: by an error of its checks, or with the result of its body. -/
theorem commandResult_cases {i : Instr} {c : Command} {s t : State} (h : commandResult i c s = t) (hf : t.faults = s.faults) :
    (∃ e, firstStop (c.checks s) = some (.error e) ∧ t = s.deliver s.turn i false (.error e)) ∨
    (firstStop (c.checks s) = none ∧
      ∃ r u, (c.body s.params).run s.turn (c.enter s.turn s) = .finished r u ∧ t = u.deliver s.turn i c.ownsBus r) := by
  unfold commandResult at h
  split at h
  case h_1 f _ =>
    subst h
    simp at hf
  case h_2 e he => exact .inl ⟨e, he, h.symm⟩
  case h_3 hc =>
    refine .inr ⟨hc, ?_⟩
    have hruns := (enter_runs c s.turn s).trans (run_runs s.turn (c.body s.params) (c.enter s.turn s))
    split at h
    case h_1 r u hr => exact ⟨r, u, hr, h.symm⟩
    case h_2 f u hr =>
      rw [hr] at hruns
      have hu : u.faults = s.faults := hruns.faults
      subst h
      simp [hu] at hf

/-- Entering a command does not look at the agents' records. -/
theorem enter_withAgents (c : Command) (a : AgentId) (s : State) (xs : List HostAgent) :
    c.enter a (s.withAgents xs) = (c.enter a s).withAgents xs := by
  unfold Command.enter
  split <;> rfl

/-- Settles O14: an error of the checks ends the command where it begins; else the agent's steps alone from the beginning on end as the run
of the body does, which does not look at the agents' records. -/
theorem microStepsAloneAreTheCommand : Obligations.MicroStepsAloneAreTheCommand := by
  unfold Obligations.MicroStepsAloneAreTheCommand
  intro i s t hidle h hf
  rw [exec_eq] at h
  injection h with h
  rcases commandResult_cases h hf with ⟨e, he, rfl⟩ | ⟨hc, r, u, hr, rfl⟩
  · have hbegin : begin s.turn i s = s.deliver s.turn i false (.error e) := by rw [begin, he]
    exact ⟨0, _, by rw [hbegin, agentSteps], rfl, fun _ => rfl⟩
  · have hstart := run_finished_withAgents hr (s.setSeq s.turn (.busy i [])).agents
    rw [← enter_withAgents] at hstart
    have hparams : ((commandOf i).enter s.turn (s.withAgents (s.setSeq s.turn (.busy i [])).agents)).params = s.params :=
      (enter_runs _ _ _).advances.params
    have hkept : ((commandOf i).enter s.turn (s.withAgents (s.setSeq s.turn (.busy i [])).agents)).agents =
        (s.setSeq s.turn (.busy i [])).agents := (enter_runs _ _ _).agents
    obtain ⟨n, w, hn, hw⟩ := agentSteps_park (l := []) (by rw [hparams]) hstart
    rw [hkept] at hw
    have hend := hw.of_setSeq
    have hagents : (u.deliver s.turn i (commandOf i).ownsBus r).agents = s.agents := by
      rw [← h]
      exact (commandResult_keeps i (commandOf i) s).2.1
    refine ⟨n, w, ?_, hend.state, fun c => ?_⟩
    · rw [begin, hc]
      exact hn
    · have hagent : (u.deliver s.turn i (commandOf i).ownsBus r).agent c = s.agent c := congrArg (·.getD c HostAgent.none) hagents
      rw [hagent]
      by_cases hcase : c = s.turn
      · subst hcase
        have hrecord : w.agent s.turn = ⟨.idle, (s.agent s.turn).pending⟩ := by
          rw [← hend.idle, show (s.agent s.turn).pending = (w.agent s.turn).pending from hend.pending.symm]
        rw [hrecord, ← hidle]
      · exact hend.others c hcase

/-! ## Which registers a command can write -/

theorem Prog.AssignsOnly.mono {q q' : Assign → Prop} {p : Prog} (h : p.AssignsOnly q) (hq : ∀ u, q u → q' u) : p.AssignsOnly q' := by
  induction p with
  | done r => trivial
  | read off k ih => exact fun w => ih w (h w)
  | write off v k ih => exact ih h
  | tick k ih => exact fun n => ih n (h n)
  | wait n k ih => exact fun n => ih n (h n)
  | look k ih => exact fun b => ih b (h b)
  | set u k ih => exact ⟨hq u h.1, ih h.2⟩
  | ask k ih => exact fun x => ih x (h x)

/-- A property of the map and the bus that a command's assignments keep, and that does not look at the owner where the command holds the
bus, holds after the command. -/
theorem commandResult_keeps_inv (inv : RegisterMap → Bus → Prop) (q : Assign → Prop) {i : Instr} {s : State}
    (hbody : ((commandOf i).body s.params).AssignsOnly q)
    (hq : ∀ (t : State) (u : Assign), q u → inv t.map t.bus → inv (t.assign u).map (t.assign u).bus)
    (howner : (commandOf i).ownsBus = true → ∀ m b o, inv m b → inv m { b with owner := o }) (hs : inv s.map s.bus) :
    inv (commandResult i (commandOf i) s).map (commandResult i (commandOf i) s).bus := by
  have henter : inv ((commandOf i).enter s.turn s).map ((commandOf i).enter s.turn s).bus := by
    unfold Command.enter
    split
    case isTrue ho => exact howner ho _ _ _ hs
    case isFalse => exact hs
  have hrun := run_keeps inv q hq s.turn _ _ hbody henter
  unfold commandResult
  split
  case h_1 => exact hs
  case h_2 => exact hs
  case h_3 =>
    split
    case h_1 r t ht =>
      rw [ht] at hrun
      rw [State.deliver_map, State.deliver_bus]
      split
      case isTrue ho => exact howner ho _ _ _ hrun
      case isFalse => exact hrun
    case h_2 f t ht =>
      rw [ht] at hrun
      exact hrun

/-- The commands besides OPEN and CLOSE do not assign the map's attributes. -/
theorem assignsOf_map {i : Instr} {u : Assign} (ho : i ≠ .openMap) (hc : i ≠ .closeMap) (h : assignsOf i u) (s : State) :
    (s.assign u).map = s.map := by
  have hbus (h : BusAssign u) : (s.assign u).map = s.map := by
    cases u with
    | pinDir | pinLast | busDir | lastEdge => rfl
    | busSetup | busConfigured | busCleared | mapOpened | mapClosed => exact h.elim
  cases i with
  | openMap => exact absurd rfl ho
  | closeMap => exact absurd rfl hc
  | rdw | wrw => exact h.elim
  | pcfgo | pcfgi | pset =>
    cases h
    rfl
  | pget =>
    obtain ⟨v, rfl⟩ := h
    rfl
  | i2cinit => rcases h with ⟨p, d, rfl⟩ | ⟨p, v, rfl⟩ | ⟨t, rfl⟩ | rfl | ⟨rate, rfl⟩ <;> rfl
  | i2cdisp => rcases h with ⟨p, d, rfl⟩ | rfl <;> rfl
  | setwm | setrm | wbit | rbit | start | stop | wbyte | rbyte | wbytes | write | read => exact hbus h

/-- The commands that are neither I2CINIT nor a bus command do not assign the bus registers. -/
theorem assignsOf_bus {i : Instr} {u : Assign} (hb : isBusCommand i = false) (hi : ∀ scl sda freq, i ≠ .i2cinit scl sda freq)
    (h : assignsOf i u) (s : State) : (s.assign u).bus = s.bus := by
  cases i with
  | openMap =>
    obtain ⟨b, rfl⟩ := h
    rfl
  | closeMap =>
    cases h
    rfl
  | rdw | wrw => exact h.elim
  | pcfgo | pcfgi | pset =>
    cases h
    rfl
  | pget =>
    obtain ⟨v, rfl⟩ := h
    rfl
  | i2cinit scl sda freq => exact absurd rfl (hi scl sda freq)
  | i2cdisp | setwm | setrm | wbit | rbit | start | stop | wbyte | rbyte | wbytes | write | read => cases hb

/-- The bus commands but I2CDISP make the assignments of the bus procedures. -/
theorem assignsOf_eq_busAssign {i : Instr} (hb : isBusCommand i = true) (hi : i ≠ .i2cdisp) : assignsOf i = BusAssign := by
  cases i with
  | openMap | closeMap | rdw | wrw | pcfgo | pcfgi | pset | pget | i2cinit => cases hb
  | i2cdisp => exact absurd rfl hi
  | setwm | setrm | wbit | rbit | start | stop | wbyte | rbyte | wbytes | write | read => rfl

/-- The assignments of the bus procedures write `dir` and `lastEdge` alone of the bus registers. -/
theorem busAssign_bus {u : Assign} (h : BusAssign u) (s : State) :
    (s.assign u).bus = { s.bus with dir := (s.assign u).bus.dir, lastEdge := (s.assign u).bus.lastEdge } := by
  cases u with
  | pinDir | pinLast | busDir | lastEdge => rfl
  | busSetup | busConfigured | busCleared | mapOpened | mapClosed => exact h.elim

/-- A command that is neither I2CINIT nor a bus command does not hold the bus. -/
theorem ownsBus_eq_false {i : Instr} (hb : isBusCommand i = false) (hi : ∀ scl sda freq, i ≠ .i2cinit scl sda freq) :
    (commandOf i).ownsBus = false := by
  cases i with
  | openMap | closeMap | rdw | wrw | pcfgo | pcfgi | pset | pget => rfl
  | i2cinit scl sda freq => exact absurd rfl (hi scl sda freq)
  | i2cdisp | setwm | setrm | wbit | rbit | start | stop | wbyte | rbyte | wbytes | write | read => cases hb

/-- Settles O20: each clause is a property of the map and the bus that the assignments of the commands it names keep. -/
theorem registersAreWrittenOnlyByTheirOperations : Obligations.RegistersAreWrittenOnlyByTheirOperations := by
  unfold Obligations.RegistersAreWrittenOnlyByTheirOperations
  intro i s t h
  rw [exec_eq] at h
  cases h
  have hbody := body_assigns i s.params
  refine ⟨fun ho hc => ?_, fun hb hi => ?_, fun hb hi => ?_⟩
  · exact commandResult_keeps_inv (fun m _ => m = s.map) _ hbody (fun t u hu ht => (assignsOf_map ho hc hu t).trans ht)
      (fun _ _ _ _ hm => hm) rfl
  · refine commandResult_keeps_inv (fun _ b => b = s.bus) _ hbody (fun t u hu ht => (assignsOf_bus hb hi hu t).trans ht) ?_ rfl
    intro ho
    rw [ownsBus_eq_false hb hi] at ho
    cases ho
  · rw [assignsOf_eq_busAssign hb hi] at hbody
    refine commandResult_keeps_inv (fun _ b => b = { s.bus with dir := b.dir, lastEdge := b.lastEdge, owner := b.owner }) _ hbody
      (fun t u hu ht => ?_) (fun _ _ b o hm => ?_) rfl
    · rw [busAssign_bus hu t, ht]
    · rw [hm]

/-! ## The tick counts (R153) -/

/-- `ceilDiv` is the least number of `b`s that reach `a`. -/
theorem ceilDiv_le_iff {a b n : Nat} (hb : 0 < b) : ceilDiv a b ≤ n ↔ a ≤ n * b := by
  rw [ceilDiv, ← Nat.lt_succ_iff, Nat.div_lt_iff_lt_mul hb, Nat.succ_mul]
  omega

/-- The tick counts of a positive rate and frequency. -/
theorem quarterPeriodTicks_bounds {rate freq : Nat} (hr : 0 < rate) (hf : 0 < freq) :
    1 ≤ quarterPeriodTicks rate freq ∧ quarterPeriodTicks rate freq ≤ halfPeriodTicks rate freq := by
  have h2 : 0 < 2 * freq := by omega
  have h4 : 0 < 4 * freq := by omega
  constructor
  · by_contra hlt
    have := (ceilDiv_le_iff h4).1 (show ceilDiv rate (4 * freq) ≤ 0 by rw [quarterPeriodTicks] at hlt; omega)
    omega
  · refine (ceilDiv_le_iff h4).2 (Nat.le_trans ((ceilDiv_le_iff h2).1 (Nat.le_refl (halfPeriodTicks rate freq))) ?_)
    exact Nat.mul_le_mul_left _ (by omega)

/-- Settles O38. -/
theorem tickCountsAreExactCeilings : Obligations.TickCountsAreExactCeilings := by
  unfold Obligations.TickCountsAreExactCeilings
  intro rate freq hr hf
  have h2 : 0 < 2 * freq := by omega
  have h4 : 0 < 4 * freq := by omega
  exact ⟨rfl, rfl, (ceilDiv_le_iff h2).1 (Nat.le_refl _), fun n hn => (ceilDiv_le_iff h2).2 hn,
    (ceilDiv_le_iff h4).1 (Nat.le_refl _), fun n hn => (ceilDiv_le_iff h4).2 hn, quarterPeriodTicks_bounds hr hf⟩

end Sys2Proof.Machine
end

section
/-! SUPPORT. The bus registers stay sound over all agents and interleavings (spec/10_state.md R30, spec/42_i2c_primitives.md R141, R153). -/

namespace Sys2Proof.Machine

/-- The bus registers of a controller of `n` pins are sound: the pins exist and differ, and the tick counts are ordered. -/
structure Bus.Sound (n : Nat) (b : Bus) : Prop where
  scl : ∀ p, b.scl = some p → p < n
  sda : ∀ p, b.sda = some p → p < n
  distinct : ∀ p q, b.scl = some p → b.sda = some q → p ≠ q
  periods : ∀ h q, b.halfPeriod = some h → b.quarterPeriod = some q → 1 ≤ q ∧ q ≤ h

/-- The arguments of an I2CINIT have passed its checks (R141); every other command has none to pass. -/
def InitArguments (n : Nat) (i : Instr) : Prop :=
  ∀ scl sda freq, i = .i2cinit scl sda freq → scl.toNat < n ∧ sda.toNat < n ∧ scl ≠ sda ∧ freq ≠ 0#32

/-- The agents' I2CINITs in flight have passed their checks. -/
def InitsChecked (n : Nat) (xs : List HostAgent) : Prop :=
  ∀ a i l, (xs.getD a HostAgent.none).seq = .busy i l → InitArguments n i

/-- Soundness of the state is that of its three parts. -/
theorem busSound_iff (s : State) :
    s.busSound ↔ 0 < s.params.clockRate ∧ s.bus.Sound s.numPins ∧ InitsChecked s.numPins s.agents := by
  constructor
  · rintro ⟨hrate, hscl, hsda, hne, hper, hin⟩
    refine ⟨hrate, ⟨hscl, hsda, hne, hper⟩, ?_⟩
    rintro a i l hb scl sda freq rfl
    exact hin a scl sda freq l hb
  · rintro ⟨hrate, ⟨hscl, hsda, hne, hper⟩, hin⟩
    exact ⟨hrate, hscl, hsda, hne, hper, fun a scl sda freq l hb => hin a _ l hb scl sda freq rfl⟩

/-! ## The assignments -/

/-- An assignment that keeps the bus registers of `n` pins sound: I2CINIT's is of checked arguments and positive tick counts. -/
def SoundAssign (n : Nat) : Assign → Prop
  | .busSetup scl sda h q => scl < n ∧ sda < n ∧ scl ≠ sda ∧ 1 ≤ q ∧ q ≤ h
  | _ => True

theorem Bus.Sound.owner {n : Nat} {b : Bus} (h : b.Sound n) (o : Option AgentId) : ({ b with owner := o } : Bus).Sound n :=
  ⟨h.scl, h.sda, h.distinct, h.periods⟩

/-- A sound assignment keeps the registers sound. -/
theorem soundAssign_bus {n : Nat} (s : State) (u : Assign) (hu : SoundAssign n u) (hs : s.bus.Sound n) : (s.assign u).bus.Sound n := by
  cases u with
  | pinDir | pinLast | mapOpened | mapClosed => exact hs
  | busDir | lastEdge | busConfigured => exact ⟨hs.scl, hs.sda, hs.distinct, hs.periods⟩
  | busCleared =>
    refine ⟨fun _ h => ?_, fun _ h => ?_, fun _ _ h => ?_, fun _ _ h => ?_⟩
    all_goals cases h
  | busSetup scl sda hp qp =>
    obtain ⟨h1, h2, h3, h4, h5⟩ := hu
    refine ⟨fun _ h => ?_, fun _ h => ?_, fun _ _ h h' => ?_, fun _ _ h h' => ?_⟩
    · cases h; exact h1
    · cases h; exact h2
    · cases h; cases h'; exact h3
    · cases h; cases h'; exact ⟨h4, h5⟩

theorem soundAssign_of_busAssign {n : Nat} {u : Assign} (h : BusAssign u) : SoundAssign n u := by
  cases u with
  | busSetup => exact h.elim
  | pinDir | pinLast | busDir | lastEdge | busConfigured | busCleared | mapOpened | mapClosed => trivial

/-- Every command makes sound assignments, where the counter runs and its arguments have passed the checks. -/
theorem body_soundAssigns {n : Nat} {i : Instr} {P : Params} (hrate : 0 < P.clockRate) (hi : InitArguments n i) :
    ((commandOf i).body P).AssignsOnly (SoundAssign n) := by
  cases i with
  | i2cinit scl sda freq =>
    obtain ⟨h1, h2, h3, h4⟩ := hi scl sda freq rfl
    have hfreq : 0 < freq.toNat := Nat.pos_of_ne_zero fun h => h4 (BitVec.eq_of_toNat_eq h)
    obtain ⟨hq, hh⟩ := quarterPeriodTicks_bounds hrate hfreq
    exact ⟨trivial, fun _ => ⟨trivial, trivial, fun _ => ⟨trivial,
      ⟨h1, h2, fun h => h3 (BitVec.eq_of_toNat_eq h), hq, hh⟩, fun _ => ⟨trivial, trivial, trivial⟩⟩⟩⟩
  | openMap => exact (body_assigns .openMap P).mono (by rintro u ⟨b, rfl⟩; trivial)
  | closeMap => exact ⟨trivial, trivial⟩
  | rdw | wrw => exact (body_assigns _ P).mono fun _ h => h.elim
  | pcfgo | pcfgi | pset => exact (body_assigns _ P).mono (by rintro u rfl; trivial)
  | pget pin => exact (body_assigns (.pget pin) P).mono (by rintro u ⟨v, rfl⟩; trivial)
  | i2cdisp => exact (body_assigns .i2cdisp P).mono (by rintro u (⟨p, d, rfl⟩ | rfl) <;> trivial)
  | setwm | setrm | wbit | rbit | start | stop | wbyte | rbyte | wbytes | write | read =>
    exact (body_assigns _ P).mono fun _ => soundAssign_of_busAssign

/-- Where no check stops a command, none of them fails. -/
theorem check_passes {l : List (Bool × Stop)} (h : firstStop l = none) {x : Bool × Stop} (hx : x ∈ l) : x.1 = false := by
  induction l with
  | nil => cases hx
  | cons y l ih =>
    obtain ⟨failed, stop⟩ := y
    cases failed with
    | true => cases h
    | false =>
      rcases List.mem_cons.1 hx with rfl | hx
      · rfl
      · exact ih h hx

/-- A command whose checks pass has arguments that pass I2CINIT's. -/
theorem initArguments_of_checks {i : Instr} {s : State} (h : firstStop ((commandOf i).checks s) = none) : InitArguments s.numPins i := by
  rintro scl sda freq rfl
  have hlast := check_passes h (List.mem_cons_of_mem _ (List.mem_cons_of_mem _ List.mem_cons_self))
  simpa [Nat.not_le] using hlast

/-! ## The parts of a step -/

theorem InitsChecked.setSeq {n : Nat} {s : State} (h : InitsChecked n s.agents) (a : AgentId) {q : Seq}
    (hq : ∀ i l, q = .busy i l → InitArguments n i) : InitsChecked n (s.setSeq a q).agents := by
  intro c i l hb
  have hrec : (s.setSeq a q).agent c = if c = a then { s.agent a with seq := q } else s.agent c := agent_setSeq s a c q
  have hb' : ((s.setSeq a q).agent c).seq = .busy i l := hb
  rw [hrec] at hb'
  split at hb'
  · exact hq i l hb'
  · exact h c i l hb'

theorem State.busSound.setSeq {s : State} (h : s.busSound) (a : AgentId) {q : Seq}
    (hq : ∀ i l, q = .busy i l → InitArguments s.numPins i) : (s.setSeq a q).busSound := by
  rw [busSound_iff] at h ⊢
  exact ⟨h.1, h.2.1, h.2.2.setSeq a hq⟩

/-- Soundness goes on to a state with the same agents and pins and sound registers. -/
theorem State.busSound.of_advances {s t : State} (h : s.busSound) (hadv : s.Advances t) (hagents : t.agents = s.agents)
    (hbus : t.bus.Sound s.numPins) : t.busSound := by
  rw [busSound_iff] at h ⊢
  rw [hadv.params, hadv.numPins, hagents]
  exact ⟨h.1, hbus, h.2.2⟩

theorem State.busSound.deliver {s : State} (h : s.busSound) (a : AgentId) (i : Instr) (own : Bool) (r : Reply) :
    (s.deliver a i own r).busSound := by
  refine h.of_advances (deliver_runs a i own r s).advances (s.deliver_agents a i own r) ?_
  have hbus := ((busSound_iff s).1 h).2.1
  rw [State.deliver_bus]
  split
  · exact hbus.owner none
  · exact hbus

theorem State.busSound.enter {s : State} (h : s.busSound) (c : Command) (a : AgentId) : (c.enter a s).busSound := by
  refine h.of_advances (enter_runs c a s).advances (enter_runs c a s).agents ?_
  have hbus := ((busSound_iff s).1 h).2.1
  unfold Command.enter
  split
  · exact hbus.owner _
  · exact hbus

section
variable {s : State} (h : s.busSound) {p : Prog} (hp : p.AssignsOnly (SoundAssign s.numPins)) (a : AgentId)
include h hp

theorem State.busSound.run : (p.run a s).state.busSound :=
  h.of_advances (run_runs a p s).advances (run_runs a p s).agents
    (run_keeps (fun _ b => b.Sound s.numPins) _ soundAssign_bus a p s hp ((busSound_iff s).1 h).2.1)

theorem State.busSound.settle (l : List Answer) : (p.settle l s).state.busSound :=
  h.of_advances (settle_runs p l s).advances (settle_runs p l s).agents
    (settle_keeps (fun _ b => b.Sound s.numPins) _ soundAssign_bus p l s hp ((busSound_iff s).1 h).2.1)

theorem State.busSound.microStep (l : List Answer) : (microStep a p l s).state.busSound :=
  h.of_advances (microStep_runs a p l s).advances (microStep_runs a p l s).agents
    (microStep_keeps (fun _ b => b.Sound s.numPins) _ soundAssign_bus a p l s hp ((busSound_iff s).1 h).2.1)

end

theorem State.busSound.park {x : Settled} (h : x.state.busSound) (a : AgentId) {i : Instr} (hi : InitArguments x.state.numPins i)
    (c : Command) : (park a i c x).busSound := by
  cases x with
  | waiting l s => exact h.setSeq a (by rintro j m ⟨⟩; exact hi)
  | finished r s => exact (h.deliver a i c.ownsBus r).setSeq a (by rintro j m ⟨⟩)
  | faulted f s => exact h

/-- The body of a checked command makes sound assignments. -/
theorem State.busSound.body {s : State} (h : s.busSound) {i : Instr} (hi : InitArguments s.numPins i) :
    ((commandOf i).body s.params).AssignsOnly (SoundAssign s.numPins) :=
  body_soundAssigns ((busSound_iff s).1 h).1 hi

/-- The beginning of an operation keeps the bus registers sound: it goes on only where the checks pass. -/
theorem State.busSound.begin {s : State} (h : s.busSound) (a : AgentId) (i : Instr) : (begin a i s).busSound := by
  rcases begin_cases a i s with ⟨f, -, hb⟩ | ⟨e, -, hb⟩ | ⟨hc, hb⟩ <;> rw [hb]
  · exact h
  · exact h.deliver _ _ _ _
  · have hi := initArguments_of_checks hc
    have hseq : (s.setSeq a (.busy i [])).busSound := h.setSeq a (by rintro j m ⟨⟩; exact hi)
    have henter := hseq.enter (commandOf i) a
    have hpins : ((commandOf i).enter a (s.setSeq a (.busy i []))).numPins = s.numPins := (enter_runs _ _ _).advances.numPins
    refine (henter.settle (hpins ▸ h.body hi) []).park a ?_ _
    rw [(settle_runs _ _ _).advances.numPins, hpins]
    exact hi

/-- A whole command keeps the bus registers sound. -/
theorem State.busSound.commandResult {s : State} (h : s.busSound) (i : Instr) : (commandResult i (commandOf i) s).busSound := by
  unfold Machine.commandResult
  split
  case h_1 => exact h
  case h_2 => exact h.deliver _ _ _ _
  case h_3 hc =>
    have hpins : ((commandOf i).enter s.turn s).numPins = s.numPins := (enter_runs _ _ _).advances.numPins
    have hrun := (h.enter (commandOf i) s.turn).run (hpins ▸ h.body (initArguments_of_checks hc)) s.turn
    split
    case h_1 r t ht =>
      rw [ht] at hrun
      exact State.busSound.deliver hrun _ _ _ _
    case h_2 f t ht =>
      rw [ht] at hrun
      exact hrun

/-- The rest of an operation in flight makes sound assignments. -/
theorem State.busSound.rest {s : State} (h : s.busSound) {a : AgentId} {i : Instr} {l : List Answer} {p : Prog}
    (hb : (s.agent a).seq = .busy i l) (hp : restOf i l s = some p) :
    InitArguments s.numPins i ∧ p.AssignsOnly (SoundAssign s.numPins) := by
  have hi := ((busSound_iff s).1 h).2.2 a i l hb
  exact ⟨hi, resume_assignsOnly (h.body hi) hp⟩

theorem State.busSound.finish {s : State} (h : s.busSound) {p : Prog} (hp : p.AssignsOnly (SoundAssign s.numPins)) (a : AgentId)
    (i : Instr) : (finish a i p s).busSound := by
  have hrun := h.run hp a
  unfold Machine.finish
  split
  case h_1 r t ht =>
    rw [ht] at hrun
    exact (State.busSound.deliver hrun a i (commandOf i).ownsBus r).setSeq a (by rintro j m ⟨⟩)
  case h_2 f t ht =>
    rw [ht] at hrun
    exact hrun

theorem State.busSound.setPending {s : State} (h : s.busSound) (a : AgentId) (ws : List Word) : (s.setPending a ws).busSound := by
  rw [busSound_iff] at h ⊢
  refine ⟨h.1, h.2.1, fun c i l hb => h.2.2 c i l ?_⟩
  have hrec := agent_setPending s a c ws
  have hseq : ((s.setPending a ws).agent c).seq = (s.agent c).seq := by
    rw [hrec]
    split
    case isTrue hc => rw [hc]
    case isFalse => rfl
  exact hseq.symm.trans hb

theorem State.busSound.agentStep {s t : State} (h : s.busSound) {a : AgentId} (hs : agentStep a s = .next t) : t.busSound := by
  rcases agentStep_next hs with ⟨-, ⟨i, u, hf, rfl⟩ | hf | ⟨-, rfl⟩⟩ | ⟨i, l, hb, ⟨p, hp, rfl⟩ | ⟨-, rfl⟩⟩
  · obtain ⟨ws, -, rfl⟩ := fetch_command hf
    exact (h.setPending a ws).begin a i
  · obtain ⟨ws, rfl⟩ := fetch_refusal hf
    exact h.setPending a ws
  · exact h
  · obtain ⟨hi, hassigns⟩ := h.rest hb hp
    refine (h.microStep hassigns a l).park a ?_ _
    rw [(microStep_runs a p l s).advances.numPins]
    exact hi
  · exact h

theorem State.busSound.operationStep {s t : State} (h : s.busSound) (hs : operationStep s = .next t) : t.busSound := by
  rcases operationStep_next hs with ⟨-, ⟨i, u, hf, he⟩ | hf | ⟨-, rfl⟩⟩ | ⟨i, l, hb, ⟨p, hp, rfl⟩ | ⟨-, rfl⟩⟩
  · obtain ⟨ws, -, rfl⟩ := fetch_command hf
    rw [exec_eq] at he
    cases he
    exact (h.setPending _ ws).commandResult i
  · obtain ⟨ws, rfl⟩ := fetch_refusal hf
    exact h.setPending _ ws
  · exact h
  · exact h.finish (h.rest hb hp).2 _ _
  · exact h

/-- Settles O18: an operation begins only with checked arguments, and every assignment of a checked operation keeps the registers sound. -/
theorem busRegistersStaySound : Obligations.BusRegistersStaySound := by
  unfold Obligations.BusRegistersStaySound
  intro s t h hs
  rcases (step_next hs).2 with ⟨a, rest, -, ha⟩ | ⟨-, ho⟩
  · exact State.busSound.agentStep (s := { s with sched := rest }) h ha
  · exact h.operationStep ho

end Sys2Proof.Machine
end

section
/-! SUPPORT. No operation reads the pins' attributes (spec/10_state.md R29, R34): every function of a step gives of a state
and of the same state without those attributes the same, but for those attributes. -/

namespace Sys2Proof.Machine

/-- The pin without its Digital Pin attributes. -/
def Pin.bare (x : Pin) : Pin := { x with dir := none, last := none }

/-- The end of a run, its state without attributes. -/
def Ended.bare : Ended → Ended
  | .finished r s => .finished r s.withoutAttributes
  | .faulted f s => .faulted f s.withoutAttributes

/-- Where a program has come to rest, its state without attributes. -/
def Settled.bare : Settled → Settled
  | .waiting l s => .waiting l s.withoutAttributes
  | .finished r s => .finished r s.withoutAttributes
  | .faulted f s => .faulted f s.withoutAttributes

/-- What is fetched, its state without attributes. -/
def Fetched.bare : Fetched → Fetched
  | .command i s => .command i s.withoutAttributes
  | .refusal s => .refusal s.withoutAttributes
  | .incomplete c => .incomplete c
  | .nothing => .nothing

/-- An outcome, its state without attributes. -/
def bareOutcome : Host.Outcome State Fault Refusal → Host.Outcome State Fault Refusal
  | .next s => .next s.withoutAttributes
  | .fault f => .fault f
  | .refused r => .refused r

/-! ## The window -/

theorem map_bare_mapPins {f g : Nat → Pin → Pin} (h : ∀ p x, (f p x).bare = (g p x.bare).bare) (pins : List Pin) :
    (mapPins f pins).map Pin.bare = (mapPins g (pins.map Pin.bare)).map Pin.bare := by
  apply List.ext_getElem?
  intro p
  cases hx : pins[p]? with
  | none => simp [hx]
  | some x => simp [hx, h p x]

/-- A mapping that leaves the attributes alone. -/
theorem mapPins_bare {f : Nat → Pin → Pin} (h : ∀ p x, f p x.bare = (f p x).bare) (pins : List Pin) :
    mapPins f (pins.map Pin.bare) = (mapPins f pins).map Pin.bare := by
  apply List.ext_getElem?
  intro p
  cases hx : pins[p]? with
  | none => simp [hx]
  | some x => simp [hx, h p x]

theorem fselWord_bare (pins : List Pin) (w : Nat) (d : Word) : fselWord (pins.map Pin.bare) w d = fselWord pins w d := by
  unfold fselWord
  congr 1
  funext i
  rw [List.getElem?_map]
  cases pins[10 * w + i / fselBits]? <;> rfl

theorem levWord_bare (P : Params) (pins : List Pin) (w : Nat) (d : Word) :
    levWord P (pins.map Pin.bare) w d = levWord P pins w d := by
  unfold levWord
  congr 1
  funext i
  rw [List.getElem?_map]
  cases pins[32 * w + i]? <;> rfl

theorem writePins_bare (P : Params) (off : Nat) (v : Word) (pins : List Pin) :
    writePins P off v (pins.map Pin.bare) = (writePins P off v pins).map (List.map Pin.bare) := by
  unfold writePins
  rw [List.length_map]
  split
  case h_1 w _ => exact congrArg some (mapPins_bare (fun p x => by split <;> rfl) pins)
  case h_2 w _ => exact congrArg some (mapPins_bare (fun p x => by split <;> rfl) pins)
  case h_3 w _ => exact congrArg some (mapPins_bare (fun p x => by split <;> rfl) pins)
  case h_4 => rfl
  case h_5 => rfl

/-! ## The parts of a step -/

theorem withoutAttributes_numPins (s : State) : s.withoutAttributes.numPins = s.numPins := List.length_map _

theorem withoutAttributes_twice (s : State) : s.withoutAttributes.withoutAttributes = s.withoutAttributes := by
  simp [State.withoutAttributes]

@[simp] theorem withoutAttributes_map (s : State) : s.withoutAttributes.map = s.map := rfl

@[simp] theorem withoutAttributes_params (s : State) : s.withoutAttributes.params = s.params := rfl

@[simp] theorem withoutAttributes_pins (s : State) : s.withoutAttributes.pins = s.pins.map Pin.bare := rfl

theorem memRead_bare (a : AgentId) (off : Nat) (s : State) :
    memRead a off s.withoutAttributes = (memRead a off s).map fun x => (x.1, x.2.withoutAttributes) := by
  cases ho : s.map.isOpen with
  | false => simp only [memRead, withoutAttributes_map, ho, Bool.false_eq_true, if_false, Except.map]
  | true =>
    rcases hr : windowReg s.params s.numPins off with _ | ⟨w | w | w | w⟩
    all_goals
      simp only [memRead, withoutAttributes_map, withoutAttributes_params, withoutAttributes_numPins, withoutAttributes_pins, ho, hr,
        if_true, fselWord_bare, levWord_bare]
      rfl

theorem memWrite_bare (a : AgentId) (off : Nat) (v : Word) (s : State) :
    memWrite a off v s.withoutAttributes = (memWrite a off v s).map State.withoutAttributes := by
  cases ho : s.map.isOpen with
  | false => simp only [memWrite, withoutAttributes_map, ho, Bool.false_eq_true, if_false, Except.map]
  | true =>
    rcases hw : writePins s.params off v s.pins with _ | pins
    all_goals
      simp only [memWrite, withoutAttributes_map, withoutAttributes_params, withoutAttributes_pins, ho, if_true, writePins_bare, hw]
      rfl

/-- An assignment makes the same of the state without attributes, but for them. -/
theorem assign_bare (u : Assign) (s : State) :
    (s.assign u).withoutAttributes = (s.withoutAttributes.assign u).withoutAttributes := by
  have hpins (p : Nat) (f : Pin → Pin) (hf : ∀ x, (f x).bare = (f x.bare).bare) :
      (updatePin p f s.pins).map Pin.bare = (updatePin p f (s.pins.map Pin.bare)).map Pin.bare := by
    refine map_bare_mapPins (fun q x => ?_) s.pins
    split
    · exact hf x
    · rfl
  cases u with
  | pinDir p d => exact congrArg (fun pins => { s with pins := pins }) (hpins p (fun x => { x with dir := some d }) fun x => rfl)
  | pinLast p v => exact congrArg (fun pins => { s with pins := pins }) (hpins p (fun x => { x with last := some v }) fun x => rfl)
  | busDir d => exact (withoutAttributes_twice (s.assign (.busDir d))).symm
  | lastEdge t => exact (withoutAttributes_twice (s.assign (.lastEdge t))).symm
  | busSetup c d h q => exact (withoutAttributes_twice (s.assign (.busSetup c d h q))).symm
  | busConfigured => exact (withoutAttributes_twice (s.assign .busConfigured)).symm
  | busCleared => exact (withoutAttributes_twice (s.assign .busCleared)).symm
  | mapOpened b => exact (withoutAttributes_twice (s.assign (.mapOpened b))).symm
  | mapClosed => exact (withoutAttributes_twice (s.assign .mapClosed)).symm

theorem regsRead_bare (s : State) : s.withoutAttributes.regsRead = s.regsRead := by
  rw [State.regsRead, withoutAttributes_numPins]
  rfl

theorem regsTaken_bare (s : State) : s.withoutAttributes.regsTaken = s.regsTaken.withoutAttributes := by
  have hbus : s.withoutAttributes.bus = s.bus := rfl
  unfold State.regsTaken
  rw [hbus]
  split <;> rfl

/-- A run of a program ends the same, but for the attributes. -/
theorem run_bare (a : AgentId) (p : Prog) (s : State) : (p.run a s.withoutAttributes).bare = (p.run a s).bare := by
  induction p generalizing s with
  | done r => simp only [Prog.run, Ended.bare, withoutAttributes_twice]
  | read off k ih =>
    rw [Prog.run, Prog.run, memRead_bare]
    cases memRead a off s with
    | error f => simp only [Except.map, Ended.bare, withoutAttributes_twice]
    | ok x => exact ih x.1 x.2
  | write off v k ih =>
    rw [Prog.run, Prog.run, memWrite_bare]
    cases memWrite a off v s with
    | error f => simp only [Except.map, Ended.bare, withoutAttributes_twice]
    | ok t => exact ih t
  | tick k ih => exact ih (Machine.tick a s).1 (Machine.tick a s).2
  | wait n k ih => exact ih (waitUntil a n s).1 (waitUntil a n s).2
  | look k ih =>
    rw [Prog.run, Prog.run, regsRead_bare, regsTaken_bare]
    exact ih _ _
  | set u k ih =>
    rw [Prog.run, Prog.run, ← ih (s.withoutAttributes.assign u), ← ih (s.assign u), assign_bare u s]
  | ask k ih => exact ih s.nextPlatform s.platformTaken

/-- The parts up to the next micro-step end the same, but for the attributes. -/
theorem settle_bare (p : Prog) (l : List Answer) (s : State) : (p.settle l s.withoutAttributes).bare = (p.settle l s).bare := by
  induction p generalizing l s with
  | done | read | write | tick | wait => simp only [Prog.settle, Settled.bare, withoutAttributes_twice]
  | look k ih =>
    rw [Prog.settle, Prog.settle, regsRead_bare, regsTaken_bare]
    exact ih _ _ _
  | set u k ih =>
    rw [Prog.settle, Prog.settle, ← ih l (s.withoutAttributes.assign u), ← ih l (s.assign u), assign_bare u s]
  | ask k ih => exact ih s.nextPlatform _ s.platformTaken

/-- A micro-step ends the same, but for the attributes. -/
theorem microStep_bare (a : AgentId) (p : Prog) (l : List Answer) (s : State) :
    (microStep a p l s.withoutAttributes).bare = (microStep a p l s).bare := by
  cases p with
  | done | look | set | ask => simp only [microStep, Settled.bare, withoutAttributes_twice]
  | read off k =>
    rw [microStep, microStep, memRead_bare]
    cases memRead a off s with
    | error f => simp only [Except.map, Settled.bare, withoutAttributes_twice]
    | ok x => exact settle_bare _ _ x.2
  | write off v k =>
    rw [microStep, microStep, memWrite_bare]
    cases memWrite a off v s with
    | error f => simp only [Except.map, Settled.bare, withoutAttributes_twice]
    | ok t => exact settle_bare _ _ t
  | tick k => exact settle_bare _ _ (Machine.tick a s).2
  | wait n k => exact settle_bare _ _ (waitUntil a n s).2

/-! ## Commands and steps -/

/-- The checks of every command look at no pin's attributes. -/
theorem checks_bare (i : Instr) (s : State) : (commandOf i).checks s.withoutAttributes = (commandOf i).checks s := by
  cases i with
  | openMap | closeMap | rdw | wrw | i2cdisp | setwm | setrm | wbit | rbit | start | stop | wbyte | rbyte | wbytes | write | read => rfl
  | pcfgo pin | pcfgi pin | pset pin | pget pin =>
    simp only [commandOf, pcfgoCommand, pcfgiCommand, psetCommand, pgetCommand, pinChecks, withoutAttributes_numPins]
    rfl
  | i2cinit scl sda freq =>
    simp only [commandOf, i2cinitCommand, withoutAttributes_numPins]
    rfl

theorem deliver_bare (a : AgentId) (i : Instr) (own : Bool) (r : Reply) (s : State) :
    (s.deliver a i own r).withoutAttributes = s.withoutAttributes.deliver a i own r := by
  cases own <;> rfl

theorem enter_bare (c : Command) (a : AgentId) (s : State) : c.enter a s.withoutAttributes = (c.enter a s).withoutAttributes := by
  unfold Command.enter
  split <;> rfl

/-- The state of a command whose run ended so: the result delivered, or the fault marked. -/
def Ended.delivered (a : AgentId) (i : Instr) (own : Bool) : Ended → State
  | .finished r t => t.deliver a i own r
  | .faulted f t => t.markFault f

theorem delivered_bare (a : AgentId) (i : Instr) (own : Bool) (x : Ended) :
    (x.delivered a i own).withoutAttributes = x.bare.delivered a i own := by
  cases x with
  | finished r t => exact deliver_bare a i own r t
  | faulted f t => rfl

theorem commandResult_delivered {i : Instr} {c : Command} {s : State} (h : firstStop (c.checks s) = none) :
    commandResult i c s = ((c.body s.params).run s.turn (c.enter s.turn s)).delivered s.turn i c.ownsBus := by
  rw [commandResult, h]
  rfl

theorem commandResult_bare (i : Instr) (s : State) :
    (commandResult i (commandOf i) s.withoutAttributes).withoutAttributes = (commandResult i (commandOf i) s).withoutAttributes := by
  have hchecks := checks_bare i s
  cases hc : firstStop ((commandOf i).checks s) with
  | none =>
    rw [commandResult_delivered hc, commandResult_delivered (hchecks ▸ hc), delivered_bare, delivered_bare, enter_bare]
    exact congrArg _ (run_bare s.turn _ _)
  | some x =>
    cases x with
    | fault f =>
      simp only [commandResult, hchecks, hc]
      exact withoutAttributes_twice (s.markFault f)
    | error e =>
      simp only [commandResult, hchecks, hc]
      rw [← deliver_bare, withoutAttributes_twice]
      rfl

theorem agent_bare (s : State) (a : AgentId) : s.withoutAttributes.agent a = s.agent a := rfl

theorem park_bare (a : AgentId) (i : Instr) (c : Command) (x : Settled) : (park a i c x).withoutAttributes = park a i c x.bare := by
  cases x with
  | waiting l t => rfl
  | finished r t => exact congrArg (State.setSeq a .idle) (deliver_bare a i c.ownsBus r t)
  | faulted f t => rfl

theorem begin_bare (a : AgentId) (i : Instr) (s : State) :
    (begin a i s.withoutAttributes).withoutAttributes = (begin a i s).withoutAttributes := by
  have hchecks := checks_bare i s
  cases hc : firstStop ((commandOf i).checks s) with
  | none =>
    simp only [begin, hchecks, hc]
    rw [show s.withoutAttributes.setSeq a (.busy i []) = (s.setSeq a (.busy i [])).withoutAttributes from rfl, enter_bare, park_bare,
      park_bare, withoutAttributes_params, settle_bare]
  | some x =>
    cases x with
    | fault f =>
      simp only [begin, hchecks, hc]
      exact withoutAttributes_twice (s.markFault f)
    | error e =>
      simp only [begin, hchecks, hc]
      rw [← deliver_bare, withoutAttributes_twice]

/-- An operation's end as a place to come to rest. -/
def Ended.settled : Ended → Settled
  | .finished r t => .finished r t
  | .faulted f t => .faulted f t

theorem finish_settled (a : AgentId) (i : Instr) (p : Prog) (s : State) :
    finish a i p s = park a i (commandOf i) (p.run a s).settled := by
  unfold finish
  cases p.run a s <;> rfl

theorem finish_bare (a : AgentId) (i : Instr) (p : Prog) (s : State) :
    (finish a i p s.withoutAttributes).withoutAttributes = (finish a i p s).withoutAttributes := by
  have hsettled (x : Ended) : x.settled.bare = x.bare.settled := by cases x <;> rfl
  rw [finish_settled, finish_settled, park_bare, park_bare, hsettled, hsettled, run_bare]

theorem fetch_bare (a : AgentId) (s : State) : fetch a s.withoutAttributes = (fetch a s).bare := by
  unfold fetch
  rw [agent_bare]
  split <;> rfl

theorem agentStep_bare (a : AgentId) (s : State) : bareOutcome (agentStep a s.withoutAttributes) = bareOutcome (agentStep a s) := by
  unfold agentStep
  rw [agent_bare, fetch_bare]
  split
  case h_1 =>
    cases fetch a s with
    | command i t => exact congrArg Host.Outcome.next (begin_bare a i t)
    | refusal t => exact congrArg Host.Outcome.next (withoutAttributes_twice t)
    | incomplete c => rfl
    | nothing => exact congrArg Host.Outcome.next (withoutAttributes_twice s)
  case h_2 i l _ =>
    rw [show restOf i l s.withoutAttributes = restOf i l s from rfl]
    cases restOf i l s with
    | none => exact congrArg Host.Outcome.next (withoutAttributes_twice (s.markFault .sequencerLost))
    | some p =>
      refine congrArg Host.Outcome.next ?_
      rw [park_bare, park_bare, microStep_bare]

theorem operationStep_bare (s : State) : bareOutcome (operationStep s.withoutAttributes) = bareOutcome (operationStep s) := by
  unfold operationStep
  rw [show s.withoutAttributes.turn = s.turn from rfl, agent_bare, fetch_bare]
  split
  case h_1 =>
    cases fetch s.turn s with
    | command i t =>
      simp only [Fetched.bare, exec_eq]
      exact congrArg Host.Outcome.next (commandResult_bare i t)
    | refusal t => exact congrArg Host.Outcome.next (withoutAttributes_twice t)
    | incomplete c => rfl
    | nothing => exact congrArg Host.Outcome.next (withoutAttributes_twice s)
  case h_2 i l _ =>
    rw [show restOf i l s.withoutAttributes = restOf i l s from rfl]
    cases restOf i l s with
    | none => exact congrArg Host.Outcome.next (withoutAttributes_twice (s.markFault .sequencerLost))
    | some p => exact congrArg Host.Outcome.next (finish_bare s.turn i p s)

theorem step_bare (s : State) : bareOutcome (step s.withoutAttributes) = bareOutcome (step s) := by
  unfold step
  rw [show s.withoutAttributes.faults = s.faults from rfl, show s.withoutAttributes.sched = s.sched from rfl]
  split
  · rfl
  · split
    case h_1 a rest _ => exact agentStep_bare a { s with sched := rest }
    case h_2 => exact operationStep_bare s

/-- Settles O19: a step of either state is, but for the attributes, the step of the one state without attributes. -/
theorem attributesAreNeverRead : Obligations.AttributesAreNeverRead := by
  unfold Obligations.AttributesAreNeverRead
  intro s s' t hs h
  have hsame : bareOutcome (step s') = .next t.withoutAttributes := by
    rw [← step_bare, hs, step_bare, h]
    rfl
  cases hs' : step s' with
  | next t' =>
    rw [hs'] at hsame
    injection hsame with ht
    exact ⟨t', rfl, ht⟩
  | fault f =>
    rw [hs'] at hsame
    cases hsame
  | refused r =>
    rw [hs'] at hsame
    cases hsame

end Sys2Proof.Machine
end

section
/-! SUPPORT. The Register Map and Digital Pin commands (spec/40_register_map.md R101 to R104, spec/41_digital_pin.md R120 to R125): each as the one
access or the two accesses of its body, and what interleavings of two of them leave (spec/20_memory.md R59). -/

namespace Sys2Proof.Machine

/-! ## Commands that hold no bus -/

/-- A command that holds no bus, past its checks, ends with its body's result delivered (R209). -/
theorem exec_of_body_finished {i : Instr} {s t : State} {r : Reply} (hchecks : firstStop ((commandOf i).checks s) = none)
    (hown : (commandOf i).ownsBus = false) (hbody : ((commandOf i).body s.params).run s.turn s = .finished r t) :
    exec i s = .next (t.deliver s.turn i false r) := by
  have henter : (commandOf i).enter s.turn s = s := by simp [Command.enter, hown]
  rw [exec_eq, commandResult_delivered hchecks, henter, hbody, Ended.delivered, hown]

/-- A command one of whose checks fails with a fault marks that fault and does nothing else (R210). -/
theorem exec_of_fault {i : Instr} {s : State} {f : Fault} (h : firstStop ((commandOf i).checks s) = some (.fault f)) :
    exec i s = .next (s.markFault f) := by
  rw [exec_eq, commandResult, h]

/-- Settles O22. -/
theorem closeUnmapsTheWindow : Obligations.CloseUnmapsTheWindow := by
  unfold Obligations.CloseUnmapsTheWindow
  intro s ho
  have hchecks : firstStop ((commandOf .closeMap).checks s) = none := by simp [commandOf, closeCommand, firstStop, mapCheck, ho]
  rw [exec_of_body_finished hchecks rfl rfl]
  rfl

/-- Settles O29: past the open map, the two checks of the offset in their order. -/
theorem badOffsetsFault : Obligations.BadOffsetsFault := by
  unfold Obligations.BadOffsetsFault
  intro s off v ho
  refine ⟨fun hmis => ?_, fun hal hout => ?_⟩
  · have hstop : firstStop (offsetChecks off s) = some (.fault (.misalignedOffset off)) := by
      simp [offsetChecks, firstStop, mapCheck, ho, hmis]
    exact ⟨exec_of_fault hstop, exec_of_fault hstop⟩
  · have hw : Config.windowSize ≤ off := hout
    have hstop : firstStop (offsetChecks off s) = some (.fault (.outsideWindow off)) := by
      simp [offsetChecks, firstStop, mapCheck, ho, hal, hw]
    exact ⟨exec_of_fault hstop, exec_of_fault hstop⟩

/-- Settles O37: of OPEN, I2CINIT and the frame of the bus commands, the checks named come first. -/
theorem firstChecksFault : Obligations.FirstChecksFault := by
  unfold Obligations.FirstChecksFault
  intro s
  refine ⟨fun ho => ?_, fun scl sda freq hc => ?_, fun i hi hc => ?_, fun i a hi hc howner => ?_⟩
  · exact exec_of_fault (by simp [commandOf, openCommand, firstStop, ho])
  · exact exec_of_fault (by simp [commandOf, i2cinitCommand, firstStop, hc])
  · obtain ⟨rest, hrest⟩ := checks_of_isBusCommand hi s
    exact exec_of_fault (by simp [hrest, frameChecks, firstStop, hc])
  · obtain ⟨rest, hrest⟩ := checks_of_isBusCommand hi s
    exact exec_of_fault (by simp [hrest, frameChecks, firstStop, hc, howner])

/-! ## The words of the window by their number -/

section
variable {P : Params} {n w : Nat}

/-- A word of 32 pins holds the pin of its first bit. -/
theorem firstPin_lt_of_bank (h : w < ceilDiv n 32) : 32 * w < n := by
  simp only [ceilDiv] at h
  omega

theorem windowReg_fselWord (h : w < ceilDiv n 10) : windowReg P n (4 * w) = some (.fsel w) := by
  have hp : 10 * w < n := by
    simp only [ceilDiv] at h
    omega
  simpa [fselOff, fselPerWord] using windowReg_fselOff P n (10 * w) hp

theorem windowReg_levWord (ok : paramsOk P n) (h : w < ceilDiv n 32) : windowReg P n (P.levOff + 4 * w) = some (.lev w) := by
  simpa [levOff, pinsPerBank] using windowReg_levOff P n (32 * w) ok (firstPin_lt_of_bank h)

theorem windowReg_setWord (ok : paramsOk P n) (h : w < ceilDiv n 32) : windowReg P n (P.setOff + 4 * w) = some (.set w) := by
  simpa [setOff, pinsPerBank] using windowReg_setOff P n (32 * w) ok (firstPin_lt_of_bank h)

theorem windowReg_clrWord (ok : paramsOk P n) (h : w < ceilDiv n 32) : windowReg P n (P.clrOff + 4 * w) = some (.clr w) := by
  simpa [clrOff, pinsPerBank] using windowReg_clrOff P n (32 * w) ok (firstPin_lt_of_bank h)

/-- The words of the arrays are aligned and in the window. -/
theorem bankWord_inWindow (ok : paramsOk P n) (h : w < ceilDiv n 32) :
    ((P.levOff + 4 * w) % 4 = 0 ∧ P.levOff + 4 * w < 4096) ∧ ((P.setOff + 4 * w) % 4 = 0 ∧ P.setOff + 4 * w < 4096) ∧
      ((P.clrOff + 4 * w) % 4 = 0 ∧ P.clrOff + 4 * w < 4096) := by
  obtain ⟨-, ⟨a1, a2, a3⟩, ⟨b1, b2, b3⟩, -⟩ := ok
  simp only [pinsPerBank, Config.windowSize] at b1 b2 b3
  omega

end

/-! ## RDW and WRW -/

section
variable {s : State} {off : Nat} (ho : s.map.isOpen = true) (ha : off % 4 = 0) (hw : off < 4096)
include ho ha hw

/-- RDW is its one read. -/
theorem exec_rdw_of_memRead {v : Word} {t : State} (h : memRead s.turn off s = .ok (v, t)) :
    exec (.rdw off) s = .next (t.deliver s.turn (.rdw off) false (.ok (.word v))) := by
  refine exec_of_body_finished (firstStop_offsetChecks_none ho ha hw) rfl ?_
  simp only [commandOf, rdwCommand, Prog.run, h]

/-- WRW is its one write. -/
theorem exec_wrw_of_writePins {v : Word} {pins : List Pin} (h : writePins s.params off v s.pins = some pins) :
    exec (.wrw off v) s = .next { s with
      pins := pins, history := s.history ++ [.memWrite s.turn off v, .completed s.turn (.wrw off v) (.ok .none)] } := by
  have hbody : ((commandOf (.wrw off v)).body s.params).run s.turn s =
      .finished (.ok .none) { s with pins := pins, history := s.history ++ [.memWrite s.turn off v] } := by
    simp only [commandOf, wrwCommand, Prog.run, memWrite, ho, if_true, h, returnNone]
  rw [exec_of_body_finished (i := .wrw off v) (firstStop_offsetChecks_none ho ha hw) rfl hbody]
  simp [State.deliver, State.record]

end

/-- The reserved bits of a function-select word are the draw's (R25). -/
theorem getLsbD_fselWord_reserved {pins : List Pin} {w k : Nat} (d : Word) (hk : k < 32) (h : 30 ≤ k ∨ pins.length ≤ 10 * w + k / 3) :
    (fselWord pins w d).getLsbD k = d.getLsbD k := by
  rw [fselWord, getLsbD_wordOfBits _ _ _ (Nat.le_refl _)]
  simp only [hk, decide_true, Bool.true_and, fselBits]
  rcases h with h | h
  · have h30 : ¬ k < 30 := by omega
    cases pins[10 * w + k / 3]? <;> simp [h30]
  · rw [List.getElem?_eq_none h]

/-- A pin there is stands in the list. -/
theorem getElem?_pins {s : State} {p : Nat} (h : p < s.numPins) : s.pins[p]? = some (s.pin p) := by
  simp [State.pin, List.getD_eq_getElem?_getD, List.getElem?_eq_getElem (show p < s.pins.length from h)]

/-- Settles O24. -/
theorem rdwReadsFunctionSelect : Obligations.RdwReadsFunctionSelect := by
  unfold Obligations.RdwReadsFunctionSelect
  intro s w ho hw hin
  have hread : memRead s.turn (4 * w) s = .ok (fselWord s.pins w s.nextReserved, { s with
      env := { s.env with reserved := s.env.reserved.next }
      history := s.history ++ [.memRead s.turn (4 * w) (fselWord s.pins w s.nextReserved)] }) := by
    simp only [memRead, ho, if_true, windowReg_fselWord hw]
  refine ⟨fselWord s.pins w s.nextReserved, ?_, ?_, fun k hk h => getLsbD_fselWord_reserved _ hk h⟩
  · rw [exec_rdw_of_memRead ho (Nat.mul_mod_right 4 w) hin hread]
    simp [State.deliver, State.record]
  · rintro p hp rfl
    exact extract_fselWord s.pins p s.nextReserved (s.pin p) (getElem?_pins hp)

/-- Settles O25. -/
theorem rdwReadsLevels : Obligations.RdwReadsLevels := by
  unfold Obligations.RdwReadsLevels
  intro s w ok ho hw
  obtain ⟨⟨ha, hin⟩, -⟩ := bankWord_inWindow ok hw
  have hread : memRead s.turn (s.params.levOff + 4 * w) s = .ok (levWord s.params s.pins w s.nextLevels, { s with
      env := { s.env with levels := s.env.levels.next }
      history := s.history ++ [.memRead s.turn (s.params.levOff + 4 * w) (levWord s.params s.pins w s.nextLevels)] }) := by
    simp only [memRead, ho, if_true, windowReg_levWord ok hw]
  refine ⟨levWord s.params s.pins w s.nextLevels, ?_, fun k hk => ?_⟩
  · rw [exec_rdw_of_memRead ho ha hin hread]
    simp [State.deliver, State.record]
  · rw [levWord, getLsbD_wordOfBits _ _ _ (Nat.le_refl _)]
    simp only [hk, decide_true, Bool.true_and]
    by_cases hp : 32 * w + k < s.numPins
    · simp only [getElem?_pins hp, lineLevel, hp, true_and]
    · rw [List.getElem?_eq_none (Nat.not_lt.1 hp)]
      simp [hp]

/-- Settles O26. -/
theorem wrwWritesFunctionSelect : Obligations.WrwWritesFunctionSelect := by
  unfold Obligations.WrwWritesFunctionSelect
  intro s w v ho hw hin
  have hwrite : writePins s.params (4 * w) v s.pins = some (writeFsel w v s.pins) := by
    simp only [writePins, windowReg_fselWord (n := s.pins.length) hw]
  refine ⟨_, exec_wrw_of_writePins ho (Nat.mul_mod_right 4 w) hin hwrite, length_writeFsel w v s.pins, fun p hp => ?_⟩
  exact getD_mapPins _ _ _ hp

/-- Settles O27. -/
theorem wrwSetsAndClearsLatches : Obligations.WrwSetsAndClearsLatches := by
  unfold Obligations.WrwSetsAndClearsLatches
  intro s w v lv ok ho hw
  obtain ⟨-, ⟨hsa, hsin⟩, ⟨hca, hcin⟩⟩ := bankWord_inWindow ok hw
  have hpins (p : Nat) (hp : p < s.numPins) : (writeLatch lv w v s.pins).getD p Pin.absent =
      if p / 32 = w ∧ v.getLsbD (p % 32) = true then { s.pin p with latch := lv } else s.pin p := getD_mapPins _ _ _ hp
  cases lv with
  | true =>
    have hwrite : writePins s.params (s.params.setOff + 4 * w) v s.pins = some (writeLatch true w v s.pins) := by
      simp only [writePins, windowReg_setWord (n := s.pins.length) ok hw]
    exact ⟨_, exec_wrw_of_writePins ho hsa hsin hwrite, length_writeLatch _ _ _ _, hpins⟩
  | false =>
    have hwrite : writePins s.params (s.params.clrOff + 4 * w) v s.pins = some (writeLatch false w v s.pins) := by
      simp only [writePins, windowReg_clrWord (n := s.pins.length) ok hw]
    exact ⟨_, exec_wrw_of_writePins ho hca hcin hwrite, length_writeLatch _ _ _ _, hpins⟩

/-! ## The effects on a pin's record -/

/-- The record of a pin after a list of pins is updated at one. -/
theorem getD_updatePin {p : Nat} (q : Nat) (f : Pin → Pin) {pins : List Pin} (hp : p < pins.length) :
    (updatePin p f pins).getD q Pin.absent = if q = p then f (pins.getD p Pin.absent) else pins.getD q Pin.absent := by
  split
  case isTrue h =>
    subst h
    exact getD_updatePin_self q f pins hp
  case isFalse h => exact getD_updatePin_ne p q f pins h

section
variable {s : State} {p : Nat} (hp : p < s.pins.length) (a : AgentId) (q : Nat)
include hp

theorem pin_valueSet (v : Level) :
    (s.valueSet a p v).pin q = if q = p then { s.pin p with latch := v, last := some v } else s.pin q := getD_updatePin q _ hp

theorem pin_valueGot : (s.valueGot a p).pin q = if q = p then { s.pin p with last := some (s.levelOf p) } else s.pin q :=
  getD_updatePin q _ hp

theorem pin_configured (fn : BitVec 3) (d : PinDir) :
    (s.configured a p fn d).pin q = if q = p then { s.pin p with fsel := fn, dir := some d } else s.pin q := getD_updatePin q _ hp

end

/-! ## The pin commands -/

section
variable {s : State} {pin : PinField} (ho : s.map.isOpen = true) (hp : pin.toNat < s.numPins)
include ho hp

/-- With the map open, an existing pin passes the checks of the pin commands (R124). -/
theorem firstStop_pinChecks : firstStop (pinChecks pin s) = none := by
  simp [pinChecks, firstStop, mapCheck, ho, Nat.not_le.2 hp]

theorem exec_pcfgo : exec (.pcfgo pin) s =
    .next ((s.configured s.turn pin.toNat s.params.fnOutput .output).deliver s.turn (.pcfgo pin) false (.ok .none)) :=
  exec_of_body_finished (firstStop_pinChecks ho hp) rfl (run_configureAs ho hp)

theorem exec_pcfgi : exec (.pcfgi pin) s =
    .next ((s.configured s.turn pin.toNat s.params.fnInput .input).deliver s.turn (.pcfgi pin) false (.ok .none)) :=
  exec_of_body_finished (firstStop_pinChecks ho hp) rfl (run_configureAs ho hp)

variable (ok : s.paramsOk)
include ok

theorem exec_pset (lv : Level) :
    exec (.pset pin lv) s = .next ((s.valueSet s.turn pin.toNat lv).deliver s.turn (.pset pin lv) false (.ok .none)) :=
  exec_of_body_finished (firstStop_pinChecks ho hp) rfl (run_setValue rfl ok ho hp)

theorem exec_pget : exec (.pget pin) s =
    .next ((s.valueGot s.turn pin.toNat).deliver s.turn (.pget pin) false (.ok (.bit (s.levelOf pin.toNat)))) :=
  exec_of_body_finished (firstStop_pinChecks ho hp) rfl (run_getValue (k := fun v => .done (.ok (.bit v))) rfl ok ho hp)

end

/-- Settles O30: both commands are one rewrite of the pin's function-select word. -/
theorem directionCommandsRewriteOneField : Obligations.DirectionCommandsRewriteOneField := by
  unfold Obligations.DirectionCommandsRewriteOneField
  intro s pin out ho hp
  have hpins (fn : BitVec 3) (d : PinDir) (q : Nat) : (s.configured s.turn pin.toNat fn d).pins.getD q Pin.absent =
      if q = pin.toNat then { s.pin q with fsel := fn, dir := some d } else s.pin q := by
    refine (pin_configured hp s.turn q fn d).trans ?_
    split
    case isTrue h => rw [h]
    case isFalse => rfl
  cases out with
  | true =>
    refine ⟨_, _, (exec_pcfgo ho hp).trans ?_, rfl, length_updatePin _ _ _, fun q _ => hpins _ .output q⟩
    simp [State.deliver, State.record, State.configured, fselOff, fselPerWord]
  | false =>
    refine ⟨_, _, (exec_pcfgi ho hp).trans ?_, rfl, length_updatePin _ _ _, fun q _ => hpins _ .input q⟩
    simp [State.deliver, State.record, State.configured, fselOff, fselPerWord]

/-- Settles O31. -/
theorem psetDrivesOneLatch : Obligations.PsetDrivesOneLatch := by
  unfold Obligations.PsetDrivesOneLatch
  intro s pin lv ok ho hp
  refine ⟨(s.valueSet s.turn pin.toNat lv).pins, (exec_pset ho hp ok lv).trans ?_, length_updatePin _ _ _, fun q _ => ?_⟩
  · cases lv <;> simp [State.deliver, State.record, State.valueSet, setOff, clrOff, pinsPerBank, bitMask]
  · refine (pin_valueSet hp s.turn q lv).trans ?_
    split
    case isTrue h => rw [h]
    case isFalse => rfl

/-- Settles O32. -/
theorem pgetReadsTheLevel : Obligations.PgetReadsTheLevel := by
  unfold Obligations.PgetReadsTheLevel
  intro s pin ok ho hp
  refine ⟨(s.valueGot s.turn pin.toNat).pins, levWord s.params s.pins (pin.toNat / pinsPerBank) s.nextLevels, s.levelOf pin.toNat,
    (exec_pget ho hp ok).trans ?_, ?_, rfl, length_updatePin _ _ _, fun q _ => ?_⟩
  · simp [State.deliver, State.record, State.valueGot, levOff, pinsPerBank]
  · exact (getLsbD_levWord _ _ _ _ _ (getElem?_pins hp)).symm
  · refine (pin_valueGot hp s.turn q).trans ?_
    split
    case isTrue h => rw [h]
    case isFalse => rfl

/-- Settles O33: SetValue leaves the other pin's record and the draw of the next level read, all that GetValue's answer rests on. -/
theorem pinsAreIndependent : Obligations.PinsAreIndependent := by
  unfold Obligations.PinsAreIndependent
  intro s t u x a b v ok ho ha hb hab ht hu hx
  have hne : b.toNat ≠ a.toNat := fun h => hab (BitVec.eq_of_toNat_eq h.symm)
  rw [exec_pset ho ha ok] at ht
  cases ht
  rw [exec_pget ho hb ok] at hx
  cases hx
  have hlen : ((s.valueSet s.turn a.toNat v).deliver s.turn (.pset a v) false (.ok .none)).numPins = s.numPins := length_updatePin _ _ _
  have ok' : ((s.valueSet s.turn a.toNat v).deliver s.turn (.pset a v) false (.ok .none)).paramsOk := by
    rw [State.paramsOk, hlen]
    exact ok
  rw [exec_pget (s := (s.valueSet s.turn a.toNat v).deliver s.turn (.pset a v) false (.ok .none)) ho (hlen ▸ hb) ok'] at hu
  cases hu
  have hlevel : ((s.valueSet s.turn a.toNat v).deliver s.turn (.pset a v) false (.ok .none)).levelOf b.toNat = s.levelOf b.toNat := by
    have hpin : (s.valueSet s.turn a.toNat v).pin b.toNat = s.pin b.toNat := by rw [pin_valueSet ha, if_neg hne]
    exact congrArg (fun y => lineLevel s.params y (s.nextLevels.getLsbD (b.toNat % pinsPerBank))) hpin
  rw [State.deliver_history, List.getLast?_concat, State.deliver_history, List.getLast?_concat, hlevel]
  refine ⟨fun hout => ?_, fun hin => ?_⟩
  · have hlatch : s.levelOf b.toNat = (s.pin b.toNat).latch := if_pos hout
    rw [hlatch]
    exact ⟨rfl, rfl⟩
  · have hdraw : s.levelOf b.toNat = s.nextLevels.getLsbD (b.toNat % 32) := if_neg hin
    rw [hdraw]
    rfl

/-! ## Interleavings of two agents (R59) -/

/-- The state with this order of micro-steps laid down (log 5). -/
def State.order (l : List AgentId) (s : State) : State := { s with sched := l }

/-- A run of the machine goes through the agent's step that the order laid down names next. -/
theorem run_order_cons {k : Nat} {s t : State} {a : AgentId} {rest : List AgentId} (hf : s.faults = [])
    (h : agentStep a (s.order rest) = .next t) :
    Host.Core.run Sys2Proof.core (k + 1) (s.order (a :: rest)) = Host.Core.run Sys2Proof.core k t := by
  have hstep : Sys2Proof.core.step (s.order (a :: rest)) = .next t :=
    (stepFollowsTheLaidDownOrder (s.order (a :: rest)) a rest hf rfl).trans h
  simp only [Host.Core.run, hstep]

/-- The last micro-step of an operation in flight, with what it leaves. -/
theorem agentStep_of_finished {a : AgentId} {i : Instr} {l : List Answer} {p : Prog} {s t : State} {r : Reply}
    (hb : (s.agent a).seq = .busy i l) (hp : restOf i l s = some p) (hm : microStep a p l s = .finished r t) :
    agentStep a s = .next ((t.deliver a i (commandOf i).ownsBus r).setSeq a .idle) := by
  simp only [agentStep, hb, hp, hm, park]

/-- A micro-step after which the operation waits for its next. -/
theorem agentStep_of_waiting {a : AgentId} {i : Instr} {l m : List Answer} {p : Prog} {s t : State}
    (hb : (s.agent a).seq = .busy i l) (hp : restOf i l s = some p) (hm : microStep a p l s = .waiting m t) :
    agentStep a s = .next (t.setSeq a (.busy i m)) := by
  simp only [agentStep, hb, hp, hm, park]

/-- The state after the one micro-step of a PSET in flight. -/
def State.psetDone (a : AgentId) (p : PinField) (v : Level) (s : State) : State :=
  ((s.valueSet a p.toNat v).deliver a (.pset p v) false (.ok .none)).setSeq a .idle

/-- The one micro-step of a PSET in flight (R122). -/
theorem agentStep_pset {a : AgentId} {p : PinField} {v : Level} {s : State} (ok : s.paramsOk) (ho : s.map.isOpen = true)
    (hp : p.toNat < s.numPins) (hb : (s.agent a).seq = .busy (.pset p v) []) : agentStep a s = .next (s.psetDone a p v) := by
  refine agentStep_of_finished hb (p := setValue s.params p.toNat v returnNone) rfl ?_
  simp only [microStep, setValue, memWrite, ho, if_true, writePins_setValue _ _ p.toNat v ok hp]
  simp [Prog.settle, returnNone, State.assign, State.valueSet]

theorem pin_psetDone {s : State} {p : PinField} (hp : p.toNat < s.numPins) (a : AgentId) (v : Level) (q : Nat) :
    (s.psetDone a p v).pin q = if q = p.toNat then { s.pin p.toNat with latch := v, last := some v } else s.pin q :=
  pin_valueSet hp a q v

theorem numPins_psetDone (s : State) (a : AgentId) (p : PinField) (v : Level) : (s.psetDone a p v).numPins = s.numPins :=
  length_updatePin _ _ _

/-- Two PSETs in flight, made in this order. -/
theorem run_two_psets {s : State} {A B : AgentId} {p q : PinField} {v w : Level} (ok : s.paramsOk) (ho : s.map.isOpen = true)
    (hf : s.faults = []) (hAB : A ≠ B) (hp : p.toNat < s.numPins) (hq : q.toNat < s.numPins)
    (hA : (s.agent A).seq = .busy (.pset p v) []) (hB : (s.agent B).seq = .busy (.pset q w) []) :
    Host.Core.run Sys2Proof.core 2 (s.order [A, B]) = .next (((s.psetDone A p v).psetDone B q w).order []) := by
  have hlen : ((s.psetDone A p v).order []).numPins = s.numPins := numPins_psetDone s A p v
  have hB' : (((s.psetDone A p v).order []).agent B).seq = .busy (.pset q w) [] :=
    (congrArg HostAgent.seq ((agent_setSeq _ A B _).trans (if_neg hAB.symm))).trans hB
  have hfirst := run_order_cons (k := 1) hf (agentStep_pset (s := s.order [B]) ok ho hp hA)
  have hsecond := run_order_cons (k := 0) (s := s.psetDone A p v) hf
    (agentStep_pset (by rw [State.paramsOk, hlen]; exact ok) ho (hlen ▸ hq) hB')
  exact hfirst.trans hsecond

/-- Settles O34: each micro-step sets its own pin's latch, and updates of two pins commute. -/
theorem concurrentPsetsCommute : Obligations.ConcurrentPsetsCommute := by
  unfold Obligations.ConcurrentPsetsCommute
  intro s A B p q v w ok ho hf hAB hpq hp hq hA hB
  have hne : p.toNat ≠ q.toNat := fun h => hpq (BitVec.eq_of_toNat_eq h)
  have hq' : q.toNat < (s.psetDone A p v).numPins := by
    rw [numPins_psetDone]
    exact hq
  refine ⟨_, _, run_two_psets ok ho hf hAB hp hq hA hB, run_two_psets ok ho hf hAB.symm hq hp hB hA, ?_, ?_, ?_, hf⟩
  · exact updatePin_comm _ _ _ _ _ hne.symm
  · have hpin : ((s.psetDone A p v).psetDone B q w).pin p.toNat = { s.pin p.toNat with latch := v, last := some v } := by
      rw [pin_psetDone hq', if_neg hne, pin_psetDone hp, if_pos rfl]
    exact congrArg Pin.latch hpin
  · have hpin := (pin_psetDone hq' B w q.toNat).trans (if_pos rfl)
    exact congrArg Pin.latch hpin

/-- The word that a read of a pin's function-select word gives now (R25). -/
def State.fselRead (p : PinField) (s : State) : Word := fselWord s.pins (p.toNat / fselPerWord) s.nextReserved

/-- The state after the first micro-step of a PCFGO in flight, the read of the pin's function-select word. -/
def State.pcfgoRead (a : AgentId) (p : PinField) (s : State) : State :=
  State.setSeq a (.busy (.pcfgo p) [.word (s.fselRead p)]) { s with
    env := { s.env with reserved := s.env.reserved.next }
    history := s.history ++ [.memRead a (fselOff p.toNat) (s.fselRead p)] }

/-- The state after the second, which writes the word `w` read before with the pin's field replaced. -/
def State.pcfgoWritten (a : AgentId) (p : PinField) (w : Word) (s : State) : State :=
  State.setSeq a .idle (State.deliver a (.pcfgo p) false (.ok .none) { s with
    pins := updatePin p.toNat (fun x => { x with dir := some .output })
      (writeFsel (p.toNat / fselPerWord) (withFsel w p.toNat s.params.fnOutput) s.pins)
    history := s.history ++ [.memWrite a (fselOff p.toNat) (withFsel w p.toNat s.params.fnOutput)] })

section
variable {a : AgentId} {p : PinField} {s : State} (ho : s.map.isOpen = true) (hp : p.toNat < s.numPins)
include ho hp

/-- The two micro-steps of a PCFGO in flight (R120). -/
theorem agentStep_pcfgo_read (hb : (s.agent a).seq = .busy (.pcfgo p) []) : agentStep a s = .next (s.pcfgoRead a p) := by
  refine agentStep_of_waiting hb (p := configureAsOutput s.params p.toNat returnNone) rfl ?_
  simp only [microStep, configureAsOutput, configureAs, memRead, ho, if_true, windowReg_fselOff s.params s.numPins p.toNat hp]
  rfl

theorem agentStep_pcfgo_write {w : Word} (hb : (s.agent a).seq = .busy (.pcfgo p) [.word w]) :
    agentStep a s = .next (s.pcfgoWritten a p w) := by
  refine agentStep_of_finished hb (p := .write (fselOff p.toNat) (withFsel w p.toNat s.params.fnOutput)
    (.set (.pinDir p.toNat .output) returnNone)) rfl ?_
  simp only [microStep, memWrite, ho, if_true, writePins, windowReg_fselOff s.params s.pins.length p.toNat hp]
  rfl

end

/-- A write of a word read from `pins` with one field replaced gives every pin of the word the field it had when the word was read, but for
the one replaced, whatever the fields are now. -/
theorem getD_writeFsel_withFsel {pins pins' : List Pin} {p q : Nat} {fn : BitVec 3} {d : Word} (hlen : pins'.length = pins.length)
    (hq : q < pins.length) (hw : q / fselPerWord = p / fselPerWord) :
    (writeFsel (p / fselPerWord) (withFsel (fselWord pins (p / fselPerWord) d) p fn) pins').getD q Pin.absent =
      { pins'.getD q Pin.absent with fsel := if q = p then fn else (pins.getD q Pin.absent).fsel } := by
  have hx : pins[q]? = some (pins.getD q Pin.absent) := by
    simp [List.getD_eq_getElem?_getD, List.getElem?_eq_getElem hq]
  rw [writeFsel, getD_mapPins _ _ _ (hlen ▸ hq), if_pos hw, extract_withFsel _ _ _ _ hw, ← hw, extract_fselWord pins q d _ hx]

theorem seq_setSeq_ne {s : State} {a c : AgentId} (q : Seq) (h : c ≠ a) : ((s.setSeq a q).agent c).seq = (s.agent c).seq := by
  rw [agent_setSeq, if_neg h]

theorem seq_setSeq_self (s : State) (a : AgentId) (q : Seq) : ((s.setSeq a q).agent a).seq = q := by
  rw [agent_setSeq, if_pos rfl]

section
variable (s : State) (a : AgentId) (p : PinField) (w : Word)

theorem pcfgoRead_map : (s.pcfgoRead a p).map = s.map := rfl
theorem pcfgoWritten_map : (s.pcfgoWritten a p w).map = s.map := rfl
theorem pcfgoWritten_numPins : (s.pcfgoWritten a p w).numPins = s.numPins := (length_updatePin _ _ _).trans (length_writeFsel _ _ _)
theorem pcfgoRead_faults : (s.pcfgoRead a p).faults = s.faults := rfl
theorem pcfgoRead_pins : (s.pcfgoRead a p).pins = s.pins := rfl
theorem pcfgoRead_params : (s.pcfgoRead a p).params = s.params := rfl
theorem pcfgoWritten_faults : (s.pcfgoWritten a p w).faults = s.faults := rfl
theorem pcfgoWritten_seq_self : ((s.pcfgoWritten a p w).agent a).seq = .idle := seq_setSeq_self _ a _
theorem pcfgoWritten_seq_ne {c : AgentId} (h : c ≠ a) : ((s.pcfgoWritten a p w).agent c).seq = (s.agent c).seq := seq_setSeq_ne _ h
theorem pcfgoWritten_params : (s.pcfgoWritten a p w).params = s.params := rfl
theorem pcfgoWritten_pins : (s.pcfgoWritten a p w).pins = updatePin p.toNat (fun x => { x with dir := some .output })
    (writeFsel (p.toNat / fselPerWord) (withFsel w p.toNat s.params.fnOutput) s.pins) := rfl

end

/-- The states between the four micro-steps of two PCFGOs, both reads before both writes. -/
def State.lostUpdate (A B : AgentId) (p q : PinField) (s : State) : State :=
  State.pcfgoWritten B q ((s.pcfgoRead A p).fselRead q) (State.pcfgoWritten A p (s.fselRead p) ((s.pcfgoRead A p).pcfgoRead B q))

/-- Both reads before both writes. -/
theorem run_two_pcfgos {s : State} {A B : AgentId} {p q : PinField} (ho : s.map.isOpen = true) (hf : s.faults = []) (hAB : A ≠ B)
    (hp : p.toNat < s.numPins) (hq : q.toNat < s.numPins) (hA : (s.agent A).seq = .busy (.pcfgo p) [])
    (hB : (s.agent B).seq = .busy (.pcfgo q) []) :
    Host.Core.run Sys2Proof.core 4 (s.order [A, B, A, B]) = .next ((s.lostUpdate A B p q).order []) := by
  have hB' : ((s.pcfgoRead A p).agent B).seq = .busy (.pcfgo q) [] := (seq_setSeq_ne _ hAB.symm).trans hB
  have hA' : (((s.pcfgoRead A p).pcfgoRead B q).agent A).seq = .busy (.pcfgo p) [.word (s.fselRead p)] :=
    (seq_setSeq_ne _ hAB).trans (seq_setSeq_self _ A _)
  have hB'' : ((State.pcfgoWritten A p (s.fselRead p) ((s.pcfgoRead A p).pcfgoRead B q)).agent B).seq =
      .busy (.pcfgo q) [.word ((s.pcfgoRead A p).fselRead q)] :=
    (pcfgoWritten_seq_ne _ _ _ _ hAB.symm).trans (seq_setSeq_self _ B _)
  have hq' : q.toNat < (State.pcfgoWritten A p (s.fselRead p) ((s.pcfgoRead A p).pcfgoRead B q)).numPins := by
    rw [pcfgoWritten_numPins]
    exact hq
  have ho' : (State.pcfgoWritten A p (s.fselRead p) ((s.pcfgoRead A p).pcfgoRead B q)).map.isOpen = true := by
    rw [pcfgoWritten_map]
    exact ho
  have hf' : (State.pcfgoWritten A p (s.fselRead p) ((s.pcfgoRead A p).pcfgoRead B q)).faults = [] := by
    rw [pcfgoWritten_faults]
    exact hf
  have h1 := run_order_cons (k := 3) hf (agentStep_pcfgo_read (s := s.order [B, A, B]) ho hp hA)
  have h2 := run_order_cons (k := 2) (s := s.pcfgoRead A p) hf
    (agentStep_pcfgo_read (s := (s.pcfgoRead A p).order [A, B]) ho hq hB')
  have h3 := run_order_cons (k := 1) (s := (s.pcfgoRead A p).pcfgoRead B q) hf
    (agentStep_pcfgo_write (s := ((s.pcfgoRead A p).pcfgoRead B q).order [B]) ho hp hA')
  have h4 := run_order_cons (k := 0) hf'
    (agentStep_pcfgo_write (s := (State.pcfgoWritten A p (s.fselRead p) ((s.pcfgoRead A p).pcfgoRead B q)).order []) ho' hq' hB'')
  exact h1.trans (h2.trans (h3.trans h4))

/-- Settles O35: the second write writes the field of the first pin as it was read before the first write. -/
theorem directionChangeCanBeLost : Obligations.DirectionChangeCanBeLost := by
  unfold Obligations.DirectionChangeCanBeLost
  intro s A B p q ho hf hAB hpq hword hp hq hA hB
  have hne : p.toNat ≠ q.toNat := fun h => hpq (BitVec.eq_of_toNat_eq h)
  have hfaults : (s.lostUpdate A B p q).faults = s.faults := by
    rw [State.lostUpdate, pcfgoWritten_faults, pcfgoWritten_faults, pcfgoRead_faults, pcfgoRead_faults]
  have hA' : ((s.lostUpdate A B p q).agent A).seq = .idle := by
    rw [State.lostUpdate, pcfgoWritten_seq_ne _ _ _ _ hAB, pcfgoWritten_seq_self]
  have hB' : ((s.lostUpdate A B p q).agent B).seq = .idle := by
    rw [State.lostUpdate, pcfgoWritten_seq_self]
  have hpins : (s.lostUpdate A B p q).pins = updatePin q.toNat (fun x => { x with dir := some .output })
      (writeFsel (q.toNat / fselPerWord)
        (withFsel (fselWord s.pins (q.toNat / fselPerWord) (s.pcfgoRead A p).nextReserved) q.toNat s.params.fnOutput)
        (updatePin p.toNat (fun x => { x with dir := some .output })
          (writeFsel (p.toNat / fselPerWord) (withFsel (s.fselRead p) p.toNat s.params.fnOutput) s.pins))) := by
    simp only [State.lostUpdate, pcfgoWritten_pins, pcfgoWritten_params, pcfgoRead_params, pcfgoRead_pins, State.fselRead]
  have hlen : (writeFsel (p.toNat / fselPerWord) (withFsel (s.fselRead p) p.toNat s.params.fnOutput) s.pins).length = s.pins.length :=
    length_writeFsel _ _ _
  have hpin (r : Nat) (hr : r < s.numPins) (hw : r / fselPerWord = q.toNat / fselPerWord) :
      ((s.lostUpdate A B p q).pin r).fsel = (if r = q.toNat then s.params.fnOutput else (s.pin r).fsel) ∧
        (r = p.toNat → ((s.lostUpdate A B p q).pin r).dir = some .output) := by
    have hread := getD_writeFsel_withFsel (pins := s.pins) (fn := s.params.fnOutput) (d := (s.pcfgoRead A p).nextReserved)
      ((length_updatePin p.toNat (fun x => { x with dir := some .output }) _).trans hlen) hr hw
    rw [State.pin, hpins, getD_updatePin _ _ (by rw [length_writeFsel, length_updatePin, hlen]; exact hq)]
    split
    case isTrue h =>
      subst h
      rw [hread, if_pos rfl]
      exact ⟨rfl, fun h => absurd h hne.symm⟩
    case isFalse h =>
      rw [hread, if_neg h]
      refine ⟨rfl, ?_⟩
      rintro rfl
      rw [getD_updatePin _ _ (by rw [hlen]; exact hp), if_pos rfl]
  refine ⟨_, run_two_pcfgos ho hf hAB hp hq hA hB, ?_, ?_, ?_, hA', hB', hfaults.trans hf⟩
  · exact (hpin p.toNat hp hword).1.trans (if_neg hne)
  · exact (hpin p.toNat hp hword).2 rfl
  · exact (hpin q.toNat hq rfl).1.trans (if_pos rfl)

end Sys2Proof.Machine
end

section
/-! SUPPORT. What the wire trace shows over a part of a run (spec/20_memory.md R60): the bits of the clock pulses, the START and the STOP
conditions, as a sum over the parts. -/

namespace Sys2Proof.Machine

/-! ## What is seen -/

/-- The bits of the clock pulses and the numbers of START and STOP conditions seen over a part of a trace. -/
structure Seen where
  bits : List Level
  starts : Nat
  stops : Nat

/-- Nothing seen. -/
def Seen.nothing : Seen := ⟨[], 0, 0⟩

/-- Clock pulses with these bits, no condition. -/
def Seen.pulses (bits : List Level) : Seen := ⟨bits, 0, 0⟩

/-- What is seen over one part and then another. -/
def Seen.next (v w : Seen) : Seen := ⟨v.bits ++ w.bits, v.starts + w.starts, v.stops + w.stops⟩

@[simp] theorem Seen.nothing_next (w : Seen) : Seen.nothing.next w = w := by simp [Seen.nothing, Seen.next]

@[simp] theorem Seen.next_nothing (w : Seen) : w.next Seen.nothing = w := by simp [Seen.nothing, Seen.next]

theorem Seen.next_assoc (u v w : Seen) : (u.next v).next w = u.next (v.next w) := by
  simp [Seen.next, List.append_assoc, Nat.add_assoc]

@[simp] theorem Seen.pulses_nil : Seen.pulses [] = Seen.nothing := rfl

@[simp] theorem Seen.pulses_next (bs cs : List Level) : (Seen.pulses bs).next (Seen.pulses cs) = Seen.pulses (bs ++ cs) := rfl

/-- What one change of the pair of levels shows. -/
def change (x y : WirePoint) : Seen where
  bits := if isClockPulse x y then [y.2] else []
  starts := if isStartCondition x y then 1 else 0
  stops := if isStopCondition x y then 1 else 0

/-- What a trace shows that goes on from the pair `x`. -/
def seenFrom (x : WirePoint) (l : List WirePoint) : Seen where
  bits := pulseBits (x :: l)
  starts := countChanges isStartCondition (x :: l)
  stops := countChanges isStopCondition (x :: l)

@[simp] theorem seenFrom_nil (x : WirePoint) : seenFrom x [] = Seen.nothing := rfl

theorem seenFrom_cons (x y : WirePoint) (l : List WirePoint) : seenFrom x (y :: l) = (change x y).next (seenFrom y l) := by
  simp only [seenFrom, change, Seen.next, pulseBits, countChanges]
  split <;> rfl

/-- A trace shows as many clock pulses as bits. -/
theorem countChanges_isClockPulse (l : List WirePoint) : countChanges isClockPulse l = (pulseBits l).length := by
  induction l with
  | nil => rfl
  | cons x l ih =>
    cases l with
    | nil => rfl
    | cons y l =>
      rw [countChanges, pulseBits, ih]
      split
      · simp [Nat.add_comm]
      · simp

section
variable {x y : WirePoint}

/-- With SCL low after it, a change shows nothing. -/
theorem change_of_low (hy : y.1 = false) : change x y = .nothing := by
  obtain ⟨c, d⟩ := x
  obtain ⟨c', d'⟩ := y
  cases hy
  cases c <;> cases d <;> cases d' <;> rfl

/-- A rise of SCL is a pulse, whose bit is the level of SDA after it. -/
theorem change_of_rise (hx : x.1 = false) (hy : y.1 = true) : change x y = .pulses [y.2] := by
  obtain ⟨c, d⟩ := x
  obtain ⟨c', d'⟩ := y
  cases hx
  cases hy
  cases d' <;> rfl

/-- With SCL high before and after it, a fall of SDA is a START, a rise a STOP. -/
theorem change_of_high (hx : x.1 = true) (hy : y.1 = true) :
    change x y = ⟨[], if x.2 = true ∧ y.2 = false then 1 else 0, if x.2 = false ∧ y.2 = true then 1 else 0⟩ := by
  obtain ⟨c, d⟩ := x
  obtain ⟨c', d'⟩ := y
  cases hx
  cases hy
  cases d <;> cases d' <;> rfl

theorem change_self : change x x = .nothing := by
  obtain ⟨c, d⟩ := x
  cases c <;> cases d <;> rfl

end

/-! ## The trace looks at no pin's attributes -/

theorem getD_map_bare (pins : List Pin) (p : Nat) : (pins.map Pin.bare).getD p Pin.absent = (pins.getD p Pin.absent).bare := by
  simp only [List.getD_eq_getElem?_getD, List.getElem?_map]
  cases pins[p]? <;> rfl

theorem nextRead_bare (P : Params) (f : AgentId → Bool) (p : Nat) (pins : List Pin) (events : List Event) :
    nextRead P f p (pins.map Pin.bare) events = nextRead P f p pins events := by
  induction events generalizing pins with
  | nil => rfl
  | cons e rest ih =>
    cases e with
    | memRead a off v => simp only [nextRead, ih]
    | memWrite a off v =>
      simp only [nextRead, writePins_bare]
      cases writePins P off v pins with
      | none => exact ih pins
      | some q =>
        simp only [Option.map_some, getD_map_bare, ih]
        rfl
    | tick a t => exact ih pins
    | completed a i r => exact ih pins

theorem wirePoint_bare (V : WireView) (k : Nat) (pins : List Pin) (events : List Event) :
    wirePoint V k (pins.map Pin.bare) events = wirePoint V k pins events := by
  simp only [wirePoint, wireLevel, getD_map_bare, nextRead_bare]
  rfl

theorem samePinOutput_bare (p : Nat) (pins pins' : List Pin) :
    samePinOutput p (pins.map Pin.bare) (pins'.map Pin.bare) = samePinOutput p pins pins' := by
  simp only [samePinOutput, getD_map_bare]
  rfl

theorem wireChanges_bare (V : WireView) (k : Nat) (pins : List Pin) (events : List Event) :
    wireChanges V k (pins.map Pin.bare) events = wireChanges V k pins events := by
  induction events generalizing k pins with
  | nil => rfl
  | cons e rest ih =>
    cases e with
    | memRead a off v => exact ih (k + 1) pins
    | memWrite a off v =>
      simp only [wireChanges, writePins_bare]
      cases writePins V.params off v pins with
      | none => exact ih (k + 1) pins
      | some q => simp only [Option.map_some, samePinOutput_bare, wirePoint_bare, ih]
    | tick a t => exact ih (k + 1) pins
    | completed a i r => exact ih (k + 1) pins

/-- Lists of pins that are the same but for the attributes. -/
def SameBare (pins pins' : List Pin) : Prop := pins.map Pin.bare = pins'.map Pin.bare

section
variable {pins pins' : List Pin} (h : SameBare pins pins')
include h

theorem SameBare.wireChanges (V : WireView) (k : Nat) (events : List Event) :
    wireChanges V k pins events = wireChanges V k pins' events := by
  rw [← wireChanges_bare, h, wireChanges_bare]

theorem SameBare.wirePoint (V : WireView) (k : Nat) (events : List Event) : wirePoint V k pins events = wirePoint V k pins' events := by
  rw [← wirePoint_bare, h, wirePoint_bare]

theorem SameBare.fsel (p : Nat) : (pins.getD p Pin.absent).fsel = (pins'.getD p Pin.absent).fsel := by
  have hp := congrArg (fun l : List Pin => (l.getD p Pin.absent).fsel) h
  simp only [getD_map_bare] at hp
  exact hp

theorem SameBare.latch (p : Nat) : (pins.getD p Pin.absent).latch = (pins'.getD p Pin.absent).latch := by
  have hp := congrArg (fun l : List Pin => (l.getD p Pin.absent).latch) h
  simp only [getD_map_bare] at hp
  exact hp

end

/-- Updates of one pin that are the same but for the attributes. -/
theorem sameBare_updatePin {f g : Pin → Pin} (h : ∀ x, (f x).bare = (g x).bare) (p : Nat) (pins : List Pin) :
    SameBare (updatePin p f pins) (updatePin p g pins) := by
  apply List.ext_getElem?
  intro q
  cases hx : pins[q]? with
  | none => simp [updatePin, hx]
  | some x =>
    by_cases hq : q = p
    · subst hq
      simp [updatePin, hx, h x]
    · simp [updatePin, hx, hq]

/-! ## The parts of a trace -/

/-- `x` is the pair of levels of the lines: SCL's latch, and SDA's where the master drives it. -/
structure At (V : WireView) (pins : List Pin) (x : WirePoint) : Prop where
  scl : x.1 = (pins.getD V.scl Pin.absent).latch
  sda : (pins.getD V.sda Pin.absent).fsel = V.params.fnOutput → x.2 = (pins.getD V.sda Pin.absent).latch

/-- The pair of the trace is that of the lines, SCL being driven. -/
theorem at_wirePoint {V : WireView} {pins : List Pin} (h : (pins.getD V.scl Pin.absent).fsel = V.params.fnOutput) (k : Nat)
    (events : List Event) : At V pins (wirePoint V k pins events) :=
  ⟨wireLevel_output V V.scl k pins events h, wireLevel_output V V.sda k pins events⟩

theorem At.of_sameBare {V : WireView} {pins pins' : List Pin} {x : WirePoint} (h : At V pins x) (hb : SameBare pins pins') :
    At V pins' x :=
  ⟨h.scl.trans (hb.latch _), fun hd => (h.sda ((hb.fsel _).trans hd)).trans (hb.latch _)⟩

/-- The events `es`, which bring the pins from `pins` to `pins'`, show `w`, whatever follows them in the master's operation. -/
def Shows (V : WireView) (a : AgentId) (pins : List Pin) (es : List Event) (pins' : List Pin) (w : Seen) : Prop :=
  ∀ (k : Nat) (x : WirePoint) (rest : List Event), At V pins x → ofMaster V.inFlight a rest = true →
    ∃ y, At V pins' y ∧
      seenFrom x (wireChanges V k pins (es ++ rest)) = w.next (seenFrom y (wireChanges V (k + es.length) pins' rest))

section
variable {V : WireView} {a : AgentId} {pins pins' pins'' : List Pin} {es es' : List Event} {w w' : Seen}

theorem Shows.trans (h : Shows V a pins es pins' w) (h' : Shows V a pins' es' pins'' w') (hno : NoCompletion es') :
    Shows V a pins (es ++ es') pins'' (w.next w') := by
  intro k x rest hx hm
  have hm' : ofMaster V.inFlight a (es' ++ rest) = true := by rw [ofMaster_append _ _ _ _ (hno a)]; exact hm
  obtain ⟨y, hy, hseen⟩ := h k x (es' ++ rest) hx hm'
  obtain ⟨z, hz, hseen'⟩ := h' (k + es.length) y rest hy hm
  refine ⟨z, hz, ?_⟩
  rw [List.append_assoc, hseen, hseen', Seen.next_assoc, List.length_append, Nat.add_assoc]

/-- No event, and the pins the same but for the attributes. -/
theorem shows_nil (hb : SameBare pins pins') : Shows V a pins [] pins' .nothing := by
  intro k x rest hx _
  refine ⟨x, hx.of_sameBare hb, ?_⟩
  rw [Seen.nothing_next, List.nil_append, hb.wireChanges]
  rfl

/-- A read shows nothing of itself. -/
theorem shows_memRead (off : Nat) (v : Word) (hb : SameBare pins pins') : Shows V a pins [.memRead a off v] pins' .nothing := by
  intro k x rest hx _
  refine ⟨x, hx.of_sameBare hb, ?_⟩
  rw [Seen.nothing_next, ← hb.wireChanges]
  rfl

/-- A counter read shows nothing. -/
theorem shows_tick (t : Nat) : Shows V a pins [.tick a t] pins .nothing := by
  intro k x rest hx _
  refine ⟨x, hx, ?_⟩
  rw [Seen.nothing_next]
  rfl

/-- A write shows the change from the pair before it to the pair after it, which is a pair of the trace if the write changes either line. -/
theorem seenFrom_write {k off : Nat} {v : Word} {q : List Pin} {x : WirePoint} {rest : List Event}
    (hw : writePins V.params off v pins = some q) (hb : SameBare q pins')
    (hout : (pins'.getD V.scl Pin.absent).fsel = V.params.fnOutput) (hx : At V pins x) :
    ∃ y, At V pins' y ∧ (y = x ∨ y = wirePoint V (k + 1) pins' rest) ∧
      seenFrom x (wireChanges V k pins (.memWrite a off v :: rest)) =
        (change x y).next (seenFrom y (wireChanges V (k + 1) pins' rest)) := by
  rw [wireChanges_write V k pins rest a off v hw, hb.wireChanges, hb.wirePoint]
  split
  case isTrue hsame =>
    simp only [samePinOutput, Bool.and_eq_true, beq_iff_eq] at hsame
    obtain ⟨⟨-, hscl⟩, hsda, hsda'⟩ := hsame
    refine ⟨x, At.of_sameBare ⟨hx.scl.trans hscl, fun hd => (hx.sda (hsda.trans hd)).trans hsda'⟩ hb, .inl rfl, ?_⟩
    rw [change_self, Seen.nothing_next]
    rfl
  case isFalse => exact ⟨_, at_wirePoint hout _ _, .inr rfl, seenFrom_cons _ _ _⟩

/-- A write shows `w` where every change between pairs of the lines before and after it does. -/
theorem shows_memWrite {off : Nat} {v : Word} {q : List Pin} (hw : writePins V.params off v pins = some q) (hb : SameBare q pins')
    (hout : (pins'.getD V.scl Pin.absent).fsel = V.params.fnOutput) (hc : ∀ x y, At V pins x → At V pins' y → change x y = w) :
    Shows V a pins [.memWrite a off v] pins' w := by
  intro k x rest hx _
  obtain ⟨y, hy, -, hseen⟩ := seenFrom_write (a := a) (k := k) (rest := rest) hw hb hout hx
  refine ⟨y, hy, ?_⟩
  rw [← hc x y hx hy]
  exact hseen

end

end Sys2Proof.Machine
end

section
/-! SUPPORT. What a procedure of the bus does (spec/42_i2c_primitives.md R143 to R152): the frame it keeps, the level draws and the time it takes,
and what it shows on the wire. `Moves` says all of it of one part of a run, and parts add up. -/

namespace Sys2Proof.Machine

/-! ## What the parts of a bus procedure keep -/

/-- What no part of a bus procedure changes: everything outside the bus, every pin but SCL and SDA, every bus register but `dir` and
`lastEdge`. -/
structure Keeps (b : BusRegs) (s t : State) : Prop where
  elsewhere : s.sameElsewhere t
  numPins : t.pins.length = s.pins.length
  pins : ∀ q, q ≠ b.scl → q ≠ b.sda → t.pin q = s.pin q
  bus : t.bus = { s.bus with dir := t.bus.dir, lastEdge := t.bus.lastEdge }

theorem Keeps.refl (b : BusRegs) (s : State) : Keeps b s s := ⟨rfl, rfl, fun _ _ _ => rfl, rfl⟩

theorem Keeps.trans {b c : BusRegs} {s t u : State} (h : Keeps b s t) (h' : Keeps c t u) (hscl : c.scl = b.scl) (hsda : c.sda = b.sda) :
    Keeps b s u := by
  refine ⟨?_, h'.numPins.trans h.numPins, fun q hc hd => ?_, ?_⟩
  · rw [State.sameElsewhere, h'.elsewhere, h.elsewhere]
  · rw [h'.pins q (hscl ▸ hc) (hsda ▸ hd), h.pins q hc hd]
  · rw [h'.bus, h.bus]

section
variable {b : BusRegs} {s : State} (a : AgentId)

theorem keeps_waited (n : Nat) : Keeps b s (s.waited a n) := ⟨rfl, rfl, fun _ _ _ => rfl, rfl⟩

theorem keeps_busDir (d : BusDir) : Keeps b s (s.assign (.busDir d)) := ⟨rfl, rfl, fun _ _ _ => rfl, rfl⟩

theorem keeps_lastEdge (t : Nat) : Keeps b s (s.assign (.lastEdge t)) := ⟨rfl, rfl, fun _ _ _ => rfl, rfl⟩

variable {p : Nat} (hp : p = b.scl ∨ p = b.sda)
include hp

/-- A pin that is neither of the bus's is not the pin of an access of the bus. -/
theorem ne_of_busPin {q : Nat} (hc : q ≠ b.scl) (hd : q ≠ b.sda) : q ≠ p := by
  rintro rfl
  exact hp.elim hc hd

theorem keeps_valueSet (v : Level) : Keeps b s (s.valueSet a p v) :=
  ⟨rfl, length_updatePin _ _ _, fun _ hc hd => getD_updatePin_ne _ _ _ _ (ne_of_busPin hp hc hd), rfl⟩

theorem keeps_valueGot : Keeps b s (s.valueGot a p) :=
  ⟨rfl, length_updatePin _ _ _, fun _ hc hd => getD_updatePin_ne _ _ _ _ (ne_of_busPin hp hc hd), rfl⟩

theorem keeps_configured (fn : BitVec 3) (d : PinDir) : Keeps b s (s.configured a p fn d) :=
  ⟨rfl, length_updatePin _ _ _, fun _ hc hd => getD_updatePin_ne _ _ _ _ (ne_of_busPin hp hc hd), rfl⟩

end

/-- A live bus whose SCL is driven, and whose SDA is driven exactly in writing mode (R31). -/
structure Driven (P : Params) (b : BusRegs) (s : State) : Prop extends Live P b s where
  scl_fsel : (s.pin b.scl).fsel = P.fnOutput
  sda_fsel : (s.pin b.sda).fsel = (match b.dir with
    | .writing => P.fnOutput
    | .reading => P.fnInput)

/-! ## The wire of a bus -/

/-- The view is of the bus's pins under the parameters. -/
def WireView.Watches (V : WireView) (P : Params) (b : BusRegs) : Prop := V.params = P ∧ V.scl = b.scl ∧ V.sda = b.sda

section
variable {V : WireView} {P : Params} {b : BusRegs} {s : State} {x : WirePoint} (hV : V.Watches P b) (h : At V s.pins x)
include hV h

theorem At.scl_latch : x.1 = (s.pin b.scl).latch := by
  obtain ⟨-, hc, -⟩ := hV
  rw [h.scl, hc]
  rfl

theorem At.sda_latch (hd : (s.pin b.sda).fsel = P.fnOutput) : x.2 = (s.pin b.sda).latch := by
  obtain ⟨hP, -, hsda⟩ := hV
  rw [h.sda (by rw [hP, hsda]; exact hd), hsda]
  rfl

end

/-! ## A part of a run -/

/-- Agent `a` comes from `s` to `t` in a procedure of the bus: the bus registers go from `b` to `b'`, `n` level draws are taken, the stamp
moves by at least `h` half periods, and the wire shows `w`. -/
structure Moves (P : Params) (a : AgentId) (b : BusRegs) (s : State) (b' : BusRegs) (t : State) (n h : Nat) (w : Seen) : Prop where
  keeps : Keeps b s t
  driven : Driven P b' t
  regs : b' = { b with dir := b'.dir, lastEdge := b'.lastEdge }
  levels : t.env.levels = s.env.levels.skip n
  time : b.lastEdge + h * b.halfPeriod ≤ b'.lastEdge
  events : ∃ es, t.history = s.history ++ es ∧ NoCompletion es ∧ ∀ V : WireView, V.Watches P b → Shows V a s.pins es t.pins w

theorem NoCompletion.append {es es' : List Event} (h : NoCompletion es) (h' : NoCompletion es') : NoCompletion (es ++ es') :=
  fun a i r hm => (List.mem_append.1 hm).elim (h a i r) (h' a i r)

theorem noCompletion_nil : NoCompletion [] := fun _ _ _ h => by cases h

theorem skip_add {α : Type} (n m : Nat) (d : Draws α) : d.skip (n + m) = (d.skip n).skip m := by
  induction n generalizing d with
  | zero => rw [Nat.zero_add]; rfl
  | succ n ih => rw [Nat.succ_add]; exact ih d.next

section
variable {P : Params} {a : AgentId} {b b' b'' : BusRegs} {s t u : State} {n m h h' : Nat} {w w' : Seen}

theorem Moves.scl (hm : Moves P a b s b' t n h w) : b'.scl = b.scl := by
  rw [hm.regs]
theorem Moves.sda (hm : Moves P a b s b' t n h w) : b'.sda = b.sda := by
  rw [hm.regs]
theorem Moves.halfPeriod (hm : Moves P a b s b' t n h w) : b'.halfPeriod = b.halfPeriod := by
  rw [hm.regs]

theorem Moves.refl (D : Driven P b s) : Moves P a b s b s 0 0 .nothing :=
  ⟨.refl b s, D, rfl, rfl, by simp, [], by simp, noCompletion_nil, fun _ _ => shows_nil rfl⟩

theorem Moves.trans (hm : Moves P a b s b' t n h w) (hm' : Moves P a b' t b'' u m h' w') :
    Moves P a b s b'' u (n + m) (h + h') (w.next w') := by
  obtain ⟨es, hes, hno, hshow⟩ := hm.events
  obtain ⟨es', hes', hno', hshow'⟩ := hm'.events
  refine ⟨hm.keeps.trans hm'.keeps hm.scl hm.sda, hm'.driven, ?_, ?_, ?_, es ++ es', ?_, hno.append hno', fun V hV => ?_⟩
  · rw [hm'.regs, hm.regs]
  · rw [hm'.levels, hm.levels, skip_add]
  · have h1 := hm.time
    have h2 := hm'.time
    rw [hm.halfPeriod] at h2
    rw [Nat.add_mul]
    omega
  · rw [hes', hes, List.append_assoc]
  · have hV' : V.Watches P b' := ⟨hV.1, hV.2.1.trans hm.scl.symm, hV.2.2.trans hm.sda.symm⟩
    exact (hshow V hV).trans (hshow' V hV') hno'

/-- The level drawn for SDA after `n` draws have been taken. -/
theorem Moves.sdaDraw (hm : Moves P a b s b' t n h w) (m : Nat) : t.sdaDraw b' m = s.sdaDraw b (n + m) := by
  simp only [State.sdaDraw, State.levelsAt, hm.levels, skip_add, hm.sda]

end

end Sys2Proof.Machine
end

section
/-! SUPPORT. The primitives of the bus as parts of a run: what each waits, writes and reads shows on the wire and keeps. -/

namespace Sys2Proof.Machine

/-! ## The events of the accesses to the bus's pins -/

section
variable {V : WireView} {P : Params} {a : AgentId} {b : BusRegs} {s : State} {p : Nat}

theorem sameBare_valueSet (v : Level) : SameBare (updatePin p (fun x => { x with latch := v }) s.pins) (s.valueSet a p v).pins :=
  sameBare_updatePin (f := fun x => { x with latch := v }) (g := fun x => { x with latch := v, last := some v }) (fun _ => rfl) p s.pins

theorem sameBare_valueGot : SameBare s.pins (s.valueGot a p).pins := by
  have hsame : updatePin p id s.pins = s.pins := updatePin_eq_self p id s.pins fun _ _ => rfl
  have hbare : SameBare (updatePin p id s.pins) (s.valueGot a p).pins :=
    sameBare_updatePin (f := id) (g := fun x => { x with last := some (s.levelOf p) }) (fun _ => rfl) p s.pins
  rwa [hsame] at hbare

theorem sameBare_configured (fn : BitVec 3) (d : PinDir) :
    SameBare (updatePin p (fun x => { x with fsel := fn }) s.pins) (s.configured a p fn d).pins :=
  sameBare_updatePin (f := fun x => { x with fsel := fn }) (g := fun x => { x with fsel := fn, dir := some d }) (fun _ => rfl) p s.pins

/-- GetValue shows nothing. -/
theorem shows_valueGot : Shows V a s.pins [.memRead a (levOff s.params p) (levWord s.params s.pins (p / pinsPerBank) s.nextLevels)]
    (s.valueGot a p).pins .nothing :=
  shows_memRead _ _ sameBare_valueGot

/-- A function-select rewrite shows what its write does. -/
theorem shows_configured (hp : p < s.pins.length) {w : Seen} {fn : BitVec 3} {d : PinDir}
    (hout : ((s.configured a p fn d).pin V.scl).fsel = V.params.fnOutput)
    (hc : ∀ x y, At V s.pins x → At V (s.configured a p fn d).pins y → change x y = w) :
    Shows V a s.pins
      [.memRead a (fselOff p) (fselWord s.pins (p / fselPerWord) s.nextReserved),
       .memWrite a (fselOff p) (withFsel (fselWord s.pins (p / fselPerWord) s.nextReserved) p fn)]
      (s.configured a p fn d).pins w := by
  have hread : Shows V a s.pins [.memRead a (fselOff p) (fselWord s.pins (p / fselPerWord) s.nextReserved)] s.pins .nothing :=
    shows_memRead _ _ rfl
  have hwrite := shows_memWrite (a := a) (writePins_withFsel V.params s.pins p fn s.nextReserved hp)
    (sameBare_configured (a := a) fn d) hout hc
  have hboth := hread.trans hwrite (by simp [NoCompletion])
  rwa [Seen.nothing_next] at hboth

variable (L : Live P b s) (hV : V.Watches P b) (hp : p < s.pins.length)
include L hV hp

/-- The write of SetValue, as the trace takes it. -/
theorem writePins_valueSet (v : Level) :
    writePins V.params (if v then setOff s.params p else clrOff s.params p) (bitMask p) s.pins =
      some (updatePin p (fun x => { x with latch := v }) s.pins) := by
  rw [hV.1, L.params]
  exact writePins_setValue P s.pins p v L.ok hp

/-- SetValue shows what each change does between pairs of the lines before and after it. -/
theorem shows_valueSet {w : Seen} {v : Level} (hout : ((s.valueSet a p v).pin V.scl).fsel = V.params.fnOutput)
    (hc : ∀ x y, At V s.pins x → At V (s.valueSet a p v).pins y → change x y = w) :
    Shows V a s.pins [.memWrite a (if v then setOff s.params p else clrOff s.params p) (bitMask p)] (s.valueSet a p v).pins w :=
  shows_memWrite (writePins_valueSet L hV hp v) (sameBare_valueSet v) hout hc

end

/-! ## The lines -/

section
variable {P : Params} {a : AgentId} {b : BusRegs} {s : State}

/-- A driven SCL reads as its latch. -/
theorem Driven.levelOf_scl (D : Driven P b s) : s.levelOf b.scl = (s.pin b.scl).latch := by
  rw [State.levelOf, lineLevel, if_pos (by rw [D.params]; exact D.scl_fsel)]

theorem Driven.sda_output (D : Driven P b s) (hd : b.dir = .writing) : (s.pin b.sda).fsel = P.fnOutput := by
  have h := D.sda_fsel
  rwa [hd] at h

theorem Driven.sda_input (D : Driven P b s) (hd : b.dir = .reading) : (s.pin b.sda).fsel = P.fnInput := by
  have h := D.sda_fsel
  rwa [hd] at h

theorem Live.fnInput_ne (L : Live P b s) : P.fnInput ≠ P.fnOutput := by
  obtain ⟨-, -, -, -, -, h, -⟩ := L.ok
  exact h

/-- In writing mode SDA reads as its latch. -/
theorem Driven.levelOf_sda (D : Driven P b s) (hd : b.dir = .writing) : s.levelOf b.sda = (s.pin b.sda).latch := by
  rw [State.levelOf, lineLevel, if_pos (by rw [D.params]; exact D.sda_output hd)]

/-- In reading mode SDA reads as drawn. -/
theorem Driven.levelOf_sda_drawn (D : Driven P b s) (hd : b.dir = .reading) : s.levelOf b.sda = s.sdaDraw b 0 := by
  rw [State.levelOf, lineLevel, if_neg (by rw [D.params, D.sda_input hd]; exact D.fnInput_ne)]
  rfl

/-- Updates that keep the pins' functions and the directions keep the bus driven. -/
theorem Driven.of_fsel (D : Driven P b s) {b' : BusRegs} {t : State} (L : Live P b' t) (hb : b' = { b with lastEdge := b'.lastEdge })
    (hf : ∀ q, (t.pin q).fsel = (s.pin q).fsel) : Driven P b' t := by
  refine { toLive := L, scl_fsel := ?_, sda_fsel := ?_ }
  · rw [hf, hb]
    exact D.scl_fsel
  · rw [hf, hb]
    exact D.sda_fsel

theorem fsel_valueSet {p : Nat} (hp : p < s.pins.length) (v : Level) (q : Nat) : ((s.valueSet a p v).pin q).fsel = (s.pin q).fsel := by
  rw [pin_valueSet hp]
  split
  · next h => rw [h]
  · rfl

theorem fsel_valueGot {p : Nat} (hp : p < s.pins.length) (q : Nat) : ((s.valueGot a p).pin q).fsel = (s.pin q).fsel := by
  rw [pin_valueGot hp]
  split
  · next h => rw [h]
  · rfl

theorem latch_valueGot {p : Nat} (hp : p < s.pins.length) (q : Nat) : ((s.valueGot a p).pin q).latch = (s.pin q).latch := by
  rw [pin_valueGot hp]
  split
  · next h => rw [h]
  · rfl

theorem latch_configured {p : Nat} (hp : p < s.pins.length) (fn : BitVec 3) (d : PinDir) (q : Nat) :
    ((s.configured a p fn d).pin q).latch = (s.pin q).latch := by
  rw [pin_configured hp]
  split
  · next h => rw [h]
  · rfl

theorem latch_valueSet_self {p : Nat} (hp : p < s.pins.length) (v : Level) : ((s.valueSet a p v).pin p).latch = v := by
  rw [pin_valueSet hp, if_pos rfl]

theorem latch_valueSet_ne {p q : Nat} (hp : p < s.pins.length) (h : q ≠ p) (v : Level) :
    ((s.valueSet a p v).pin q).latch = (s.pin q).latch := by
  rw [pin_valueSet hp, if_neg h]

end

/-! ## The primitives as parts of a run -/

section
variable {P : Params} {a : AgentId} {b : BusRegs} {s : State} (D : Driven P b s)
include D

/-- A wait. -/
theorem moves_waited (n : Nat) : Moves P a b s b (s.waited a n) 0 0 .nothing where
  keeps := keeps_waited a n
  driven := D.of_fsel (D.toLive.waited n) rfl fun _ => rfl
  regs := rfl
  levels := rfl
  time := by simp
  events := ⟨[.tick a (s.waitedTo n)], rfl, by simp [NoCompletion], fun _ _ => shows_tick _⟩

/-- A stamp that lies `h` half periods past the one before. -/
theorem moves_lastEdge {h t : Nat} (ht : b.lastEdge + h * b.halfPeriod ≤ t) :
    Moves P a b s { b with lastEdge := t } (s.assign (.lastEdge t)) 0 h .nothing where
  keeps := keeps_lastEdge t
  driven := D.of_fsel (D.toLive.of_eq rfl rfl rfl (Bus.regs_lastEdge D.regs t) rfl rfl) rfl fun _ => rfl
  regs := rfl
  levels := rfl
  time := ht
  events := ⟨[], (List.append_nil _).symm, noCompletion_nil, fun _ _ => shows_nil rfl⟩

/-- A write of one of the lines. -/
theorem moves_valueSet {p : Nat} (hp : p = b.scl ∨ p = b.sda) {v : Level} {w : Seen}
    (hc : ∀ V : WireView, V.Watches P b → ∀ x y, At V s.pins x → At V (s.valueSet a p v).pins y → change x y = w) :
    Moves P a b s b (s.valueSet a p v) 0 0 w := by
  have hlt : p < s.pins.length := by
    rcases hp with rfl | rfl
    · exact D.scl_lt
    · exact D.sda_lt
  exact {
    keeps := keeps_valueSet a hp v
    driven := D.of_fsel (D.toLive.valueSet p v) rfl (fsel_valueSet hlt v)
    regs := rfl
    levels := rfl
    time := by simp
    events := ⟨_, rfl, by simp [NoCompletion], fun V hV =>
      shows_valueSet D.toLive hV hlt (by rw [fsel_valueSet hlt, hV.1, hV.2.1]; exact D.scl_fsel) (hc V hV)⟩ }

/-- A level read of one of the lines. -/
theorem moves_valueGot {p : Nat} (hp : p = b.scl ∨ p = b.sda) : Moves P a b s b (s.valueGot a p) 1 0 .nothing := by
  have hlt : p < s.pins.length := by
    rcases hp with rfl | rfl
    · exact D.scl_lt
    · exact D.sda_lt
  exact {
    keeps := keeps_valueGot a hp
    driven := D.of_fsel (D.toLive.valueGot p) rfl (fsel_valueGot hlt)
    regs := rfl
    levels := rfl
    time := by simp
    events := ⟨_, rfl, by simp [NoCompletion], fun _ _ => shows_valueGot⟩ }

/-- With SCL low, SDA's function and the direction are changed together. -/
theorem moves_switched (hl : (s.pin b.scl).latch = false) {fn : BitVec 3} (d : PinDir) {dir : BusDir}
    (hfn : fn = (match dir with
      | .writing => P.fnOutput
      | .reading => P.fnInput)) :
    Moves P a b s { b with dir := dir } ((s.configured a b.sda fn d).assign (.busDir dir)) 0 0 .nothing := by
  have hscl : (s.configured a b.sda fn d).pin b.scl = s.pin b.scl := by rw [pin_configured D.sda_lt, if_neg D.distinct]
  have hsda : ((s.configured a b.sda fn d).pin b.sda).fsel = fn := by rw [pin_configured D.sda_lt, if_pos rfl]
  exact {
    keeps := (keeps_configured a (.inr rfl) fn d).trans (keeps_busDir dir) rfl rfl
    driven := {
      toLive := (D.toLive.configured b.sda fn d).dir dir
      scl_fsel := (congrArg Pin.fsel hscl).trans D.scl_fsel
      sda_fsel := hsda.trans hfn }
    regs := rfl
    levels := rfl
    time := by simp
    events := ⟨_, rfl, by simp [NoCompletion], fun V hV => shows_configured D.sda_lt
      (by rw [hV.1, hV.2.1, hscl]; exact D.scl_fsel)
      fun x y _ hy => change_of_low (by
        have hy' := At.scl_latch hV (s := s.configured a b.sda fn d) hy
        rw [hy', hscl, hl])⟩ }

end

end Sys2Proof.Machine
end

section
/-! SUPPORT. The timing procedures, the direction switches and the bits of the bus as parts of a run (spec/42_i2c_primitives.md R143 to R152). -/

namespace Sys2Proof.Machine

/-! ## The latches of the lines -/

section
variable {P : Params} {a : AgentId} {b : BusRegs} {s : State} (L : Live P b s) (v : Level)
include L

theorem pin_sclSet (q : Nat) :
    (s.sclSet a b v).pin q = if q = b.scl then { s.pin b.scl with latch := v, last := some v } else s.pin q :=
  pin_valueSet (s := s.waited a (b.lastEdge + b.halfPeriod)) L.scl_lt a q v

theorem pin_sdaSet (q : Nat) :
    (s.sdaSet a b v).pin q = if q = b.sda then { s.pin b.sda with latch := v, last := some v } else s.pin q :=
  pin_valueSet (s := s.waited a (b.lastEdge + b.quarterPeriod)) L.sda_lt a q v

theorem sclSet_scl_latch : ((s.sclSet a b v).pin b.scl).latch = v := by rw [pin_sclSet L, if_pos rfl]

theorem sclSet_sda : (s.sclSet a b v).pin b.sda = s.pin b.sda := by rw [pin_sclSet L, if_neg L.distinct.symm]

theorem sdaSet_sda_latch : ((s.sdaSet a b v).pin b.sda).latch = v := by rw [pin_sdaSet L, if_pos rfl]

theorem sdaSet_scl : (s.sdaSet a b v).pin b.scl = s.pin b.scl := by rw [pin_sdaSet L, if_neg L.distinct]

end

section
variable {P : Params} {a : AgentId} {b : BusRegs} {s : State} (D : Driven P b s)
include D

/-! ## SclLow, SclHigh, SdaDrive -/

/-- SclLow and SclHigh show what their write does. -/
theorem moves_sclSet {v : Level} {w : Seen}
    (hc : ∀ V : WireView, V.Watches P b → ∀ x y, At V s.pins x → At V (s.sclSet a b v).pins y → change x y = w) :
    Moves P a b s (b.stamped s) (s.sclSet a b v) 0 1 w := by
  have hwait := moves_waited (a := a) D (b.lastEdge + b.halfPeriod)
  have hset := moves_valueSet (a := a) (v := v) (w := w) hwait.driven (.inl rfl) hc
  have hstamp := moves_lastEdge (a := a) (h := 1) (t := s.waitedTo (b.lastEdge + b.halfPeriod)) hset.driven
    (by simp [State.waitedTo]; omega)
  have h := (hwait.trans hset).trans hstamp
  rwa [Seen.nothing_next, Seen.next_nothing] at h

/-- SdaDrive shows what its write does. -/
theorem moves_sdaSet {v : Level} {w : Seen}
    (hc : ∀ V : WireView, V.Watches P b → ∀ x y, At V s.pins x → At V (s.sdaSet a b v).pins y → change x y = w) :
    Moves P a b s b (s.sdaSet a b v) 0 0 w := by
  have hwait := moves_waited (a := a) D (b.lastEdge + b.quarterPeriod)
  have hset := moves_valueSet (a := a) (v := v) (w := w) hwait.driven (.inr rfl) hc
  have h := hwait.trans hset
  rwa [Seen.nothing_next] at h

/-- SclLow shows nothing. -/
theorem moves_sclLow : Moves P a b s (b.stamped s) (s.sclSet a b false) 0 1 .nothing :=
  moves_sclSet D fun _ hV _ _ _ hy => change_of_low ((At.scl_latch hV hy).trans (sclSet_scl_latch D.toLive false))

/-- SclHigh with SDA driven and SCL low shows a pulse with SDA's latch. -/
theorem moves_sclHigh (hd : b.dir = .writing) (hl : (s.pin b.scl).latch = false) :
    Moves P a b s (b.stamped s) (s.sclSet a b true) 0 1 (.pulses [(s.pin b.sda).latch]) := by
  refine moves_sclSet D fun V hV x y hx hy => ?_
  have hsda : y.2 = (s.pin b.sda).latch := by
    rw [At.sda_latch hV hy (by rw [sclSet_sda D.toLive]; exact D.sda_output hd), sclSet_sda D.toLive]
  rw [← hsda]
  exact change_of_rise ((At.scl_latch hV hx).trans hl) ((At.scl_latch hV hy).trans (sclSet_scl_latch D.toLive true))

/-- SdaDrive with SCL low shows nothing. -/
theorem moves_sdaSet_low (hl : (s.pin b.scl).latch = false) (v : Level) : Moves P a b s b (s.sdaSet a b v) 0 0 .nothing :=
  moves_sdaSet D fun V hV x y _ hy => change_of_low (by rw [At.scl_latch hV hy, sdaSet_scl D.toLive, hl])

/-- SdaDrive with SCL high shows a START where SDA falls and a STOP where it rises. -/
theorem moves_sdaSet_high (hd : b.dir = .writing) (hl : (s.pin b.scl).latch = true) (v : Level) :
    Moves P a b s b (s.sdaSet a b v) 0 0
      ⟨[], if (s.pin b.sda).latch = true ∧ v = false then 1 else 0, if (s.pin b.sda).latch = false ∧ v = true then 1 else 0⟩ := by
  refine moves_sdaSet D fun V hV x y hx hy => ?_
  have hout : ((s.sdaSet a b v).pin b.sda).fsel = P.fnOutput := by
    rw [pin_sdaSet D.toLive, if_pos rfl]
    exact D.sda_output hd
  rw [change_of_high ((At.scl_latch hV hx).trans hl) (by rw [At.scl_latch hV hy, sdaSet_scl D.toLive, hl]),
    At.sda_latch hV hx (D.sda_output hd), At.sda_latch hV hy hout, sdaSet_sda_latch D.toLive]

/-! ## SetWriteMode, SetReadMode -/

theorem madeWriting_scl_latch : ((s.madeWriting a b).pin b.scl).latch = (s.pin b.scl).latch := by
  have L1 : Live P b (s.valueGot a b.scl) := D.toLive.valueGot _
  have L2 : Live P b ((s.valueGot a b.scl).valueSet a b.sda true) := L1.valueSet _ _
  exact (latch_configured (a := a) L2.sda_lt _ _ _).trans ((latch_valueSet_ne L1.sda_lt D.distinct _).trans (latch_valueGot D.scl_lt _))

theorem madeReading_scl_latch : ((s.madeReading a b).pin b.scl).latch = (s.pin b.scl).latch := by
  have L1 : Live P b (s.valueGot a b.scl) := D.toLive.valueGot _
  exact (latch_configured (a := a) L1.sda_lt _ _ _).trans (latch_valueGot D.scl_lt _)

/-- The switch to writing, with SCL low, takes one level draw and shows nothing. -/
theorem moves_madeWriting (hl : (s.pin b.scl).latch = false) :
    Moves P a b s { b with dir := .writing } (s.madeWriting a b) 1 0 .nothing := by
  have hgot := moves_valueGot (a := a) D (.inl rfl)
  have hl1 : ((s.valueGot a b.scl).pin b.scl).latch = false := (latch_valueGot D.scl_lt _).trans hl
  have hl2 : (((s.valueGot a b.scl).valueSet a b.sda true).pin b.scl).latch = false :=
    (latch_valueSet_ne hgot.driven.sda_lt D.distinct _).trans hl1
  have hset := moves_valueSet (a := a) (v := true) (w := .nothing) hgot.driven (.inr rfl)
    fun V hV x y _ hy => change_of_low ((At.scl_latch hV hy).trans hl2)
  have hswitch := moves_switched (a := a) (fn := s.params.fnOutput) (dir := .writing) hset.driven hl2 .output
    (by rw [D.params])
  have h := (hgot.trans hset).trans hswitch
  rwa [Seen.nothing_next, Seen.nothing_next] at h

/-- The switch to reading, with SCL low, takes one level draw and shows nothing. -/
theorem moves_madeReading (hl : (s.pin b.scl).latch = false) :
    Moves P a b s { b with dir := .reading } (s.madeReading a b) 1 0 .nothing := by
  have hgot := moves_valueGot (a := a) D (.inl rfl)
  have hl1 : ((s.valueGot a b.scl).pin b.scl).latch = false := (latch_valueGot D.scl_lt _).trans hl
  have hswitch := moves_switched (a := a) (fn := s.params.fnInput) (dir := .reading) hgot.driven hl1 .input
    (by rw [D.params])
  have h := hgot.trans hswitch
  rwa [Seen.nothing_next] at h

end

/-- How many level draws a switch to writing takes (R143). -/
def drawsToWrite : BusDir → Nat
  | .writing => 0
  | .reading => 1

/-- How many level draws a switch to reading takes (R144). -/
def drawsToRead : BusDir → Nat
  | .writing => 1
  | .reading => 0

section
variable {P : Params} {a : AgentId} {b : BusRegs} {s : State} (D : Driven P b s) (fail k : Prog)
include D

/-- SetWriteMode while SCL is low returns in writing mode. -/
theorem run_setWriteMode (hl : (s.pin b.scl).latch = false) :
    ∃ b' t, (setWriteMode P fail k).run a s = k.run a t ∧ Moves P a b s b' t (drawsToWrite b.dir) 0 .nothing ∧
      b'.dir = .writing ∧ (t.pin b'.scl).latch = false := by
  cases hd : b.dir with
  | writing => exact ⟨b, s, run_setWriteMode_writing D.toLive hd fail k, .refl D, hd, hl⟩
  | reading =>
    exact ⟨_, _, run_setWriteMode_low D.toLive hd (D.levelOf_scl.trans hl) fail k, moves_madeWriting D hl, rfl,
      (madeWriting_scl_latch D).trans hl⟩

/-- SetReadMode while SCL is low returns in reading mode. -/
theorem run_setReadMode (hl : (s.pin b.scl).latch = false) :
    ∃ b' t, (setReadMode P fail k).run a s = k.run a t ∧ Moves P a b s b' t (drawsToRead b.dir) 0 .nothing ∧
      b'.dir = .reading ∧ (t.pin b'.scl).latch = false := by
  cases hd : b.dir with
  | reading => exact ⟨b, s, run_setReadMode_reading D.toLive hd fail k, .refl D, hd, hl⟩
  | writing =>
    exact ⟨_, _, run_setReadMode_low D.toLive hd (D.levelOf_scl.trans hl) fail k, moves_madeReading D hl, rfl,
      (madeReading_scl_latch D).trans hl⟩

end

/-! ## Bits -/

/-- `b'` and `t` are writing, with SCL high and SDA driven to `v`. -/
structure Sent (v : Level) (b' : BusRegs) (t : State) : Prop where
  dir : b'.dir = .writing
  scl_latch : (t.pin b'.scl).latch = true
  sda_latch : (t.pin b'.sda).latch = v

/-- `b'` and `t` are reading, with SCL high. -/
structure Received (b' : BusRegs) (t : State) : Prop where
  dir : b'.dir = .reading
  scl_latch : (t.pin b'.scl).latch = true

section
variable {P : Params} {a : AgentId} {b : BusRegs} {s : State} (D : Driven P b s)
include D

/-- The state after a bit's SdaDrive and SclHigh (R145). -/
def State.bitSent (a : AgentId) (b : BusRegs) (v : Level) (s : State) : State := (s.sdaSet a b v).sclSet a b true

theorem run_bitSent (v : Level) (k : Prog) : (sdaDrive P v (sclHigh P k)).run a s = k.run a (s.bitSent a b v) := by
  rw [run_sdaDrive D.toLive, run_sclHigh (D.toLive.sdaSet v)]
  rfl

/-- A bit's SdaDrive and SclHigh show one pulse with the bit. -/
theorem moves_bitSent (hd : b.dir = .writing) (hl : (s.pin b.scl).latch = false) (v : Level) :
    Moves P a b s (b.stamped (s.sdaSet a b v)) (s.bitSent a b v) 0 1 (.pulses [v]) ∧
      Sent v (b.stamped (s.sdaSet a b v)) (s.bitSent a b v) := by
  have m1 := moves_sdaSet_low (a := a) D hl v
  have hl1 : ((s.sdaSet a b v).pin b.scl).latch = false := by rw [sdaSet_scl D.toLive, hl]
  have m2 := moves_sclHigh (a := a) m1.driven hd hl1
  rw [sdaSet_sda_latch D.toLive] at m2
  have m := m1.trans m2
  rw [Seen.nothing_next] at m
  exact ⟨m, hd, sclSet_scl_latch m1.driven.toLive true,
    (congrArg Pin.latch (sclSet_sda m1.driven.toLive true)).trans (sdaSet_sda_latch D.toLive v)⟩

/-- WriteBit (R145) shows one pulse with the bit. -/
theorem run_writeBit (v : Level) (fail k : Prog) :
    ∃ b' t, (writeBit P v fail k).run a s = k.run a t ∧ Moves P a b s b' t (drawsToWrite b.dir) 2 (.pulses [v]) ∧ Sent v b' t := by
  have mlow := moves_sclLow (a := a) D
  obtain ⟨b2, s2, hrun2, m2, hd2, hl2⟩ := run_setWriteMode (a := a) mlow.driven fail (sdaDrive P v (sclHigh P k))
    (sclSet_scl_latch D.toLive false)
  obtain ⟨m3, hsent⟩ := moves_bitSent (a := a) m2.driven hd2 hl2 v
  have m := (mlow.trans m2).trans m3
  refine ⟨b2.stamped (s2.sdaSet a b2 v), s2.bitSent a b2 v, ?_, by simpa [BusRegs.stamped] using m, hsent⟩
  rw [writeBit, run_sclLow D.toLive, hrun2, run_bitSent m2.driven]

/-- The state after the rise of SCL and the sample of SDA (R146). -/
def State.sampled (a : AgentId) (b : BusRegs) (s : State) : State :=
  ((s.sclSet a b true).waited a ((b.stamped s).lastEdge + b.quarterPeriod)).valueGot a b.sda

omit D in
theorem history_sampled :
    (s.sampled a b).history = s.history ++
      [.tick a (s.waitedTo (b.lastEdge + b.halfPeriod)), .memWrite a (setOff s.params b.scl) (bitMask b.scl),
       .tick a ((s.sclSet a b true).waitedTo ((b.stamped s).lastEdge + b.quarterPeriod)),
       .memRead a (levOff s.params b.sda) (levWord s.params (s.sclSet a b true).pins (b.sda / pinsPerBank) s.nextLevels)] := by
  simp [State.sampled, State.valueGot, State.waited, State.sclSet, State.valueSet, State.waitedTo]
  rfl

/-- The level sampled is the one drawn. -/
theorem levelOf_beforeSample (hd : b.dir = .reading) :
    ((s.sclSet a b true).waited a ((b.stamped s).lastEdge + b.quarterPeriod)).levelOf b.sda = s.sdaDraw b 0 := by
  have D1 : Driven P (b.stamped s) (s.sclSet a b true) :=
    D.of_fsel (D.toLive.sclSet true) rfl (fsel_valueSet (a := a) (s := s.waited a (b.lastEdge + b.halfPeriod)) D.scl_lt true)
  exact (moves_waited (a := a) D1 _).driven.levelOf_sda_drawn hd

/-- The word of the sample holds the level drawn. -/
theorem getLsbD_sample (hd : b.dir = .reading) :
    (levWord s.params (s.sclSet a b true).pins (b.sda / pinsPerBank) s.nextLevels).getLsbD (b.sda % pinsPerBank) = s.sdaDraw b 0 := by
  have L1 : Live P (b.stamped s) (s.sclSet a b true) := D.toLive.sclSet true
  have hlt : b.sda < (s.sclSet a b true).numPins := L1.sda_lt
  rw [getLsbD_levWord _ _ _ _ _ (getElem?_pins hlt), ← levelOf_beforeSample (a := a) D hd]
  rfl

/-- The rise of SCL while SDA is released, and the sample, show a pulse with the level drawn: the level of the pulse is the one the master's
next read of SDA finds. -/
theorem shows_sampled (hd : b.dir = .reading) (hl : (s.pin b.scl).latch = false) {V : WireView} (hV : V.Watches P b) (t₁ t₂ : Nat) :
    Shows V a s.pins
      [.tick a t₁, .memWrite a (setOff s.params b.scl) (bitMask b.scl), .tick a t₂,
       .memRead a (levOff s.params b.sda) (levWord s.params (s.sclSet a b true).pins (b.sda / pinsPerBank) s.nextLevels)]
      (s.sampled a b).pins (.pulses [s.sdaDraw b 0]) := by
  intro k x rest hx hm
  have hout : ((s.sclSet a b true).pin V.scl).fsel = V.params.fnOutput := by
    rw [hV.1, hV.2.1, pin_sclSet D.toLive, if_pos rfl]
    exact D.scl_fsel
  obtain ⟨y, hy, hor, hseen⟩ := seenFrom_write (a := a) (k := k + 1)
    (rest := .tick a t₂ :: .memRead a (levOff s.params b.sda)
      (levWord s.params (s.sclSet a b true).pins (b.sda / pinsPerBank) s.nextLevels) :: rest)
    (writePins_valueSet D.toLive hV D.scl_lt true)
    (sameBare_valueSet (a := a) (s := s.waited a (b.lastEdge + b.halfPeriod)) (p := b.scl) true) hout hx
  have hx1 : x.1 = false := (At.scl_latch hV hx).trans hl
  have hy1 : y.1 = true := (At.scl_latch (s := s.sclSet a b true) hV hy).trans (sclSet_scl_latch D.toLive true)
  have hy2 : y.2 = s.sdaDraw b 0 := by
    have hnew : y = _ := hor.resolve_left fun h => by rw [h, hx1] at hy1; cases hy1
    have hin : ((s.sclSet a b true).pin b.sda).fsel ≠ P.fnOutput := by
      rw [sclSet_sda D.toLive, D.sda_input hd]
      exact D.fnInput_ne
    obtain ⟨hP, -, hsda⟩ := hV
    rw [hnew, wirePoint, ← getLsbD_sample (a := a) D hd, hsda]
    refine (wireLevel_input V b.sda _ _ _ (by rw [hP]; exact hin)).trans ?_
    rw [nextRead_tick, hP, ← D.params, nextRead_lev _ _ _ _ _ _ _ hm]
    rfl
  have hread : SameBare (s.sclSet a b true).pins (s.sampled a b).pins :=
    sameBare_valueGot (a := a) (p := b.sda) (s := (s.sclSet a b true).waited a ((b.stamped s).lastEdge + b.quarterPeriod))
  refine ⟨y, hy.of_sameBare hread, ?_⟩
  rw [change_of_rise hx1 hy1, hy2] at hseen
  rw [← hread.wireChanges]
  exact hseen

/-- The rise of SCL while SDA is released, and the sample. -/
theorem moves_sampled (hd : b.dir = .reading) (hl : (s.pin b.scl).latch = false) :
    Moves P a b s (b.stamped s) (s.sampled a b) 1 1 (.pulses [s.sdaDraw b 0]) := by
  have D1 : Driven P (b.stamped s) (s.sclSet a b true) :=
    D.of_fsel (D.toLive.sclSet true) rfl (fsel_valueSet (a := a) (s := s.waited a (b.lastEdge + b.halfPeriod)) D.scl_lt true)
  have mwait := moves_waited (a := a) D1 ((b.stamped s).lastEdge + b.quarterPeriod)
  have mgot := moves_valueGot (a := a) mwait.driven (p := b.sda) (.inr rfl)
  have hkeeps := (keeps_waited (b := b) (s := s) a (b.lastEdge + b.halfPeriod)).trans
    ((keeps_valueSet (b := b) (s := s.waited a (b.lastEdge + b.halfPeriod)) a (.inl rfl) true).trans
      (keeps_lastEdge (s.waitedTo (b.lastEdge + b.halfPeriod))) rfl rfl) rfl rfl
  exact {
    keeps := hkeeps.trans (mwait.keeps.trans mgot.keeps rfl rfl) rfl rfl
    driven := mgot.driven
    regs := rfl
    levels := rfl
    time := by simp [BusRegs.stamped, State.waitedTo]; omega
    events := ⟨_, history_sampled, by simp [NoCompletion], fun V hV => shows_sampled D hd hl hV _ _⟩ }

/-- The rise and the sample return the level drawn. -/
theorem run_sampled (hd : b.dir = .reading) (k : Level → Prog) :
    (sclHigh P (.look fun b => .wait (b.lastEdge + b.quarterPeriod) fun _ => .look fun b => getValue P b.sda k)).run a s =
      (k (s.sdaDraw b 0)).run a (s.sampled a b) := by
  have L1 : Live P (b.stamped s) (s.sclSet a b true) := D.toLive.sclSet true
  have L2 : Live P (b.stamped s)
      ((s.sclSet a b true).waited a ((b.stamped s).lastEdge + (b.stamped s).quarterPeriod)) := L1.waited _
  rw [run_sclHigh D.toLive, run_look _ L1.regs, run_wait, run_look _ L2.regs, run_getValue L2.params L2.ok L2.isOpen L2.sda_lt,
    ← levelOf_beforeSample (a := a) D hd]
  rfl

theorem sampled_scl_latch : ((s.sampled a b).pin b.scl).latch = true := by
  have L1 : Live P (b.stamped s) ((s.sclSet a b true).waited a ((b.stamped s).lastEdge + b.quarterPeriod)) :=
    (D.toLive.sclSet true).waited _
  exact (latch_valueGot (a := a) L1.sda_lt _).trans (sclSet_scl_latch D.toLive true)

/-- ReadBit (R146) returns the level drawn for SDA, and shows one pulse with it. -/
theorem run_readBit (fail : Prog) (k : Level → Prog) :
    ∃ b' t, (readBit P fail k).run a s = (k (s.sdaDraw b (drawsToRead b.dir))).run a t ∧
      Moves P a b s b' t (drawsToRead b.dir + 1) 2 (.pulses [s.sdaDraw b (drawsToRead b.dir)]) ∧ Received b' t := by
  have mlow := moves_sclLow (a := a) D
  obtain ⟨b2, s2, hrun2, m2, hd2, hl2⟩ := run_setReadMode (a := a) mlow.driven fail (sclHigh P
    (.look fun b => .wait (b.lastEdge + b.quarterPeriod) fun _ => .look fun b => getValue P b.sda k))
    (sclSet_scl_latch D.toLive false)
  have m3 := moves_sampled (a := a) m2.driven hd2 hl2
  have hdraw : s2.sdaDraw b2 0 = s.sdaDraw b (drawsToRead b.dir) := by
    rw [m2.sdaDraw, Nat.add_zero]
    exact mlow.sdaDraw _ |>.trans (by rw [Nat.zero_add]; rfl)
  rw [hdraw] at m3
  have m := (mlow.trans m2).trans m3
  refine ⟨b2.stamped s2, s2.sampled a b2, ?_, by simpa [BusRegs.stamped] using m, hd2, sampled_scl_latch m2.driven⟩
  rw [readBit, run_sclLow D.toLive, hrun2, run_sampled m2.driven hd2, hdraw]

/-! ## START and STOP -/

/-- A bit and then SDA's change to the other level, SCL being high: a START where the bit is 1, a STOP where it is 0. -/
theorem run_writeBit_sdaDrive (v : Level) (fail k : Prog) :
    ∃ b' t, (writeBit P v fail (sdaDrive P (!v) k)).run a s = k.run a t ∧
      Moves P a b s b' t (drawsToWrite b.dir) 2 ⟨[v], if v then 1 else 0, if v then 0 else 1⟩ ∧ Sent (!v) b' t := by
  obtain ⟨b1, s1, hrun1, m1, hsent⟩ := run_writeBit (a := a) D v fail (sdaDrive P (!v) k)
  have D1 := m1.driven
  have m2 := moves_sdaSet_high (a := a) D1 hsent.dir hsent.scl_latch (!v)
  rw [hsent.sda_latch] at m2
  have m := m1.trans m2
  refine ⟨b1, s1.sdaSet a b1 (!v), hrun1.trans (run_sdaDrive D1.toLive (!v) k), ?_, hsent.dir, ?_, sdaSet_sda_latch D1.toLive (!v)⟩
  · cases v <;> exact m
  · rw [sdaSet_scl D1.toLive]
    exact hsent.scl_latch

/-- STOP (R148) shows one pulse, low, and one STOP condition, and ends at idle. -/
theorem run_stopCondition (fail k : Prog) :
    ∃ b' t, (stopCondition P fail k).run a s = k.run a t ∧ Moves P a b s b' t (drawsToWrite b.dir) 2 ⟨[false], 0, 1⟩ ∧
      Sent true b' t := run_writeBit_sdaDrive D false fail k

omit D in
/-- START with SCL read low raises before any write, whatever the pins' functions (R147, R155). -/
theorem run_startCondition_levelLow (hP : s.params = P) (ok : paramsOk P s.pins.length) (ho : s.map.isOpen = true)
    (hregs : s.bus.regs = some b) (hlt : b.scl < s.pins.length) (hlow : s.levelOf b.scl = false) (fail k : Prog) :
    (startCondition P fail k).run a s = fail.run a (s.valueGot a b.scl) := by
  rw [startCondition, run_look _ hregs, run_getValue hP ok ho hlt, hlow]
  rfl

/-- START with SCL driven low raises before any write (R147). -/
theorem run_startCondition_low (hl : (s.pin b.scl).latch = false) (fail k : Prog) :
    (startCondition P fail k).run a s = fail.run a (s.valueGot a b.scl) :=
  run_startCondition_levelLow D.params D.ok D.isOpen D.regs D.scl_lt (D.levelOf_scl.trans hl) fail k

variable (hl : (s.pin b.scl).latch = true) (fail k : Prog)
include hl

/-- In reading mode START brings SDA high in a clock-low window first (R147). -/
theorem run_startCondition_reading (hd : b.dir = .reading) :
    (startCondition P fail k).run a s = (rearm P fail (sdaDrive P false k)).run a (s.valueGot a b.scl) := by
  have L1 : Live P b (s.valueGot a b.scl) := D.toLive.valueGot _
  rw [startCondition, run_look _ D.regs, run_getValue D.params D.ok D.isOpen D.scl_lt, D.levelOf_scl, hl, if_pos rfl,
    run_look _ L1.regs, hd]

/-- In writing mode with SDA low START brings SDA high in a clock-low window first; with SDA high it drives SDA low (R147). -/
theorem run_startCondition_writing (hd : b.dir = .writing) :
    (startCondition P fail k).run a s =
      (if (s.pin b.sda).latch then sdaDrive P false k else rearm P fail (sdaDrive P false k)).run a
        ((s.valueGot a b.scl).valueGot a b.sda) := by
  have D1 := (moves_valueGot (a := a) D (p := b.scl) (.inl rfl)).driven
  rw [startCondition, run_look _ D.regs, run_getValue D.params D.ok D.isOpen D.scl_lt, D.levelOf_scl, hl, if_pos rfl,
    run_look _ D1.regs, hd, run_getValue D1.params D1.ok D1.isOpen D1.sda_lt, D1.levelOf_sda hd, latch_valueGot D.scl_lt]

/-- The state after START's two reads and SDA's fall (R147). -/
def State.sdaFallen (a : AgentId) (b : BusRegs) (s : State) : State := ((s.valueGot a b.scl).valueGot a b.sda).sdaSet a b false

/-- From writing mode with SDA high START is the one SDA fall. -/
theorem moves_sdaFallen (hd : b.dir = .writing) (hsda : (s.pin b.sda).latch = true) :
    Moves P a b s b (s.sdaFallen a b) 2 0 ⟨[], 1, 0⟩ ∧ Sent false b (s.sdaFallen a b) := by
  have mscl := moves_valueGot (a := a) D (p := b.scl) (.inl rfl)
  have msda := moves_valueGot (a := a) mscl.driven (p := b.sda) (.inr rfl)
  have D2 := msda.driven
  have hsclLatch : (((s.valueGot a b.scl).valueGot a b.sda).pin b.scl).latch = true := by
    rw [latch_valueGot mscl.driven.sda_lt, latch_valueGot D.scl_lt, hl]
  have hsdaLatch : (((s.valueGot a b.scl).valueGot a b.sda).pin b.sda).latch = true := by
    rw [latch_valueGot mscl.driven.sda_lt, latch_valueGot D.scl_lt, hsda]
  have m := moves_sdaSet_high (a := a) D2 hd hsclLatch false
  rw [hsdaLatch] at m
  have h := (mscl.trans msda).trans m
  rw [Seen.nothing_next, Seen.nothing_next] at h
  exact ⟨h, hd, (congrArg Pin.latch (sdaSet_scl D2.toLive false)).trans hsclLatch, sdaSet_sda_latch D2.toLive false⟩

/-- START (R147) with SCL high shows one START condition; unless SDA is driven high already it takes one pulse first. -/
theorem run_startCondition :
    ∃ b' t, (startCondition P fail k).run a s = k.run a t ∧ Sent false b' t ∧
      ((b.dir = .writing ∧ (s.pin b.sda).latch = true ∧ b' = b ∧ Moves P a b s b' t 2 0 ⟨[], 1, 0⟩) ∨
        ((b.dir = .reading ∨ (s.pin b.sda).latch = false) ∧ Moves P a b s b' t 2 2 ⟨[true], 1, 0⟩)) := by
  have mscl := moves_valueGot (a := a) D (p := b.scl) (.inl rfl)
  cases hd : b.dir with
  | reading =>
    obtain ⟨b', t, hrun, m, hsent⟩ := run_writeBit_sdaDrive (a := a) mscl.driven true fail k
    rw [hd] at m
    have h := mscl.trans m
    rw [Seen.nothing_next] at h
    exact ⟨b', t, (run_startCondition_reading D hl fail k hd).trans hrun, hsent, .inr ⟨.inl rfl, h⟩⟩
  | writing =>
    have msda := moves_valueGot (a := a) mscl.driven (p := b.sda) (.inr rfl)
    have D2 := msda.driven
    have hrun0 := run_startCondition_writing D hl fail k hd (a := a)
    cases hsda : (s.pin b.sda).latch with
    | true =>
      rw [hsda, if_pos rfl, run_sdaDrive D2.toLive] at hrun0
      obtain ⟨m, hsent⟩ := moves_sdaFallen (a := a) D hl hd hsda
      exact ⟨b, _, hrun0, hsent, .inl ⟨rfl, rfl, rfl, m⟩⟩
    | false =>
      rw [hsda, if_neg Bool.false_ne_true] at hrun0
      obtain ⟨b', t, hrun, m, hsent⟩ := run_writeBit_sdaDrive (a := a) D2 true fail k
      rw [hd] at m
      have h := (mscl.trans msda).trans m
      rw [Seen.nothing_next, Seen.nothing_next] at h
      exact ⟨b', t, hrun0.trans hrun, hsent, .inr ⟨.inr rfl, h⟩⟩

end

end Sys2Proof.Machine
end

section
/-! SUPPORT. The bytes and the transactions of the bus as parts of a run (spec/43_i2c_transfers.md R170 to R174). -/

namespace Sys2Proof.Machine

/-! ## The levels drawn -/

/-- The levels drawn for SDA at `c` level-register reads in a row, from the `n`-th from now on. -/
def State.bitsDrawn (s : State) (b : BusRegs) (n c : Nat) : List Level := (List.range c).map fun m => s.sdaDraw b (n + m)

theorem byteDrawn_eq (s : State) (b : BusRegs) (n : Nat) : s.byteDrawn b n = ofMsbFirst (s.bitsDrawn b n 8) := rfl

theorem length_bitsDrawn (s : State) (b : BusRegs) (n c : Nat) : (s.bitsDrawn b n c).length = c := by simp [State.bitsDrawn]

theorem bitsDrawn_succ (s : State) (b : BusRegs) (n c : Nat) :
    s.bitsDrawn b n (c + 1) = s.sdaDraw b n :: s.bitsDrawn b (n + 1) c := by
  simp only [State.bitsDrawn, List.range_succ_eq_map, List.map_cons, List.map_map, Nat.add_zero, Function.comp_def]
  simp only [Nat.add_assoc, Nat.add_comm 1]

theorem msbFirst_ofMsbFirst_bits : ∀ b₇ b₆ b₅ b₄ b₃ b₂ b₁ b₀ : Level,
    msbFirst (ofMsbFirst [b₇, b₆, b₅, b₄, b₃, b₂, b₁, b₀]) = [b₇, b₆, b₅, b₄, b₃, b₂, b₁, b₀] := by decide

/-- Eight bits read back from their byte (R72). -/
theorem msbFirst_ofMsbFirst {l : List Level} (h : l.length = 8) : msbFirst (ofMsbFirst l) = l := by
  match l, h with
  | [b₇, b₆, b₅, b₄, b₃, b₂, b₁, b₀], _ => exact msbFirst_ofMsbFirst_bits b₇ b₆ b₅ b₄ b₃ b₂ b₁ b₀

theorem length_sentPulses (v : Byte) (ack : Bool) : (sentPulses v ack).length = 9 := rfl

theorem length_receivedPulses (v : Byte) (ackflag : Bool) : (receivedPulses v ackflag).length = 9 := rfl

section
variable {P : Params} {a : AgentId} {b b' : BusRegs} {s t : State} {n h : Nat} {w : Seen} (m : Moves P a b s b' t n h w)
include m

theorem Moves.bitsDrawn (k c : Nat) : t.bitsDrawn b' k c = s.bitsDrawn b (n + k) c := by
  simp only [State.bitsDrawn, m.sdaDraw, Nat.add_assoc]

theorem Moves.byteDrawn (k : Nat) : t.byteDrawn b' k = s.byteDrawn b (n + k) := by
  rw [byteDrawn_eq, byteDrawn_eq, m.bitsDrawn]

end

/-! ## Bytes -/

section
variable {P : Params} {a : AgentId} (fail : Prog)

/-- Bits sent one after the other. -/
theorem run_writeBits (k : Prog) (vs : List Level) : ∀ {b : BusRegs} {s : State}, Driven P b s → ∀ v : Level,
    ∃ b' t, (writeBits P fail k (v :: vs)).run a s = k.run a t ∧
      Moves P a b s b' t (drawsToWrite b.dir) (2 * (v :: vs).length) (.pulses (v :: vs)) ∧
      b'.dir = .writing ∧ (t.pin b'.scl).latch = true := by
  induction vs with
  | nil =>
    intro b s D v
    obtain ⟨b', t, hrun, m, hsent⟩ := run_writeBit (a := a) D v fail k
    exact ⟨b', t, hrun, m, hsent.dir, hsent.scl_latch⟩
  | cons u us ih =>
    intro b s D v
    obtain ⟨b1, s1, hrun1, m1, hsent⟩ := run_writeBit (a := a) D v fail (writeBits P fail k (u :: us))
    obtain ⟨b', t, hrun, m, hd, hl⟩ := ih m1.driven u
    rw [hsent.dir] at m
    have h := m1.trans m
    rw [Seen.pulses_next, show 2 + 2 * (u :: us).length = 2 * (v :: u :: us).length by simp only [List.length_cons]; omega] at h
    exact ⟨b', t, hrun1.trans hrun, h, hd, hl⟩

/-- Bits received one after the other. -/
theorem run_readBits (k : List Level → Prog) (c : Nat) : ∀ {b : BusRegs} {s : State}, Driven P b s → ∀ got : List Level,
    ∃ b' t, (readBits P fail k (c + 1) got).run a s = (k (got ++ s.bitsDrawn b (drawsToRead b.dir) (c + 1))).run a t ∧
      Moves P a b s b' t (drawsToRead b.dir + (c + 1)) (2 * (c + 1)) (.pulses (s.bitsDrawn b (drawsToRead b.dir) (c + 1))) ∧
      Received b' t := by
  induction c with
  | zero =>
    intro b s D got
    exact run_readBit (a := a) D fail fun v => k (got ++ [v])
  | succ c ih =>
    intro b s D got
    obtain ⟨b1, s1, hrun1, m1, hrec⟩ := run_readBit (a := a) D fail fun v => readBits P fail k (c + 1) (got ++ [v])
    obtain ⟨b', t, hrun, m, hend⟩ := ih m1.driven (got ++ [s.sdaDraw b (drawsToRead b.dir)])
    rw [m1.bitsDrawn, hrec.dir] at m hrun
    have h := m1.trans m
    rw [Seen.pulses_next] at h
    refine ⟨b', t, ?_, ?_, hend⟩
    · rw [bitsDrawn_succ, List.append_cons]
      exact hrun1.trans hrun
    · have hdraws : drawsToRead b.dir + (c + 1 + 1) = drawsToRead b.dir + 1 + (drawsToRead .reading + (c + 1)) := by
        simp only [drawsToRead]
        omega
      rw [bitsDrawn_succ, hdraws, show 2 * (c + 1 + 1) = 2 + 2 * (c + 1) by omega]
      exact h

/-- WriteByte (R170) sends nine pulses, and ends reading the acknowledge. -/
theorem run_writeByte (v : Byte) (k : Bool → Prog) {b : BusRegs} {s : State} (D : Driven P b s) {ack : Bool}
    (hack : ack = !s.sdaDraw b (drawsToWrite b.dir + 1)) :
    ∃ b' t, (writeByte P v fail k).run a s = (k ack).run a t ∧
      Moves P a b s b' t (drawsToWrite b.dir + 2) (2 * 9) (.pulses (sentPulses v ack)) ∧ Received b' t := by
  obtain ⟨b1, s1, hrun1, m1, hd1, -⟩ := run_writeBits (a := a) fail (readBit P fail fun x => k (isAck x)) (msbFirst v).tail D (v.getLsbD 7)
  obtain ⟨b', t, hrun, m, hrec⟩ := run_readBit (a := a) m1.driven fail fun x => k (isAck x)
  rw [m1.sdaDraw, hd1] at m hrun
  have h := m1.trans m
  have hlevel : s.sdaDraw b (drawsToWrite b.dir + 1) = ackLevel ack := by simp [ackLevel, hack]
  refine ⟨b', t, ?_, ?_, hrec⟩
  · rw [hack]
    exact hrun1.trans hrun
  · rw [Seen.pulses_next] at h
    rw [sentPulses, ← hlevel]
    exact h

/-- ReadByte (R171) receives eight bits and sends the acknowledge. -/
theorem run_readByte (ackflag : Bool) (k : Byte → Prog) {b : BusRegs} {s : State} (D : Driven P b s) {v : Byte}
    (hv : v = s.byteDrawn b (drawsToRead b.dir)) :
    ∃ b' t, (readByte P ackflag fail k).run a s = (k v).run a t ∧
      Moves P a b s b' t (drawsToRead b.dir + 9) (2 * 9) (.pulses (receivedPulses v ackflag)) ∧ Sent (!ackflag) b' t := by
  obtain ⟨b1, s1, hrun1, m1, hrec⟩ := run_readBits (a := a) fail
    (fun bits => writeBit P (ackLevel ackflag) fail (k (ofMsbFirst bits))) 7 D []
  obtain ⟨b', t, hrun, m, hsent⟩ := run_writeBit (a := a) m1.driven (ackLevel ackflag) fail
    (k (ofMsbFirst ([] ++ s.bitsDrawn b (drawsToRead b.dir) 8)))
  rw [hrec.dir] at m
  have h := m1.trans m
  refine ⟨b', t, ?_, ?_, hsent⟩
  · rw [hv]
    exact hrun1.trans hrun
  · rw [Seen.pulses_next] at h
    rw [receivedPulses, hv, byteDrawn_eq, msbFirst_ofMsbFirst (length_bitsDrawn _ _ _ _)]
    exact h

end

/-! ## Lists of bytes -/

/-- Agent `a` comes from `s` to `t` showing `w`, in two half periods or more for each pulse, whatever the draws taken. -/
def Plays (P : Params) (a : AgentId) (b : BusRegs) (s : State) (b' : BusRegs) (t : State) (w : Seen) : Prop :=
  ∃ n, Moves P a b s b' t n (2 * w.bits.length) w

section
variable {P : Params} {a : AgentId} {b b' b'' : BusRegs} {s t u : State} {w w' : Seen}

theorem Moves.plays {n h : Nat} (m : Moves P a b s b' t n h w) (hh : h = 2 * w.bits.length) : Plays P a b s b' t w := ⟨n, hh ▸ m⟩

theorem Plays.driven (p : Plays P a b s b' t w) : Driven P b' t := p.elim fun _ m => m.driven

theorem Plays.trans (p : Plays P a b s b' t w) (q : Plays P a b' t b'' u w') : Plays P a b s b'' u (w.next w') := by
  obtain ⟨n, m⟩ := p
  obtain ⟨n', m'⟩ := q
  exact (m.trans m').plays (by simp only [Seen.next, List.length_append]; omega)

end

/-- Whether the `j`-th byte of a list is acknowledged, the first at the `n`-th level draw from now. -/
def State.acked (s : State) (b : BusRegs) (n j : Nat) : Bool := !s.sdaDraw b (n + 3 * j)

theorem sentUntilNack_shift (f : Nat → Bool) (i : Nat) (l : List Byte) :
    sentUntilNack (fun j => f (j + 1)) i l = sentUntilNack f (i + 1) l := by
  induction l generalizing i with
  | nil => rfl
  | cons v rest ih => simp only [sentUntilNack, ih]

theorem all_range_succ (f : Nat → Bool) (n : Nat) : (List.range (n + 1)).all f = (f 0 && (List.range n).all fun j => f (j + 1)) := by
  rw [List.range_succ_eq_map, List.all_cons, List.all_map]
  rfl

section
variable {P : Params} {a : AgentId} (fail : Prog)

/-- WriteBytes (R172) sends the bytes up to and with the first not acknowledged. -/
theorem run_writeBytes (k : Bool → Prog) (data : List Byte) : ∀ {b : BusRegs} {s : State}, Driven P b s →
    ∃ b' t, (writeBytes P fail k data).run a s =
        (k ((List.range data.length).all (s.acked b (drawsToWrite b.dir + 1)))).run a t ∧
      Plays P a b s b' t (.pulses (sentUntilNack (s.acked b (drawsToWrite b.dir + 1)) 0 data)) ∧
      ((s.pin b.scl).latch = true → (t.pin b'.scl).latch = true) := by
  induction data with
  | nil =>
    intro b s D
    exact ⟨b, s, rfl, (Moves.refl D).plays rfl, id⟩
  | cons v rest ih =>
    intro b s D
    obtain ⟨b1, s1, hrun1, m1, hrec⟩ := run_writeByte (a := a) fail v
      (fun ok => if ok then writeBytes P fail k rest else k false) D (ack := s.acked b (drawsToWrite b.dir + 1) 0) rfl
    have p1 := m1.plays (by simp [Seen.pulses, length_sentPulses])
    have hacked : s1.acked b1 (drawsToWrite b1.dir + 1) = fun j => s.acked b (drawsToWrite b.dir + 1) (j + 1) := by
      funext j
      rw [State.acked, State.acked, m1.sdaDraw, hrec.dir]
      congr 2
      simp only [drawsToWrite]
      omega
    rw [List.length_cons, all_range_succ, sentUntilNack]
    cases h0 : s.acked b (drawsToWrite b.dir + 1) 0 with
    | false =>
      rw [h0] at hrun1 p1
      rw [Bool.false_and, if_neg Bool.false_ne_true, List.append_nil]
      exact ⟨b1, s1, hrun1, p1, fun _ => hrec.scl_latch⟩
    | true =>
      rw [h0, if_pos rfl] at hrun1
      obtain ⟨b', t, hrun, p, hscl⟩ := ih m1.driven
      rw [hacked] at hrun p
      rw [sentUntilNack_shift] at p
      rw [h0] at p1
      have h := p1.trans p
      rw [Seen.pulses_next] at h
      rw [Bool.true_and, if_pos rfl]
      exact ⟨b', t, hrun1.trans hrun, h, fun _ => hscl hrec.scl_latch⟩

/-- The pulses of a row of bytes received, all acknowledged but the last (R174). -/
def receivedRow (v : Nat → Byte) (n : Nat) : List Level :=
  (List.range n).flatMap fun j => receivedPulses (v j) (decide (j + 1 < n))

theorem receivedRow_succ (v : Nat → Byte) (n : Nat) :
    receivedRow v (n + 1) = receivedPulses (v 0) (decide (0 < n)) ++ receivedRow (fun j => v (j + 1)) n := by
  simp only [receivedRow, List.range_succ_eq_map, List.flatMap_cons, List.flatMap_map]
  simp

theorem length_receivedRow (v : Nat → Byte) (n : Nat) : (receivedRow v n).length = 9 * n := by
  induction n generalizing v with
  | zero => rfl
  | succ n ih =>
    rw [receivedRow_succ, List.length_append, length_receivedPulses, ih]
    omega

/-- The loop of READ (R174) receives `n` bytes. -/
theorem run_readBytes (k : List Byte → Prog) (n : Nat) : ∀ {b : BusRegs} {s : State}, Driven P b s → ∀ got : List Byte,
    ∃ b' t, (readBytes P fail k n got).run a s =
        (k (got ++ (List.range n).map fun j => s.byteDrawn b (drawsToRead b.dir + 10 * j))).run a t ∧
      Plays P a b s b' t (.pulses (receivedRow (fun j => s.byteDrawn b (drawsToRead b.dir + 10 * j)) n)) := by
  induction n with
  | zero =>
    intro b s D got
    exact ⟨b, s, by rw [List.range_zero, List.map_nil, List.append_nil]; rfl, (Moves.refl D).plays rfl⟩
  | succ n ih =>
    intro b s D got
    obtain ⟨b1, s1, hrun1, m1, hsent⟩ := run_readByte (a := a) fail (decide (0 < n))
      (fun v => readBytes P fail k n (got ++ [v])) D rfl
    obtain ⟨b', t, hrun, p⟩ := ih m1.driven (got ++ [s.byteDrawn b (drawsToRead b.dir)])
    have hdrawn : (fun j => s1.byteDrawn b1 (drawsToRead b1.dir + 10 * j)) =
        fun j => s.byteDrawn b (drawsToRead b.dir + 10 * (j + 1)) := by
      funext j
      rw [m1.byteDrawn, hsent.dir]
      congr 1
      simp only [drawsToRead]
      omega
    rw [hdrawn] at hrun p
    have h := (m1.plays (by simp [Seen.pulses, length_receivedPulses])).trans p
    rw [Seen.pulses_next] at h
    refine ⟨b', t, ?_, ?_⟩
    · rw [List.range_succ_eq_map, List.map_cons, List.map_map, List.append_cons]
      exact hrun1.trans hrun
    · rw [receivedRow_succ]
      exact h

end

end Sys2Proof.Machine
end

section
/-! SUPPORT. Whole commands of the bus: a body run to its end from a ready bus answers a state whose frame, bus, result and trace are those
of the run (spec/42_i2c_primitives.md R140), and what WRITE and READ do (spec/43_i2c_transfers.md R173 to R175). -/

namespace Sys2Proof.Machine

/-! ## From a run to a command -/

theorem State.busReady.driven {s : State} {b : BusRegs} (h : s.busReady b) : Driven s.params b (s.setOwner (some s.turn)) := by
  have L := h.live
  obtain ⟨-, -, -, -, -, -, -, -, hscl, hsda⟩ := h
  exact { toLive := L.of_eq rfl rfl rfl L.regs rfl rfl, scl_fsel := hscl, sda_fsel := hsda }

/-- Command `i` from the ready bus `b` of `s` answers `t` with result `r`, the bus registers going to `b'`, the stamp by `h` half periods or
more, and the trace showing `w`. -/
structure Completes (s : State) (b : BusRegs) (i : Instr) (r : Reply) (b' : BusRegs) (t : State) (h : Nat) (w : Seen) : Prop where
  executes : exec i s = .next t
  frame : s.busFrame t b
  ready : t.busReady b'
  regs : b' = { b with dir := b'.dir, lastEdge := b'.lastEdge }
  time : b.lastEdge + h * b.halfPeriod ≤ b'.lastEdge
  last : t.history.getLast? = some (.completed s.turn i r)
  trace : ∀ draw, pulseBits (s.traceTo t b draw) = w.bits ∧ countChanges isStartCondition (s.traceTo t b draw) = w.starts ∧
    countChanges isStopCondition (s.traceTo t b draw) = w.stops

section
variable {s : State} {b : BusRegs} {i : Instr}

/-- The checks of a bus command pass where the bus is configured and free, the map open and the arguments valid. -/
theorem firstStop_of_busFree (ho : s.map.isOpen = true) (hc : s.bus.cfg = .configured) (howner : s.bus.owner = none)
    (hi : isBusCommand i = true) (ha : ¬ badArguments s.numPins i) : firstStop ((commandOf i).checks s) = none := by
  have hframe : firstStop (frameChecks s) = none := by simp [frameChecks, firstStop, mapCheck, ho, hc, howner]
  cases i with
  | openMap => cases hi
  | closeMap => cases hi
  | rdw off => cases hi
  | wrw off v => cases hi
  | pcfgo p => cases hi
  | pcfgi p => cases hi
  | pset p v => cases hi
  | pget p => cases hi
  | i2cinit scl sda freq => cases hi
  | i2cdisp => exact hframe
  | setwm => exact hframe
  | setrm => exact hframe
  | wbit v => exact hframe
  | rbit => exact hframe
  | start => exact hframe
  | stop => exact hframe
  | wbyte v => exact hframe
  | rbyte x => exact hframe
  | wbytes data => exact hframe
  | write addr reg data =>
    have haddr : ¬ 128 ≤ addr.toNat := ha
    simp [commandOf, writeCommand, frameChecks, firstStop, mapCheck, ho, hc, howner, haddr]
  | read addr reg n =>
    have hargs : ¬ (128 ≤ addr.toNat ∨ n = 0#8) := ha
    simp [commandOf, readCommand, frameChecks, firstStop, mapCheck, ho, hc, howner, hargs]

/-- A bus command whose body runs to its end ends with its result delivered. -/
theorem exec_of_busFree {r : Reply} {u : State} (ho : s.map.isOpen = true) (hc : s.bus.cfg = .configured) (howner : s.bus.owner = none)
    (hi : isBusCommand i = true) (ha : ¬ badArguments s.numPins i)
    (hrun : ((commandOf i).body s.params).run s.turn (s.setOwner (some s.turn)) = .finished r u) :
    exec i s = .next (u.deliver s.turn i true r) := by
  have hown := ownsBus_of_isBusCommand hi
  have henter : (commandOf i).enter s.turn s = s.setOwner (some s.turn) := by rw [Command.enter, if_pos hown]
  rw [exec_eq, commandResult_delivered (firstStop_of_busFree ho hc howner hi ha), henter, hrun, Ended.delivered, hown]

/-- A free bus is as it was once its owner is set and cleared. -/
theorem bus_setOwner_none (howner : s.bus.owner = none) : ({ s.bus with owner := none } : Bus) = s.bus := by rw [← howner]

/-- A command that does nothing leaves its completion alone. -/
theorem deliver_setOwner (howner : s.bus.owner = none) (a : AgentId) (r : Reply) :
    (s.setOwner (some a)).deliver s.turn i true r = { s with history := s.history ++ [.completed s.turn i r] } := by
  simp [State.deliver, State.setOwner, State.record, bus_setOwner_none howner]

/-- What the events of a run show is what the trace over the command shows. -/
theorem trace_of_shows {t : State} {es : List Event} {pins : List Pin} {w : Seen} {r : Reply} (h : s.busReady b)
    (hi : isBusCommand i = true) (ht : t.history = s.history ++ (es ++ [.completed s.turn i r]))
    (hshow : ∀ V : WireView, V.Watches s.params b → Shows V s.turn s.pins es pins w) (draw : Nat → Nat → Level) :
    pulseBits (s.traceTo t b draw) = w.bits ∧ countChanges isStartCondition (s.traceTo t b draw) = w.starts ∧
      countChanges isStopCondition (s.traceTo t b draw) = w.stops := by
  obtain ⟨-, -, -, -, -, -, -, -, hscl, -⟩ := h
  let V : WireView := { params := s.params, scl := b.scl, sda := b.sda, inFlight := t.masterInFlight, draw := draw }
  obtain ⟨y, -, hseen⟩ := hshow V ⟨rfl, rfl, rfl⟩ s.history.length (wirePoint V s.history.length s.pins (newEvents s t))
    [.completed s.turn i r] (at_wirePoint (V := V) hscl _ _) (by rw [ofMaster_own, hi])
  have htrace : s.traceTo t b draw = wirePoint V s.history.length s.pins (newEvents s t) ::
      wireChanges V s.history.length s.pins (es ++ [.completed s.turn i r]) := by
    rw [← newEvents_of_append ht]
    rfl
  rw [show wireChanges V _ pins [.completed s.turn i r] = [] from rfl, seenFrom_nil, Seen.next_nothing] at hseen
  rw [htrace]
  exact ⟨congrArg Seen.bits hseen, congrArg Seen.starts hseen, congrArg Seen.stops hseen⟩

/-- A bus command whose body's run is known (R140, R209). -/
theorem completes_deliver {r : Reply} {b' : BusRegs} {u : State} {n hp : Nat} {w : Seen} (h : s.busReady b)
    (hi : isBusCommand i = true) (ha : ¬ badArguments s.numPins i)
    (hrun : ((commandOf i).body s.params).run s.turn (s.setOwner (some s.turn)) = .finished r u)
    (m : Moves s.params s.turn b (s.setOwner (some s.turn)) b' u n hp w) :
    Completes s b i r b' (u.deliver s.turn i true r) hp w := by
  have hready := h
  obtain ⟨ok, ho, hc, howner, -, hne, -, -, hscl, -⟩ := h
  obtain ⟨helse, hlen, hpins, hbus⟩ := m.keeps
  have D := m.driven
  obtain ⟨es, hes, -, hshow⟩ := m.events
  have hpar : u.params = s.params := D.params
  exact {
    executes := exec_of_busFree ho hc howner hi ha hrun
    frame := by
      refine ⟨?_, hlen, hpins, ?_, ?_⟩
      · rw [State.sameElsewhere] at helse ⊢
        rw [helse]
        rfl
      · rw [State.deliver_bus, hbus]
        simp [howner]
      · have h1 := D.scl_fsel
        rw [m.scl] at h1
        exact h1.trans hscl.symm
    ready := by
      refine ⟨?_, D.isOpen, ?_, rfl, ?_, D.distinct, D.scl_lt, D.sda_lt, ?_, ?_⟩
      · have hok : paramsOk u.params u.numPins := by rw [hpar]; exact D.ok
        exact hok
      · rw [State.deliver_bus, hbus]
        exact hc
      · have hregs := D.regs
        rw [← Bus.regs_owner _ none] at hregs
        exact hregs
      · exact D.scl_fsel.trans (congrArg Params.fnOutput hpar.symm)
      · have h1 := D.sda_fsel
        rw [← hpar] at h1
        exact h1
    regs := m.regs
    time := m.time
    last := by simp
    trace := trace_of_shows hready hi (by rw [State.deliver_history, hes, List.append_assoc]; rfl) hshow }

theorem completes {r : Reply} {b' : BusRegs} {u : State} {n hp : Nat} {w : Seen} (h : s.busReady b) (hi : isBusCommand i = true)
    (ha : ¬ badArguments s.numPins i)
    (hrun : ((commandOf i).body s.params).run s.turn (s.setOwner (some s.turn)) = .finished r u)
    (m : Moves s.params s.turn b (s.setOwner (some s.turn)) b' u n hp w) :
    ∃ t, Completes s b i r b' t hp w ∧ t.pins = u.pins := ⟨_, completes_deliver h hi ha hrun m, rfl⟩

end

theorem Sent.of_pins {v : Level} {b' : BusRegs} {t u : State} (h : Sent v b' u) (hp : t.pins = u.pins) : Sent v b' t :=
  ⟨h.dir, by rw [State.pin, hp]; exact h.scl_latch, by rw [State.pin, hp]; exact h.sda_latch⟩

theorem Received.of_pins {b' : BusRegs} {t u : State} (h : Received b' u) (hp : t.pins = u.pins) : Received b' t :=
  ⟨h.dir, by rw [State.pin, hp]; exact h.scl_latch⟩

section
variable {s t : State} {b b' : BusRegs} {i : Instr} {r : Reply} {h : Nat} {w : Seen} (c : Completes s b i r b' t h w)
include c

theorem Completes.regs_of_dir {d : BusDir} (hd : b'.dir = d) : b' = { b with dir := d, lastEdge := b'.lastEdge } := by
  rw [← hd]
  exact c.regs

theorem Completes.ready_of_dir {d : BusDir} (hd : b'.dir = d) : t.busReady { b with dir := d, lastEdge := b'.lastEdge } := by
  rw [← c.regs_of_dir hd]
  exact c.ready

theorem Completes.scl : b'.scl = b.scl := by rw [c.regs]

theorem Completes.sda : b'.sda = b.sda := by rw [c.regs]

theorem Completes.lastEdge : t.bus.lastEdge = some b'.lastEdge := by
  obtain ⟨-, -, -, -, hregs, -⟩ := c.ready
  obtain ⟨-, -, -, -, -, h⟩ := Bus.regs_eq_some.1 hregs
  exact h

theorem Completes.dir : t.bus.dir = some b'.dir := by
  obtain ⟨-, -, -, -, hregs, -⟩ := c.ready
  obtain ⟨-, -, h, -⟩ := Bus.regs_eq_some.1 hregs
  exact h

/-- A command that ends with both lines driven high leaves the bus at idle. -/
theorem Completes.idle (hsent : Sent true b' t) : t.busIdle { b with dir := .writing, lastEdge := b'.lastEdge } := by
  refine ⟨c.ready_of_dir hsent.dir, rfl, ?_, ?_⟩
  · have h1 := hsent.scl_latch
    rwa [c.scl] at h1
  · have h1 := hsent.sda_latch
    rwa [c.sda] at h1

end

/-! ## START, STOP and the transactions -/

section
variable {P : Params} {a : AgentId} {b : BusRegs} {s : State} (D : Driven P b s)
include D

/-- STOP and then the end, with whatever result. -/
theorem run_stop_done (r : Reply) :
    ∃ b' t, (stopCondition P raiseProtocolViolation (.done r)).run a s = .finished r t ∧
      Plays P a b s b' t ⟨[false], 0, 1⟩ ∧ Sent true b' t := by
  obtain ⟨b', t, hrun, m, hsent⟩ := run_stopCondition (a := a) D raiseProtocolViolation (.done r)
  exact ⟨b', t, hrun, m.plays rfl, hsent⟩

/-- START with SCL high, after at most one pulse, and none from idle (R147). -/
theorem run_startCondition_plays (hl : (s.pin b.scl).latch = true) (fail k : Prog) :
    ∃ pre b' t, (startCondition P fail k).run a s = k.run a t ∧ Sent false b' t ∧
      Moves P a b s b' t 2 (2 * List.length pre) ⟨pre, 1, 0⟩ ∧ (b.dir = .writing → (s.pin b.sda).latch = true → pre = []) ∧
      (b.dir = .reading → pre = [true]) := by
  obtain ⟨b', t, hrun, hsent, ⟨hd, -, -, m⟩ | ⟨hor, m⟩⟩ := run_startCondition (a := a) D hl fail k
  · exact ⟨[], b', t, hrun, hsent, m, fun _ _ => rfl, fun hr => by rw [hd] at hr; cases hr⟩
  · refine ⟨[true], b', t, hrun, hsent, m, fun hw hs => ?_, fun _ => rfl⟩
    rcases hor with h | h
    · rw [hw] at h
      cases h
    · rw [hs] at h
      cases h

/-- WRITE and READ with SCL low: STOP, and ProtocolViolation (R213). -/
theorem run_startCondition_stopThenRaise (hl : (s.pin b.scl).latch = false) (k : Prog) :
    ∃ b' t, (startCondition P (stopThenRaise P) k).run a s = .finished (.error .protocolViolation) t ∧
      Plays P a b s b' t ⟨[false], 0, 1⟩ ∧ Sent true b' t := by
  have m := moves_valueGot (a := a) D (p := b.scl) (.inl rfl)
  obtain ⟨b', t, hrun, p, hsent⟩ := run_stop_done (a := a) m.driven (.error .protocolViolation)
  exact ⟨b', t, (run_startCondition_low D hl _ k).trans hrun, (m.plays rfl).trans p, hsent⟩

/-- WRITE with SCL high (R173): START, the bytes up to the first not acknowledged, STOP. -/
theorem run_writeBody (hl : (s.pin b.scl).latch = true) (addr reg : Byte) (data : List Byte) :
    ∃ pre b' t, (writeBody addr reg data P).run a s =
        .finished (.ok (.bool ((List.range (data.length + 2)).all (s.acked b 3)))) t ∧
      Plays P a b s b' t ⟨pre ++ sentUntilNack (s.acked b 3) 0 (addrByte addr false :: reg :: data) ++ [false], 1, 1⟩ ∧
      Sent true b' t ∧ (b.dir = .writing → (s.pin b.sda).latch = true → pre = []) := by
  obtain ⟨pre, b1, s1, hrun1, hsent1, m1, hpre, -⟩ := run_startCondition_plays (a := a) D hl (stopThenRaise P)
    (writeBytes P (stopThenRaise P) (fun ok => stopThenReturn P (.bool ok)) (addrByte addr false :: reg :: data))
  obtain ⟨b2, s2, hrun2, p2, -⟩ := run_writeBytes (a := a) (stopThenRaise P) (fun ok => stopThenReturn P (.bool ok))
    (addrByte addr false :: reg :: data) m1.driven
  have hacked : s1.acked b1 (drawsToWrite b1.dir + 1) = s.acked b 3 := by
    funext j
    rw [State.acked, State.acked, m1.sdaDraw, hsent1.dir]
    congr 2
    simp only [drawsToWrite]
    omega
  rw [hacked] at hrun2 p2
  obtain ⟨b3, s3, hrun3, p3, hsent3⟩ := run_stop_done (a := a) p2.driven
    (.ok (.bool ((List.range (data.length + 2)).all (s.acked b 3))))
  exact ⟨pre, b3, s3, hrun1.trans (hrun2.trans hrun3), ((m1.plays rfl).trans p2).trans p3, hsent3, hpre⟩

/-- START with SCL high and the first byte after it, whose acknowledge is the fourth level drawn. -/
theorem run_startCondition_writeByte (hl : (s.pin b.scl).latch = true) (v : Byte) (fail : Prog) (k : Bool → Prog) :
    ∃ pre b' t, (startCondition P fail (writeByte P v fail k)).run a s = (k (!s.sdaDraw b 3)).run a t ∧
      Moves P a b s b' t 4 (2 * (List.length pre + 9)) ⟨pre ++ sentPulses v (!s.sdaDraw b 3), 1, 0⟩ ∧ Received b' t ∧
      (b.dir = .writing → (s.pin b.sda).latch = true → pre = []) ∧ (b.dir = .reading → pre = [true]) := by
  obtain ⟨pre, b1, s1, hrun1, hsent, m1, hpre, hpre'⟩ := run_startCondition_plays (a := a) D hl fail (writeByte P v fail k)
  have hdraw : s1.sdaDraw b1 (drawsToWrite b1.dir + 1) = s.sdaDraw b 3 := by rw [m1.sdaDraw, hsent.dir]; rfl
  obtain ⟨b', t, hrun, m, hrec⟩ := run_writeByte (a := a) fail v k m1.driven rfl
  rw [hdraw] at hrun m
  rw [hsent.dir] at m
  refine ⟨pre, b', t, hrun1.trans hrun, ?_, hrec, hpre, hpre'⟩
  rw [Nat.mul_add]
  exact m1.trans m

end

/-! ## READ -/

/-- READ after the acknowledge of its third byte (R174). -/
def readData (n : Byte) (P : Params) (ok : Bool) : Prog :=
  if ok then readBytes P (stopThenRaise P) (fun out => stopThenReturn P (.bytes out)) n.toNat [] else stopThenReturn P (.bytes [])

/-- READ after the acknowledge of the register byte: the repeated START and the address byte (R174). -/
def readAgain (addr n : Byte) (P : Params) (ok : Bool) : Prog :=
  if ok then startCondition P (stopThenRaise P) (writeByte P (addrByte addr true) (stopThenRaise P) (readData n P))
  else stopThenReturn P (.bytes [])

/-- READ after the acknowledge of the first address byte: the register byte (R174). -/
def readRegister (addr reg n : Byte) (P : Params) (ok : Bool) : Prog :=
  if ok then writeByte P reg (stopThenRaise P) (readAgain addr n P) else stopThenReturn P (.bytes [])

theorem readBody_eq (addr reg n : Byte) (P : Params) :
    readBody addr reg n P =
      startCondition P (stopThenRaise P) (writeByte P (addrByte addr false) (stopThenRaise P) (readRegister addr reg n P)) := rfl

/-- The bytes the slave drives in a READ from idle: eight levels each, after those of the two START conditions and the three acknowledges. -/
def State.bytesRead (s : State) (b : BusRegs) (n : Nat) : List Byte := (List.range n).map fun j => s.byteDrawn b (11 + 10 * j)

/-- The pulses of a READ whose three bytes are acknowledged, after those of the first START (R174). -/
def State.readPulses (s : State) (b : BusRegs) (addr reg : Byte) (n : Nat) : List Level :=
  sentPulses (addrByte addr false) true ++ sentPulses reg true ++ [true] ++ sentPulses (addrByte addr true) true ++
    receivedRow (fun j => s.byteDrawn b (11 + 10 * j)) n ++ [false]

/-- What READ with SCL high gives: the empty list where one of the three bytes sent is not acknowledged, else the bytes driven, two START
conditions and the pulses of R174, from idle no others. -/
abbrev ReadOutcome (s : State) (b : BusRegs) (addr reg n : Byte) (out : List Byte) (w : Seen) : Prop :=
  (s.sdaDraw b 3 = true ∨ s.sdaDraw b 6 = true ∨ s.sdaDraw b 10 = true) ∧ out = [] ∨
  (s.sdaDraw b 3 = false ∧ s.sdaDraw b 6 = false ∧ s.sdaDraw b 10 = false) ∧ out = s.bytesRead b n.toNat ∧ w.starts = 2 ∧
    ∃ pre, w.bits = pre ++ s.readPulses b addr reg n.toNat ∧ (b.dir = .writing → (s.pin b.sda).latch = true → pre = [])

section
variable {P : Params} {a : AgentId} {b : BusRegs} {s : State} (D : Driven P b s)
include D

/-- The data bytes of READ and its STOP. -/
theorem run_readData (hd : b.dir = .reading) (n : Byte) :
    ∃ b' t, (readData n P true).run a s = .finished (.ok (.bytes ((List.range n.toNat).map fun j => s.byteDrawn b (10 * j)))) t ∧
      Plays P a b s b' t ⟨receivedRow (fun j => s.byteDrawn b (10 * j)) n.toNat ++ [false], 0, 1⟩ ∧ Sent true b' t := by
  obtain ⟨b1, s1, hrun1, p1⟩ := run_readBytes (a := a) (stopThenRaise P) (fun out => stopThenReturn P (.bytes out)) n.toNat D []
  obtain ⟨b2, s2, hrun2, p2, hsent⟩ := run_stop_done (a := a) p1.driven
    (.ok (.bytes ([] ++ (List.range n.toNat).map fun j => s.byteDrawn b (drawsToRead b.dir + 10 * j))))
  have hoff : (fun j => s.byteDrawn b (drawsToRead b.dir + 10 * j)) = fun j => s.byteDrawn b (10 * j) := by
    funext j
    rw [hd, drawsToRead, Nat.zero_add]
  rw [hoff] at hrun1 p1 hrun2
  exact ⟨b2, s2, hrun1.trans hrun2, p1.trans p2, hsent⟩

/-- READ with SCL high (R174): the bytes where the three bytes sent are acknowledged, else the empty list, and one STOP condition. -/
theorem run_readBody (hl : (s.pin b.scl).latch = true) (addr reg n : Byte) :
    ∃ b' t out w, (readBody addr reg n P).run a s = .finished (.ok (.bytes out)) t ∧ Plays P a b s b' t w ∧ Sent true b' t ∧
      w.stops = 1 ∧ ReadOutcome s b addr reg n out w := by
  obtain ⟨pre, b1, s1, hrun1, m1, hrec1, hpre, -⟩ :=
    run_startCondition_writeByte (a := a) D hl (addrByte addr false) (stopThenRaise P) (readRegister addr reg n P)
  rw [← readBody_eq] at hrun1
  cases h3 : s.sdaDraw b 3 with
  | true =>
    rw [h3] at hrun1 m1
    obtain ⟨b', t, hrun, p, hsent⟩ := run_stop_done (a := a) m1.driven (.ok (.bytes []))
    exact ⟨b', t, [], _, hrun1.trans hrun, (m1.plays (by simp [length_sentPulses])).trans p, hsent, rfl, .inl ⟨.inl h3, rfl⟩⟩
  | false =>
    rw [h3] at hrun1 m1
    obtain ⟨b2, s2, hrun2, m2, hrec2⟩ := run_writeByte (a := a) (stopThenRaise P) reg (readAgain addr n P) m1.driven rfl
    have hdraw6 : s1.sdaDraw b1 (drawsToWrite b1.dir + 1) = s.sdaDraw b 6 := by rw [m1.sdaDraw, hrec1.dir]; rfl
    rw [hdraw6] at hrun2 m2
    rw [hrec1.dir] at m2
    have m12 := m1.trans m2
    cases h6 : s.sdaDraw b 6 with
    | true =>
      rw [h6] at hrun2 m12
      obtain ⟨b', t, hrun, p, hsent⟩ := run_stop_done (a := a) m12.driven (.ok (.bytes []))
      refine ⟨b', t, [], _, hrun1.trans (hrun2.trans hrun), (m12.plays ?_).trans p, hsent, rfl, .inl ⟨.inr (.inl h6), rfl⟩⟩
      simp [Seen.next, Seen.pulses, length_sentPulses]
      omega
    | false =>
      rw [h6] at hrun2 m12
      obtain ⟨pre3, b3, s3, hrun3, m3, hrec3, -, hpre3⟩ := run_startCondition_writeByte (a := a) m12.driven hrec2.scl_latch
        (addrByte addr true) (stopThenRaise P) (readData n P)
      have hdraw10 : s2.sdaDraw b2 3 = s.sdaDraw b 10 := m12.sdaDraw 3
      rw [hdraw10, hpre3 hrec2.dir] at m3
      rw [hdraw10] at hrun3
      have m123 := m12.trans m3
      cases h10 : s.sdaDraw b 10 with
      | true =>
        rw [h10] at hrun3 m123
        obtain ⟨b', t, hrun, p, hsent⟩ := run_stop_done (a := a) m123.driven (.ok (.bytes []))
        refine ⟨b', t, [], _, hrun1.trans (hrun2.trans (hrun3.trans hrun)), (m123.plays ?_).trans p, hsent, rfl,
          .inl ⟨.inr (.inr h10), rfl⟩⟩
        simp [Seen.next, Seen.pulses, length_sentPulses]
        omega
      | false =>
        rw [h10] at hrun3 m123
        obtain ⟨b', t, hrun, p, hsent⟩ := run_readData (a := a) m123.driven hrec3.dir n
        have hbytes : (fun j => s3.byteDrawn b3 (10 * j)) = fun j => s.byteDrawn b (11 + 10 * j) := by
          funext j
          rw [m123.byteDrawn]
          rfl
        rw [hbytes] at hrun p
        refine ⟨b', t, _, _, hrun1.trans (hrun2.trans (hrun3.trans hrun)), (m123.plays ?_).trans p, hsent, rfl,
          .inr ⟨⟨h3, h6, h10⟩, rfl, rfl, pre, ?_, hpre⟩⟩
        · simp [Seen.next, Seen.pulses, length_sentPulses]
          omega
        · simp [Seen.next, Seen.pulses, State.readPulses, List.append_assoc]

end

end Sys2Proof.Machine
end

section
/-! SUPPORT. What the bus commands do, settled from their runs: STOP, the bytes, the transactions, the round trip, and what holds of every bus
command (spec/42_i2c_primitives.md R148, spec/43_i2c_transfers.md R170 to R175, spec/10_state.md R31, spec/70_reset_and_hazards.md R243). -/

namespace Sys2Proof.Machine

/-! ## STOP and bytes -/

/-- Settles O48. -/
theorem stopEndsIdleWithOneStopCondition : Obligations.StopEndsIdleWithOneStopCondition := by
  unfold Obligations.StopEndsIdleWithOneStopCondition
  intro s b draw h
  obtain ⟨b', u, hrun, m, hsent⟩ := run_stopCondition (a := s.turn) h.driven raiseProtocolViolation returnNone
  obtain ⟨t, c, hp⟩ := completes (i := .stop) h rfl id hrun m
  obtain ⟨hbits, hstarts, hstops⟩ := c.trace draw
  refine ⟨t, b'.lastEdge, c.executes, c.frame, c.idle (hsent.of_pins hp), c.time, c.last, hstops, hstarts, ?_⟩
  rw [countChanges_isClockPulse, hbits]
  rfl

/-- Settles O49: the acknowledge is the level drawn after those of the switch to writing and the switch to reading. -/
theorem wbyteSendsMostSignificantFirst : Obligations.WbyteSendsMostSignificantFirst := by
  unfold Obligations.WbyteSendsMostSignificantFirst
  intro s b v draw h
  obtain ⟨b', u, hrun, m, hrec⟩ := run_writeByte (a := s.turn) raiseProtocolViolation v (fun ack => .done (.ok (.bool ack))) h.driven rfl
  obtain ⟨t, c, hp⟩ := completes (i := .wbyte v) h rfl id hrun m
  obtain ⟨hbits, hstarts, hstops⟩ := c.trace draw
  have hend := hrec.of_pins hp
  refine ⟨t, b'.lastEdge, _, c.executes, c.frame, c.ready_of_dir hend.dir, ?_, ?_, c.last, hbits, hstarts, hstops⟩
  · rw [← c.scl]
    exact hend.scl_latch
  · cases b.dir <;> rfl

/-- Settles O50. -/
theorem rbyteReceivesMostSignificantFirst : Obligations.RbyteReceivesMostSignificantFirst := by
  unfold Obligations.RbyteReceivesMostSignificantFirst
  intro s b ackflag draw h
  obtain ⟨b', u, hrun, m, hsent⟩ := run_readByte (a := s.turn) raiseProtocolViolation ackflag (fun v => .done (.ok (.byte v))) h.driven rfl
  obtain ⟨t, c, hp⟩ := completes (i := .rbyte ackflag) h rfl id hrun m
  obtain ⟨hbits, hstarts, hstops⟩ := c.trace draw
  have hend := hsent.of_pins hp
  refine ⟨t, b'.lastEdge, _, c.executes, c.frame, c.ready_of_dir hend.dir, ?_, ?_, ?_, c.last, hbits, hstarts, hstops⟩
  · rw [← c.scl]
    exact hend.scl_latch
  · rw [← c.sda]
    exact hend.sda_latch
  · cases b.dir <;> rfl

/-- Settles O51. -/
theorem wbytesStopsAtTheFirstNack : Obligations.WbytesStopsAtTheFirstNack := by
  unfold Obligations.WbytesStopsAtTheFirstNack
  intro s b data draw h
  obtain ⟨b', u, hrun, ⟨n, m⟩, -⟩ := run_writeBytes (a := s.turn) raiseProtocolViolation (fun ok => .done (.ok (.bool ok))) data h.driven
  obtain ⟨t, c, -⟩ := completes (i := .wbytes data) h rfl id hrun m
  obtain ⟨hbits, hstarts, hstops⟩ := c.trace draw
  refine ⟨t, drawsToWrite b.dir + 1, _, by cases b.dir <;> rfl, c.executes, c.frame, rfl, c.last, hbits, hstarts, hstops, ?_⟩
  rintro rfl
  obtain ⟨-, ho, hc, howner, -⟩ := h
  have hnone := c.executes
  rw [exec_of_busFree (i := .wbytes []) (u := s.setOwner (some s.turn)) (r := .ok (.bool true)) ho hc howner rfl id rfl,
    deliver_setOwner howner] at hnone
  injection hnone with ht
  exact ht.symm

/-! ## Transactions -/

section
variable {s : State} {b : BusRegs} (h : s.busReady b) (addr reg : Byte) (haddr : addr.toNat < 128)
include h haddr

/-- WRITE with SCL high. -/
theorem write_completes (hl : (s.pin b.scl).latch = true) (data : List Byte) :
    ∃ pre b' t w, Completes s b (.write addr reg data) (.ok (.bool ((List.range (data.length + 2)).all (s.acked b 3)))) b' t
        (2 * w.bits.length) w ∧ Sent true b' t ∧
      w = ⟨pre ++ sentUntilNack (s.acked b 3) 0 (addrByte addr false :: reg :: data) ++ [false], 1, 1⟩ ∧
      (b.dir = .writing → (s.pin b.sda).latch = true → pre = []) := by
  obtain ⟨pre, b', u, hrun, ⟨n, m⟩, hsent, hpre⟩ := run_writeBody (a := s.turn) h.driven hl addr reg data
  obtain ⟨t, c, hp⟩ := completes (i := .write addr reg data) h rfl (Nat.not_le.2 haddr) hrun m
  exact ⟨pre, b', t, _, c, hsent.of_pins hp, rfl, hpre⟩

/-- WRITE with SCL low. -/
theorem write_completes_low (hl : (s.pin b.scl).latch = false) (data : List Byte) :
    ∃ b' t, Completes s b (.write addr reg data) (.error .protocolViolation) b' t 2 ⟨[false], 0, 1⟩ ∧ Sent true b' t := by
  obtain ⟨b', u, hrun, ⟨n, m⟩, hsent⟩ := run_startCondition_stopThenRaise (a := s.turn) h.driven hl _
  obtain ⟨t, c, hp⟩ := completes (i := .write addr reg data) h rfl (Nat.not_le.2 haddr) hrun m
  exact ⟨b', t, c, hsent.of_pins hp⟩

variable {n : Byte} (hn : n ≠ 0#8)
include hn

/-- READ with SCL high. -/
theorem read_completes (hl : (s.pin b.scl).latch = true) :
    ∃ b' t out w, Completes s b (.read addr reg n) (.ok (.bytes out)) b' t (2 * w.bits.length) w ∧ Sent true b' t ∧ w.stops = 1 ∧
      ReadOutcome s b addr reg n out w := by
  obtain ⟨b', u, out, w, hrun, ⟨k, m⟩, hsent, hstops, hout⟩ := run_readBody (a := s.turn) h.driven hl addr reg n
  obtain ⟨t, c, hp⟩ := completes (i := .read addr reg n) h rfl (by simp [haddr, hn]) hrun m
  exact ⟨b', t, out, w, c, hsent.of_pins hp, hstops, hout⟩

/-- READ with SCL low. -/
theorem read_completes_low (hl : (s.pin b.scl).latch = false) :
    ∃ b' t, Completes s b (.read addr reg n) (.error .protocolViolation) b' t 2 ⟨[false], 0, 1⟩ ∧ Sent true b' t := by
  obtain ⟨b', u, hrun, ⟨k, m⟩, hsent⟩ := run_startCondition_stopThenRaise (a := s.turn) h.driven hl _
  obtain ⟨t, c, hp⟩ := completes (i := .read addr reg n) h rfl (by simp [haddr, hn]) hrun m
  exact ⟨b', t, c, hsent.of_pins hp⟩

end

/-- Settles O52: with SCL high the transaction's own STOP, with SCL low that of the handler. -/
theorem writeAlwaysStopsOnce : Obligations.WriteAlwaysStopsOnce := by
  unfold Obligations.WriteAlwaysStopsOnce
  intro s b addr reg data draw h haddr
  cases hl : (s.pin b.scl).latch with
  | true =>
    obtain ⟨pre, b', t, w, c, hsent, rfl, -⟩ := write_completes h addr reg haddr hl data
    obtain ⟨-, -, hstops⟩ := c.trace draw
    exact ⟨t, b'.lastEdge, _, c.executes, c.frame, c.idle hsent, c.last, hstops, fun _ => ⟨_, rfl⟩, fun hf => by cases hf⟩
  | false =>
    obtain ⟨b', t, c, hsent⟩ := write_completes_low h addr reg haddr hl data
    obtain ⟨-, -, hstops⟩ := c.trace draw
    exact ⟨t, b'.lastEdge, _, c.executes, c.frame, c.idle hsent, c.last, hstops, fun ht => absurd ht Bool.false_ne_true, fun _ => rfl⟩

/-- Settles O53: as O52. -/
theorem readAlwaysStopsOnce : Obligations.ReadAlwaysStopsOnce := by
  unfold Obligations.ReadAlwaysStopsOnce
  intro s b addr reg n draw h haddr hn
  cases hl : (s.pin b.scl).latch with
  | true =>
    obtain ⟨b', t, out, w, c, hsent, hw, hout⟩ := read_completes h addr reg haddr hn hl
    obtain ⟨-, -, hstops⟩ := c.trace draw
    refine ⟨t, b'.lastEdge, _, c.executes, c.frame, c.idle hsent, c.last, hstops.trans hw, fun _ => ⟨out, rfl, ?_⟩, fun hf => by cases hf⟩
    rcases hout with ⟨-, hnil⟩ | ⟨-, hbytes, -⟩
    · exact .inl hnil
    · exact .inr (by rw [hbytes, State.bytesRead, List.length_map, List.length_range])
  | false =>
    obtain ⟨b', t, c, hsent⟩ := read_completes_low h addr reg haddr hn hl
    obtain ⟨-, -, hstops⟩ := c.trace draw
    exact ⟨t, b'.lastEdge, _, c.executes, c.frame, c.idle hsent, c.last, hstops, fun ht => absurd ht Bool.false_ne_true, fun _ => rfl⟩

/-- Settles O54: from idle START takes no pulse. -/
theorem writeTransactionOnTheWire : Obligations.WriteTransactionOnTheWire := by
  unfold Obligations.WriteTransactionOnTheWire
  intro s b addr reg data draw ⟨h, hdir, hscl, hsda⟩ haddr
  obtain ⟨pre, b', t, w, c, -, rfl, hpre⟩ := write_completes h addr reg haddr hscl data
  obtain ⟨hbits, hstarts, hstops⟩ := c.trace draw
  rw [hpre hdir hsda] at hbits
  exact ⟨t, _, c.executes, rfl, c.last, hbits, hstarts, hstops⟩

/-- Settles O57. -/
theorem readNackGivesTheEmptyList : Obligations.ReadNackGivesTheEmptyList := by
  unfold Obligations.ReadNackGivesTheEmptyList
  intro s b addr reg n draw ⟨h, _, hscl, _⟩ haddr hn hnack
  obtain ⟨b', t, out, w, c, -, hw, hout⟩ := read_completes h addr reg haddr hn hscl
  obtain ⟨-, -, hstops⟩ := c.trace draw
  rcases hout with ⟨-, rfl⟩ | ⟨⟨h3, h6, h10⟩, -⟩
  · exact ⟨t, c.executes, c.last, hstops.trans hw⟩
  · simp [h3, h6, h10] at hnack

/-! ## What the slave drives and sees -/

/-- A list is its members by their number. -/
theorem map_range_getD (l : List Byte) : ((List.range l.length).map fun j => l.getD j 0#8) = l := by
  apply List.ext_getElem
  · simp
  · intro j h₁ h₂
    simp [List.getD_eq_getElem?_getD, List.getElem?_eq_getElem h₂]

/-- A count of fewer than 256 bytes is that of its byte. -/
theorem toNat_ofNat_length {l : List Byte} (h : l.length < 256) : (BitVec.ofNat 8 l.length).toNat = l.length := by
  rw [BitVec.toNat_ofNat]
  exact Nat.mod_eq_of_lt h

theorem ofNat_length_ne_zero {l : List Byte} (h₀ : 0 < l.length) (h : l.length < 256) : BitVec.ofNat 8 l.length ≠ 0#8 := by
  intro hz
  have hlen := congrArg BitVec.toNat hz
  rw [toNat_ofNat_length h] at hlen
  exact absurd hlen (Nat.ne_of_gt h₀)

section
variable {s : State} {b : BusRegs} {data : List Byte} (hd : ∀ j, j < data.length → s.byteDrawn b (11 + 10 * j) = data.getD j 0#8)
include hd

theorem bytesRead_of_driven : s.bytesRead b data.length = data := by
  conv => rhs; rw [← map_range_getD data]
  exact List.map_congr_left fun j hj => hd j (List.mem_range.1 hj)

theorem receivedRow_of_driven :
    receivedRow (fun j => s.byteDrawn b (11 + 10 * j)) data.length =
      (List.range data.length).flatMap fun j => receivedPulses (data.getD j 0#8) (decide (j + 1 < data.length)) := by
  rw [receivedRow, List.flatMap, List.flatMap]
  exact congrArg List.flatten (List.map_congr_left fun j hj => by rw [hd j (List.mem_range.1 hj)])

end

/-- Settles O56. -/
theorem readReturnsTheBytesTheSlaveDrives : Obligations.ReadReturnsTheBytesTheSlaveDrives := by
  unfold Obligations.ReadReturnsTheBytesTheSlaveDrives
  intro s b addr reg data draw ⟨h, hdir, hscl, hsda⟩ haddr h0 h256 h3 h6 h10 hdriven
  obtain ⟨b', t, out, w, c, -, hw, hout⟩ := read_completes h addr reg haddr (ofNat_length_ne_zero h0 h256) hscl
  obtain ⟨hbits, hstarts, hstops⟩ := c.trace draw
  rcases hout with ⟨hnack, -⟩ | ⟨-, rfl, hw2, pre, hpulses, hpre⟩
  · simp [h3, h6, h10] at hnack
  · rw [hpulses, hpre hdir hsda, toNat_ofNat_length h256, List.nil_append, State.readPulses, receivedRow_of_driven hdriven] at hbits
    have hlast := c.last
    rw [toNat_ofNat_length h256, bytesRead_of_driven hdriven] at hlast
    exact ⟨t, c.executes, hlast, hbits, hstarts.trans hw2, hstops.trans hw⟩

/-- All acknowledged, every byte is sent. -/
theorem sentUntilNack_of_all {f : Nat → Bool} {l : List Byte} (h : (List.range l.length).all f = true) :
    sentUntilNack f 0 l = l.flatMap fun v => sentPulses v true := by
  induction l generalizing f with
  | nil => rfl
  | cons v rest ih =>
    rw [List.length_cons, all_range_succ, Bool.and_eq_true] at h
    obtain ⟨h0, hrest⟩ := h
    rw [sentUntilNack, h0, if_pos rfl, ← sentUntilNack_shift, ih hrest]
    rfl

theorem ofMsbFirst_msbFirst : ∀ v : Byte, ofMsbFirst (msbFirst v) = v := by decide +kernel

/-- The bytes on the wire are those sent, whatever fewer pulses follow (R72). -/
theorem bytesOnWire_sent (l : List Byte) : bytesOnWire ((l.flatMap fun v => sentPulses v true) ++ [false]) = l := by
  induction l with
  | nil => rfl
  | cons v rest ih =>
    have hstep : bytesOnWire (((v :: rest).flatMap fun v => sentPulses v true) ++ [false]) =
        ofMsbFirst (msbFirst v) :: bytesOnWire ((rest.flatMap fun v => sentPulses v true) ++ [false]) := rfl
    rw [hstep, ih, ofMsbFirst_msbFirst]

/-- Settles O55: the WRITE leaves the bus at idle with its data on the wire, and the READ returns what is driven. -/
theorem roundTripLaw : Obligations.RoundTripLaw := by
  unfold Obligations.RoundTripLaw
  intro s t b addr reg data env draw ⟨h, hdir, hscl, hsda⟩ haddr h0 h256 hexec hlast h3 h6 h10 hdriven
  obtain ⟨pre, b', t', w, c, hsent, rfl, hpre⟩ := write_completes h addr reg haddr hscl data
  have htt : t' = t := by
    have hnext := c.executes.symm.trans hexec
    injection hnext
  subst htt
  have hall : (List.range (data.length + 2)).all (s.acked b 3) = true := by
    have hreply := c.last.symm.trans hlast
    simpa using hreply
  obtain ⟨hbits, -, -⟩ := c.trace draw
  have hwire : (bytesOnWire (pulseBits (s.traceTo t' b draw))).drop 2 = data := by
    rw [hbits, hpre hdir hsda, List.nil_append, sentUntilNack_of_all (l := addrByte addr false :: reg :: data) hall, bytesOnWire_sent]
    rfl
  rw [hwire] at hdriven
  obtain ⟨hready, hdir', hscl', hsda'⟩ := c.idle hsent
  have hturn : t'.turn = s.turn := by
    obtain ⟨helse, -⟩ := c.frame
    rw [helse]
  have hready' : State.busReady { t' with env := env } { b with dir := .writing, lastEdge := b'.lastEdge } := hready
  obtain ⟨b'', u, out, w, c', -, -, hout⟩ := read_completes hready' addr reg haddr (ofNat_length_ne_zero h0 h256) hscl'
  have hread : State.bytesRead { t' with env := env } { b with dir := .writing, lastEdge := b'.lastEdge } data.length = data :=
    bytesRead_of_driven hdriven
  rcases hout with ⟨hnack, -⟩ | ⟨-, rfl, -⟩
  · have hd3 : State.sdaDraw { t' with env := env } { b with dir := .writing, lastEdge := b'.lastEdge } 3 = false := h3
    have hd6 : State.sdaDraw { t' with env := env } { b with dir := .writing, lastEdge := b'.lastEdge } 6 = false := h6
    have hd10 : State.sdaDraw { t' with env := env } { b with dir := .writing, lastEdge := b'.lastEdge } 10 = false := h10
    simp [hd3, hd6, hd10] at hnack
  · have hlast' := c'.last
    rw [toNat_ofNat_length h256, hread] at hlast'
    rw [← hturn]
    exact ⟨u, c'.executes, hlast'⟩

end Sys2Proof.Machine
end

section
/-! SUPPORT. What holds of every bus command but I2CDISP (spec/10_state.md R31, spec/70_reset_and_hazards.md R233, R243). -/

namespace Sys2Proof.Machine

/-! ## Every bus command's run -/

/-- The bus commands that can raise ProtocolViolation. -/
abbrev MayViolate (i : Instr) : Prop :=
  i = .setwm ∨ i = .setrm ∨ i = .start ∨ (∃ addr reg data, i = .write addr reg data) ∨ ∃ addr reg n, i = .read addr reg n

/-- Command `i`'s body runs to its end, keeping SCL high if it is, with no error but ProtocolViolation where that may be raised. -/
def RunsOnBus (P : Params) (a : AgentId) (i : Instr) (b : BusRegs) (s : State) : Prop :=
  ∃ r b' t n h w, ((commandOf i).body P).run a s = .finished r t ∧ Moves P a b s b' t n h w ∧
    ((s.pin b.scl).latch = true → (t.pin b'.scl).latch = true) ∧ ∀ x, r = .error x → x = .protocolViolation ∧ MayViolate i

/-- A returned value is no error. -/
theorem ok_ne_error {v : Value} {i : Instr} : ∀ x, Reply.ok v = .error x → x = .protocolViolation ∧ MayViolate i :=
  fun _ h => nomatch h

/-- ProtocolViolation from a command that may raise it. -/
theorem violation_of_mayViolate {i : Instr} (h : MayViolate i) :
    ∀ x, Reply.error .protocolViolation = .error x → x = .protocolViolation ∧ MayViolate i :=
  fun _ hx => ⟨by injection hx with hx; exact hx.symm, h⟩

section
variable {P : Params} {a : AgentId} {b : BusRegs} {s : State} (D : Driven P b s)
include D

theorem setwm_runs : RunsOnBus P a .setwm b s := by
  cases hl : (s.pin b.scl).latch with
  | false =>
    obtain ⟨b', t, hrun, m, -, -⟩ := run_setWriteMode (a := a) D raiseProtocolViolation returnNone hl
    exact ⟨_, b', t, _, _, _, hrun, m, fun h => absurd (hl.symm.trans h) Bool.false_ne_true, ok_ne_error⟩
  | true =>
    cases hd : b.dir with
    | writing => exact ⟨_, b, s, _, _, _, run_setWriteMode_writing D.toLive hd _ returnNone, .refl D, id, ok_ne_error⟩
    | reading =>
      exact ⟨_, b, _, _, _, _, run_setWriteMode_high D.toLive hd (D.levelOf_scl.trans hl) raiseProtocolViolation _,
        moves_valueGot D (.inl rfl), (latch_valueGot D.scl_lt _).trans, violation_of_mayViolate (.inl rfl)⟩

theorem setrm_runs : RunsOnBus P a .setrm b s := by
  cases hl : (s.pin b.scl).latch with
  | false =>
    obtain ⟨b', t, hrun, m, -, -⟩ := run_setReadMode (a := a) D raiseProtocolViolation returnNone hl
    exact ⟨_, b', t, _, _, _, hrun, m, fun h => absurd (hl.symm.trans h) Bool.false_ne_true, ok_ne_error⟩
  | true =>
    cases hd : b.dir with
    | reading => exact ⟨_, b, s, _, _, _, run_setReadMode_reading D.toLive hd _ returnNone, .refl D, id, ok_ne_error⟩
    | writing =>
      exact ⟨_, b, _, _, _, _, run_setReadMode_high D.toLive hd (D.levelOf_scl.trans hl) raiseProtocolViolation _,
        moves_valueGot D (.inl rfl), (latch_valueGot D.scl_lt _).trans, violation_of_mayViolate (.inr (.inl rfl))⟩

theorem start_runs : RunsOnBus P a .start b s := by
  cases hl : (s.pin b.scl).latch with
  | false =>
    exact ⟨_, b, _, _, _, _, run_startCondition_low D hl raiseProtocolViolation _, moves_valueGot D (.inl rfl),
      (latch_valueGot D.scl_lt _).trans, violation_of_mayViolate (.inr (.inr (.inl rfl)))⟩
  | true =>
    obtain ⟨pre, b', t, hrun, hsent, m, -⟩ := run_startCondition_plays (a := a) D hl raiseProtocolViolation returnNone
    exact ⟨_, b', t, _, _, _, hrun, m, fun _ => hsent.scl_latch, ok_ne_error⟩

theorem write_runs (addr reg : Byte) (data : List Byte) : RunsOnBus P a (.write addr reg data) b s := by
  cases hl : (s.pin b.scl).latch with
  | false =>
    obtain ⟨b', t, hrun, ⟨n, m⟩, hsent⟩ := run_startCondition_stopThenRaise (a := a) D hl _
    exact ⟨_, b', t, _, _, _, hrun, m, fun _ => hsent.scl_latch,
      violation_of_mayViolate (.inr (.inr (.inr (.inl ⟨addr, reg, data, rfl⟩))))⟩
  | true =>
    obtain ⟨pre, b', t, hrun, ⟨n, m⟩, hsent, -⟩ := run_writeBody (a := a) D hl addr reg data
    exact ⟨_, b', t, _, _, _, hrun, m, fun _ => hsent.scl_latch, ok_ne_error⟩

theorem read_runs (addr reg n : Byte) : RunsOnBus P a (.read addr reg n) b s := by
  cases hl : (s.pin b.scl).latch with
  | false =>
    obtain ⟨b', t, hrun, ⟨k, m⟩, hsent⟩ := run_startCondition_stopThenRaise (a := a) D hl _
    exact ⟨_, b', t, _, _, _, hrun, m, fun _ => hsent.scl_latch,
      violation_of_mayViolate (.inr (.inr (.inr (.inr ⟨addr, reg, n, rfl⟩))))⟩
  | true =>
    obtain ⟨b', t, out, w, hrun, ⟨k, m⟩, hsent, -⟩ := run_readBody (a := a) D hl addr reg n
    exact ⟨_, b', t, _, _, _, hrun, m, fun _ => hsent.scl_latch, ok_ne_error⟩

/-- Every bus command but I2CDISP. -/
theorem busCommand_runs {i : Instr} (hi : isBusCommand i = true) (hd : i ≠ .i2cdisp) : RunsOnBus P a i b s := by
  cases i with
  | openMap => cases hi
  | closeMap => cases hi
  | rdw off => cases hi
  | wrw off v => cases hi
  | pcfgo p => cases hi
  | pcfgi p => cases hi
  | pset p v => cases hi
  | pget p => cases hi
  | i2cinit scl sda freq => cases hi
  | i2cdisp => exact absurd rfl hd
  | setwm => exact setwm_runs D
  | setrm => exact setrm_runs D
  | start => exact start_runs D
  | write addr reg data => exact write_runs D addr reg data
  | read addr reg n => exact read_runs D addr reg n
  | wbit v =>
    obtain ⟨b', t, hrun, m, hsent⟩ := run_writeBit (a := a) D v raiseProtocolViolation returnNone
    exact ⟨_, b', t, _, _, _, hrun, m, fun _ => hsent.scl_latch, ok_ne_error⟩
  | rbit =>
    obtain ⟨b', t, hrun, m, hrec⟩ := run_readBit (a := a) D raiseProtocolViolation fun v => .done (.ok (.bit v))
    exact ⟨_, b', t, _, _, _, hrun, m, fun _ => hrec.scl_latch, ok_ne_error⟩
  | stop =>
    obtain ⟨b', t, hrun, m, hsent⟩ := run_stopCondition (a := a) D raiseProtocolViolation returnNone
    exact ⟨_, b', t, _, _, _, hrun, m, fun _ => hsent.scl_latch, ok_ne_error⟩
  | wbyte v =>
    obtain ⟨b', t, hrun, m, hrec⟩ := run_writeByte (a := a) raiseProtocolViolation v (fun ok => .done (.ok (.bool ok))) D rfl
    exact ⟨_, b', t, _, _, _, hrun, m, fun _ => hrec.scl_latch, ok_ne_error⟩
  | rbyte ackflag =>
    obtain ⟨b', t, hrun, m, hsent⟩ := run_readByte (a := a) raiseProtocolViolation ackflag (fun v => .done (.ok (.byte v))) D rfl
    exact ⟨_, b', t, _, _, _, hrun, m, fun _ => hsent.scl_latch, ok_ne_error⟩
  | wbytes data =>
    obtain ⟨b', t, hrun, ⟨n, m⟩, hscl⟩ := run_writeBytes (a := a) raiseProtocolViolation (fun ok => .done (.ok (.bool ok))) data D
    exact ⟨_, b', t, _, _, _, hrun, m, hscl, ok_ne_error⟩

end

/-- A bus command but I2CDISP, with valid arguments, from a ready bus. -/
theorem busCommand_completes {i : Instr} {s : State} {b : BusRegs} (hi : isBusCommand i = true) (hd : i ≠ .i2cdisp) (h : s.busReady b)
    (ha : ¬ badArguments s.numPins i) :
    ∃ r b' t n w, Completes s b i r b' t n w ∧ ((s.pin b.scl).latch = true → (t.pin b.scl).latch = true) ∧
      ∀ x, r = .error x → x = .protocolViolation ∧ MayViolate i := by
  obtain ⟨r, b', u, n, k, w, hrun, m, hscl, herr⟩ := busCommand_runs (a := s.turn) h.driven hi hd
  obtain ⟨t, c, hp⟩ := completes h hi ha hrun m
  refine ⟨r, b', t, k, w, c, fun hl => ?_, herr⟩
  rw [State.pin, hp, ← c.scl]
  exact hscl hl

/-- From a ready bus, bad arguments of a bus command end it with ConfigurationError and nothing done (R204). -/
theorem exec_of_badArguments {i : Instr} {s : State} {b : BusRegs} (hi : isBusCommand i = true) (h : s.busReady b)
    (ha : badArguments s.numPins i) :
    exec i s = .next { s with history := s.history ++ [.completed s.turn i (.error .configurationError)] } := by
  obtain ⟨-, ho, hc, howner, -⟩ := h
  refine badArgumentsChangeNothing i s ha ho ⟨fun _ => ⟨hc, howner⟩, ?_⟩
  rintro scl sda freq rfl
  cases hi

/-- Settles O58: each command is a composition of parts of a run, and parts keep the bus driven. -/
theorem busCommandsKeepTheBusReady : Obligations.BusCommandsKeepTheBusReady := by
  unfold Obligations.BusCommandsKeepTheBusReady
  intro i s b hi hd h ha
  obtain ⟨r, b', t, n, w, c, -, herr⟩ := busCommand_completes hi hd h ha
  exact ⟨t, b'.dir, b'.lastEdge, r, c.executes, c.frame, c.ready_of_dir rfl, Nat.le_trans (Nat.le_add_right _ _) c.time, c.last, herr⟩

/-- Settles O59: with bad arguments nothing is done, else the run keeps SCL high. -/
theorem sclIsHighBetweenOperations : Obligations.SclIsHighBetweenOperations := by
  unfold Obligations.SclIsHighBetweenOperations
  intro i s t b hi hd h hl hexec
  by_cases ha : badArguments s.numPins i
  · have hnext := (exec_of_badArguments hi h ha).symm.trans hexec
    injection hnext with ht
    subst ht
    obtain ⟨-, -, -, -, -, -, -, -, hout, -⟩ := h
    exact ⟨hout, hl⟩
  · obtain ⟨r, b', t', n, w, c, hscl, -⟩ := busCommand_completes hi hd h ha
    have hnext := c.executes.symm.trans hexec
    injection hnext with ht
    subst ht
    obtain ⟨-, -, -, -, hfsel⟩ := c.frame
    obtain ⟨-, -, -, -, -, -, -, -, hout, -⟩ := h
    exact ⟨hfsel.trans hout, hscl hl⟩

/-! ## The least times -/

/-- What a command answers is what it completes with. -/
theorem Completes.unique {s t u : State} {b b' : BusRegs} {i : Instr} {r : Reply} {n : Nat} {w : Seen} (c : Completes s b i r b' t n w)
    (h : exec i s = .next u) : u = t := by
  have hnext := h.symm.trans c.executes
  injection hnext

/-- The stamp of a command's end lies its half periods past the one before. -/
theorem Completes.least {s t u : State} {b b' : BusRegs} {i : Instr} {r : Reply} {n e : Nat} {w : Seen} (c : Completes s b i r b' t n w)
    (h : exec i s = .next u) (he : u.bus.lastEdge = some e) : b.lastEdge + n * b.halfPeriod ≤ e := by
  rw [c.unique h, c.lastEdge] at he
  injection he with he
  exact he ▸ c.time

/-- The result of a command is the one it completes with. -/
theorem Completes.result {s t u : State} {b b' : BusRegs} {i : Instr} {r r' : Reply} {n : Nat} {w : Seen} (c : Completes s b i r b' t n w)
    (h : exec i s = .next u) (hr : u.history.getLast? = some (.completed s.turn i r')) : r' = r := by
  rw [c.unique h, c.last] at hr
  simpa using hr.symm

/-- With bad arguments the result is ConfigurationError. -/
theorem result_of_badArguments {i : Instr} {s t : State} {b : BusRegs} {r : Reply} (hi : isBusCommand i = true) (h : s.busReady b)
    (ha : badArguments s.numPins i) (hexec : exec i s = .next t) (hr : t.history.getLast? = some (.completed s.turn i r)) :
    r = .error .configurationError := by
  have hnext := (exec_of_badArguments hi h ha).symm.trans hexec
  injection hnext with ht
  subst ht
  simpa using hr.symm

/-- Two half periods for each of `k` pulses or more. -/
theorem least_of_pulses {l e hp k m : Nat} (h : l + 2 * m * hp ≤ e) (hk : k ≤ m) : l + 2 * hp * k ≤ e := by
  have hmul : 2 * hp * k ≤ 2 * m * hp := by
    rw [Nat.mul_right_comm]
    exact Nat.mul_le_mul_right hp (Nat.mul_le_mul_left 2 hk)
  omega

theorem length_sentRow (l : List Byte) : (l.flatMap fun v => sentPulses v true).length = 9 * l.length := by
  simp [List.length_flatMap, length_sentPulses, Nat.mul_comm]

section
variable {s t : State} {b : BusRegs} {e : Nat} (h : s.busReady b) (he : t.bus.lastEdge = some e)
include h he

/-- A bit and STOP take two half periods. -/
theorem least_of_bit {i : Instr} (hi : (∃ v, i = .wbit v) ∨ i = .rbit ∨ i = .stop) (hexec : exec i s = .next t) :
    b.lastEdge + 2 * b.halfPeriod ≤ e := by
  obtain ⟨v, rfl⟩ | rfl | rfl := hi
  · obtain ⟨b', u, hrun, m, -⟩ := run_writeBit (a := s.turn) h.driven v raiseProtocolViolation returnNone
    obtain ⟨t', c, -⟩ := completes (i := .wbit v) h rfl id hrun m
    exact c.least hexec he
  · obtain ⟨b', u, hrun, m, -⟩ := run_readBit (a := s.turn) h.driven raiseProtocolViolation fun v => .done (.ok (.bit v))
    obtain ⟨t', c, -⟩ := completes (i := .rbit) h rfl id hrun m
    exact c.least hexec he
  · obtain ⟨b', u, hrun, m, -⟩ := run_stopCondition (a := s.turn) h.driven raiseProtocolViolation returnNone
    obtain ⟨t', c, -⟩ := completes (i := .stop) h rfl id hrun m
    exact c.least hexec he

/-- A byte takes eighteen. -/
theorem least_of_byte {i : Instr} (hi : (∃ v, i = .wbyte v) ∨ ∃ a, i = .rbyte a) (hexec : exec i s = .next t) :
    b.lastEdge + 18 * b.halfPeriod ≤ e := by
  obtain ⟨v, rfl⟩ | ⟨x, rfl⟩ := hi
  · obtain ⟨b', u, hrun, m, -⟩ :=
      run_writeByte (a := s.turn) raiseProtocolViolation v (fun ack => .done (.ok (.bool ack))) h.driven rfl
    obtain ⟨t', c, -⟩ := completes (i := .wbyte v) h rfl id hrun m
    exact c.least hexec he
  · obtain ⟨b', u, hrun, m, -⟩ :=
      run_readByte (a := s.turn) raiseProtocolViolation x (fun v => .done (.ok (.byte v))) h.driven rfl
    obtain ⟨t', c, -⟩ := completes (i := .rbyte x) h rfl id hrun m
    exact c.least hexec he

/-- A WRITE all acknowledged takes two for each of its pulses. -/
theorem least_of_write {addr reg : Byte} {data : List Byte} (hexec : exec (.write addr reg data) s = .next t)
    (hr : t.history.getLast? = some (.completed s.turn (.write addr reg data) (.ok (.bool true)))) :
    b.lastEdge + 2 * b.halfPeriod * (9 * (data.length + 2) + 1) ≤ e := by
  by_cases haddr : addr.toNat < 128
  · cases hl : (s.pin b.scl).latch with
    | false =>
      obtain ⟨b', t', c, -⟩ := write_completes_low h addr reg haddr hl data
      cases c.result hexec hr
    | true =>
      obtain ⟨pre, b', t', w, c, -, rfl, -⟩ := write_completes h addr reg haddr hl data
      have hall : (List.range (addrByte addr false :: reg :: data).length).all (s.acked b 3) = true := by
        have hreply := c.result hexec hr
        simp only [Reply.ok.injEq, Value.bool.injEq] at hreply
        exact hreply.symm
      have htime := c.least hexec he
      rw [sentUntilNack_of_all hall, List.length_append, List.length_append, length_sentRow] at htime
      exact least_of_pulses htime (by simp only [List.length_cons, List.length_nil]; omega)
  · cases result_of_badArguments (i := .write addr reg data) rfl h (Nat.not_lt.1 haddr) hexec hr

/-- A READ that returns bytes takes two for each of its pulses. -/
theorem least_of_read {addr reg n : Byte} {out : List Byte} (hexec : exec (.read addr reg n) s = .next t)
    (hr : t.history.getLast? = some (.completed s.turn (.read addr reg n) (.ok (.bytes out)))) (hout : out ≠ []) :
    b.lastEdge + 2 * b.halfPeriod * (9 * (n.toNat + 3) + 2) ≤ e := by
  by_cases hbad : badArguments s.numPins (.read addr reg n)
  · cases result_of_badArguments (i := .read addr reg n) rfl h hbad hexec hr
  · obtain ⟨haddr, hn⟩ := not_or.1 hbad
    cases hl : (s.pin b.scl).latch with
    | false =>
      obtain ⟨b', t', c, -⟩ := read_completes_low h addr reg (Nat.not_le.1 haddr) hn hl
      cases c.result hexec hr
    | true =>
      obtain ⟨b', t', out', w, c, -, -, hor⟩ := read_completes h addr reg (Nat.not_le.1 haddr) hn hl
      have hsame : out = out' := by simpa using c.result hexec hr
      rcases hor with ⟨-, hnil⟩ | ⟨-, -, -, pre, hbits, -⟩
      · exact absurd (hsame.trans hnil) hout
      · have htime := c.least hexec he
        rw [hbits, State.readPulses] at htime
        refine least_of_pulses htime ?_
        simp only [List.length_append, length_sentPulses, length_receivedRow, List.length_cons, List.length_nil]
        omega

end

/-- Settles O60: each command's time is that of its pulses. -/
theorem operationsTakeTheirLeastTime : Obligations.OperationsTakeTheirLeastTime := by
  unfold Obligations.OperationsTakeTheirLeastTime
  intro i s t b e h hexec he
  refine ⟨fun hi => least_of_bit h he hi hexec, fun hi => least_of_byte h he hi hexec, ?_, ?_⟩
  · rintro addr reg data rfl hr
    exact least_of_write h he hexec hr
  · rintro addr reg n out rfl hr hout
    exact least_of_read h he hexec hr hout

end Sys2Proof.Machine
end

section
/-! SUPPORT. The exact accesses of construction, disposal, the direction switches, the bits and START (spec/42_i2c_primitives.md R141 to R147,
R155). -/

namespace Sys2Proof.Machine

/-! ## I2CINIT and I2CDISP -/

/-- The state after a pin is set to 1 and made an output (R141, R143). -/
def State.drivenHigh (a : AgentId) (p : Nat) (s : State) : State :=
  (s.valueSet a p true).configured a p s.params.fnOutput .output

section
variable {s : State} {p : Nat} (hp : p < s.pins.length) (a : AgentId)
include hp

theorem pin_drivenHigh (q : Nat) :
    (s.drivenHigh a p).pin q =
      if q = p then { fsel := s.params.fnOutput, latch := true, dir := some .output, last := some true } else s.pin q := by
  have hp' : p < (s.valueSet a p true).pins.length := (length_updatePin _ _ _).symm ▸ hp
  rw [State.drivenHigh, pin_configured hp', pin_valueSet hp, pin_valueSet hp, if_pos rfl]
  split <;> rfl

theorem run_drivenHigh (ok : paramsOk s.params s.pins.length) (ho : s.map.isOpen = true) (k : Prog) :
    (setValue s.params p true (configureAsOutput s.params p k)).run a s = k.run a (s.drivenHigh a p) := by
  have hp' : p < (s.valueSet a p true).pins.length := (length_updatePin _ _ _).symm ▸ hp
  have ho' : (s.valueSet a p true).map.isOpen = true := ho
  rw [run_setValue rfl ok ho hp, configureAsOutput, run_configureAs ho' hp']
  rfl

end

theorem length_drivenHigh (s : State) (a : AgentId) (p : Nat) : (s.drivenHigh a p).pins.length = s.pins.length :=
  (length_updatePin _ _ _).trans (length_updatePin _ _ _)

/-- The state at the end of I2CINIT's body (R141). -/
def State.busCreated (a : AgentId) (c d h q : Nat) (s : State) : State :=
  let u := ((s.drivenHigh a c).drivenHigh a d).assign (.busSetup c d h q)
  ((u.waited a 0).assign (.lastEdge (u.waitedTo 0))).assign .busConfigured

/-- I2CINIT's body (R141). -/
theorem run_i2cinit {s : State} {scl sda : PinField} {freq : Word} (ok : paramsOk s.params s.pins.length) (ho : s.map.isOpen = true)
    (hscl : scl.toNat < s.pins.length) (hsda : sda.toNat < s.pins.length) (a : AgentId) :
    ((commandOf (.i2cinit scl sda freq)).body s.params).run a s =
      .finished (.ok .none) (s.busCreated a scl.toNat sda.toNat (halfPeriodTicks s.params.clockRate freq.toNat)
        (quarterPeriodTicks s.params.clockRate freq.toNat)) := by
  have hlen := length_drivenHigh s a scl.toNat
  have hrun := run_drivenHigh (s := s.drivenHigh a scl.toNat) (p := sda.toNat) (by rw [hlen]; exact hsda) a (by rw [hlen]; exact ok) ho
  simp only [commandOf, i2cinitCommand]
  rw [run_drivenHigh hscl a ok ho]
  exact hrun _

/-- The checks of I2CINIT pass where its arguments are valid and the bus is unconfigured. -/
theorem firstStop_i2cinit {s : State} {scl sda : PinField} {freq : Word} (ho : s.map.isOpen = true) (hc : s.bus.cfg = .unconfigured)
    (hscl : scl.toNat < s.numPins) (hsda : sda.toNat < s.numPins) (hne : scl ≠ sda) (hf : freq ≠ 0#32) :
    firstStop ((commandOf (.i2cinit scl sda freq)).checks s) = none := by
  simp [commandOf, i2cinitCommand, firstStop, mapCheck, ho, hc, hscl, hsda, hne, hf]

section
variable {s : State} {c d : Nat} (hc : c < s.pins.length) (hd : d < s.pins.length) (a : AgentId) (hp qp : Nat)

include hc hd in
theorem pin_busCreated (q : Nat) :
    (s.busCreated a c d hp qp).pin q =
      if q = c ∨ q = d then { fsel := s.params.fnOutput, latch := true, dir := some .output, last := some true } else s.pin q := by
  have hd' : d < (s.drivenHigh a c).pins.length := by rwa [length_drivenHigh]
  refine (pin_drivenHigh hd' a q).trans ?_
  rw [pin_drivenHigh hc a q]
  by_cases hqd : q = d
  · rw [if_pos hqd, if_pos (.inr hqd)]
    rfl
  · rw [if_neg hqd]
    by_cases hqc : q = c
    · rw [if_pos hqc, if_pos (.inl hqc)]
    · rw [if_neg hqc, if_neg (not_or.2 ⟨hqc, hqd⟩)]

theorem length_busCreated (s : State) (c d : Nat) : (s.busCreated a c d hp qp).pins.length = s.pins.length :=
  (length_drivenHigh _ a d).trans (length_drivenHigh s a c)

theorem history_drivenHigh (s : State) (p : Nat) : ∃ w, (s.drivenHigh a p).history = s.history ++
    [.memWrite a (setOff s.params p) (bitMask p), .memRead a (fselOff p) w,
     .memWrite a (fselOff p) (withFsel w p s.params.fnOutput)] :=
  ⟨_, List.append_assoc _ _ _⟩

theorem history_busCreated (s : State) (c d : Nat) : ∃ w₁ w₂, (s.busCreated a c d hp qp).history = s.history ++
    [.memWrite a (setOff s.params c) (bitMask c), .memRead a (fselOff c) w₁,
     .memWrite a (fselOff c) (withFsel w₁ c s.params.fnOutput),
     .memWrite a (setOff s.params d) (bitMask d), .memRead a (fselOff d) w₂,
     .memWrite a (fselOff d) (withFsel w₂ d s.params.fnOutput), .tick a (s.waitedTo 0)] := by
  obtain ⟨w₁, h₁⟩ := history_drivenHigh a s c
  obtain ⟨w₂, h₂⟩ := history_drivenHigh a (s.drivenHigh a c) d
  refine ⟨w₁, w₂, ?_⟩
  have hlast : (s.busCreated a c d hp qp).history = ((s.drivenHigh a c).drivenHigh a d).history ++ [.tick a (s.waitedTo 0)] := rfl
  rw [hlast, h₂, h₁, List.append_assoc, List.append_assoc]
  rfl

end

theorem sameElsewhere_trans {s t u : State} (h : s.sameElsewhere t) (h' : t.sameElsewhere u) : s.sameElsewhere u := by
  rw [State.sameElsewhere, h', h]

theorem sameElsewhere_busCreated (a : AgentId) (c d hp qp : Nat) (s : State) : s.sameElsewhere (s.busCreated a c d hp qp) := by
  have h₁ : s.sameElsewhere (s.drivenHigh a c) := rfl
  have h₂ : (s.drivenHigh a c).sameElsewhere ((s.drivenHigh a c).drivenHigh a d) := rfl
  exact sameElsewhere_trans (sameElsewhere_trans h₁ h₂) rfl

theorem bus_busCreated (a : AgentId) (c d hp qp : Nat) (s : State) : (s.busCreated a c d hp qp).bus =
    { cfg := .configured, scl := some c, sda := some d, dir := some .writing, halfPeriod := some hp, quarterPeriod := some qp,
      lastEdge := some (s.waitedTo 0), owner := s.bus.owner } := rfl

theorem clock_busCreated (a : AgentId) (c d hp qp : Nat) (s : State) : (s.busCreated a c d hp qp).clock = s.waitedTo 0 := rfl

/-- I2CINIT with valid arguments. -/
theorem exec_i2cinit {s : State} {scl sda : PinField} {freq : Word} (ok : s.paramsOk) (ho : s.map.isOpen = true)
    (hc : s.bus.cfg = .unconfigured) (hscl : scl.toNat < s.numPins) (hsda : sda.toNat < s.numPins) (hne : scl ≠ sda) (hf : freq ≠ 0#32) :
    exec (.i2cinit scl sda freq) s = .next (((s.setOwner (some s.turn)).busCreated s.turn scl.toNat sda.toNat
      (halfPeriodTicks s.params.clockRate freq.toNat) (quarterPeriodTicks s.params.clockRate freq.toNat)).deliver s.turn
        (.i2cinit scl sda freq) true (.ok .none)) := by
  have hrun := run_i2cinit (s := s.setOwner (some s.turn)) (freq := freq) ok ho hscl hsda s.turn
  have henter : (commandOf (.i2cinit scl sda freq)).enter s.turn s = s.setOwner (some s.turn) := rfl
  have hpar : (s.setOwner (some s.turn)).params = s.params := rfl
  rw [hpar] at hrun
  rw [exec_eq, commandResult_delivered (firstStop_i2cinit ho hc hscl hsda hne hf), henter, hrun]
  rfl

/-- Settles O39. -/
theorem i2cinitCreatesTheBus : Obligations.I2cinitCreatesTheBus := by
  unfold Obligations.I2cinitCreatesTheBus
  intro s scl sda freq ok ho hc hscl hsda hne hf
  obtain ⟨w₁, w₂, hhist⟩ := history_busCreated s.turn (halfPeriodTicks s.params.clockRate freq.toNat)
    (quarterPeriodTicks s.params.clockRate freq.toNat) (s.setOwner (some s.turn)) scl.toNat sda.toNat
  have hpin := pin_busCreated (s := s.setOwner (some s.turn)) hscl hsda s.turn (halfPeriodTicks s.params.clockRate freq.toNat)
    (quarterPeriodTicks s.params.clockRate freq.toNat)
  have helse := sameElsewhere_busCreated s.turn scl.toNat sda.toNat (halfPeriodTicks s.params.clockRate freq.toNat)
    (quarterPeriodTicks s.params.clockRate freq.toNat) (s.setOwner (some s.turn))
  refine ⟨_, w₁, w₂, s.waitedTo 0, exec_i2cinit ok ho hc hscl hsda hne hf, sameElsewhere_trans (sameElsewhere_trans rfl helse) rfl,
    ?_, fun q hqc hqd => ?_, ?_, ?_, ?_, ?_, ?_, ?_⟩
  · rw [State.numPins, State.deliver_pins, length_busCreated]
    rfl
  · exact (hpin q).trans (if_neg (not_or.2 ⟨hqc, hqd⟩))
  · exact (hpin _).trans (if_pos (.inl rfl))
  · exact (hpin _).trans (if_pos (.inr rfl))
  · rw [State.deliver_bus, bus_busCreated]
    rfl
  · exact Nat.le_trans (Nat.le_max_left _ _) (Nat.le_add_right _ _)
  · rw [State.deliver_clock, clock_busCreated]
    rfl
  · rw [State.deliver_history, hhist, List.append_assoc]
    rfl

/-- The state at the end of I2CDISP's body (R142). -/
def State.busReleased (a : AgentId) (b : BusRegs) (s : State) : State :=
  ((s.configured a b.scl s.params.fnInput .input).configured a b.sda s.params.fnInput .input).assign .busCleared

/-- I2CDISP's body (R142). -/
theorem run_i2cdisp {P : Params} {b : BusRegs} {s : State} (L : Live P b s) (a : AgentId) :
    ((commandOf .i2cdisp).body P).run a s = .finished (.ok .none) (s.busReleased a b) := by
  have L1 : Live P b (s.configured a b.scl P.fnInput .input) := L.configured _ _ _
  have hbody : (commandOf .i2cdisp).body P = .look fun b => configureAsInput P b.scl
      (.look fun b => configureAsInput P b.sda (.set .busCleared returnNone)) := rfl
  rw [hbody, run_look _ L.regs, configureAsInput, run_configureAs L.isOpen L.scl_lt, run_look _ L1.regs, configureAsInput,
    run_configureAs L1.isOpen L1.sda_lt, run_set, State.busReleased, L.params]
  rfl

theorem pin_busReleased {P : Params} {b : BusRegs} {s : State} (L : Live P b s) (a : AgentId) (q : Nat) :
    (s.busReleased a b).pin q =
      if q = b.scl ∨ q = b.sda then { s.pin q with fsel := P.fnInput, dir := some .input } else s.pin q := by
  have L1 : Live P b (s.configured a b.scl s.params.fnInput .input) := L.configured _ _ _
  refine (pin_configured L1.sda_lt a q _ _).trans ?_
  rw [pin_configured L.scl_lt, pin_configured L.scl_lt, if_neg L.distinct.symm, L.params]
  by_cases hd : q = b.sda
  · rw [if_pos hd, if_pos (.inr hd), hd]
  · rw [if_neg hd]
    by_cases hc : q = b.scl
    · rw [if_pos hc, if_pos (.inl hc), hc]
    · rw [if_neg hc, if_neg (not_or.2 ⟨hc, hd⟩)]

/-- I2CDISP from a ready bus. -/
theorem exec_i2cdisp {s : State} {b : BusRegs} (h : s.busReady b) :
    exec .i2cdisp s = .next (((s.setOwner (some s.turn)).busReleased s.turn b).deliver s.turn .i2cdisp true (.ok .none)) := by
  have hrun := run_i2cdisp h.driven.toLive s.turn
  obtain ⟨-, ho, hc, howner, -⟩ := h
  exact exec_of_busFree ho hc howner rfl id hrun

/-- The events of I2CDISP (R142). -/
def disposalEvents (s : State) (b : BusRegs) : List Event :=
  let w₁ := fselWord s.pins (b.scl / fselPerWord) s.nextReserved
  let u := s.configured s.turn b.scl s.params.fnInput .input
  let w₂ := fselWord u.pins (b.sda / fselPerWord) u.nextReserved
  [.memRead s.turn (fselOff b.scl) w₁, .memWrite s.turn (fselOff b.scl) (withFsel w₁ b.scl s.params.fnInput),
   .memRead s.turn (fselOff b.sda) w₂, .memWrite s.turn (fselOff b.sda) (withFsel w₂ b.sda s.params.fnInput),
   .completed s.turn .i2cdisp (.ok .none)]

theorem history_busReleased (s : State) (b : BusRegs) :
    (((s.setOwner (some s.turn)).busReleased s.turn b).deliver s.turn .i2cdisp true (.ok .none)).history =
      s.history ++ disposalEvents s b := by
  rw [State.deliver_history, State.busReleased, State.assign_history]
  simp only [State.configured, disposalEvents, List.append_assoc]
  rfl

/-- Settles O40. -/
theorem i2cdispReleasesThePins : Obligations.I2cdispReleasesThePins := by
  unfold Obligations.I2cdispReleasesThePins
  intro s b h
  have hpin := pin_busReleased h.driven.toLive s.turn
  refine ⟨_, _, _, exec_i2cdisp h, rfl, ?_, rfl, fun q hc hd => ?_, ?_, ?_, rfl, history_busReleased s b⟩
  · exact (length_updatePin _ _ _).trans (length_updatePin _ _ _)
  · exact (hpin q).trans (if_neg (not_or.2 ⟨hc, hd⟩))
  · exact (hpin b.scl).trans (if_pos (.inl rfl))
  · exact (hpin b.sda).trans (if_pos (.inr rfl))

end Sys2Proof.Machine
end

section
/-! SUPPORT. What I2CDISP shows on the wire (spec/42_i2c_primitives.md R142, spec/20_memory.md R60). -/

namespace Sys2Proof.Machine

/-- A function-select word is no level word. -/
theorem fselOff_ne_levOff {P : Params} {n p q : Nat} (ok : paramsOk P n) (hp : p < n) (hq : q < n) : fselOff p ≠ levOff P q := by
  intro h
  have hfsel := windowReg_fselOff P n p hp
  rw [h, windowReg_levOff P n q ok hq] at hfsel
  cases hfsel

section
variable {V : WireView} {s : State} {a : AgentId} {p : Nat} (hp : p < s.pins.length) {fn : BitVec 3} (d : PinDir)
include hp

/-- A function-select rewrite that changes a line's function adds the pair after it to the trace. -/
theorem wireChanges_configured (hline : p = V.scl ∨ p = V.sda) (hfn : (s.pin p).fsel ≠ fn) (k : Nat) (rest : List Event) :
    wireChanges V k s.pins
        (.memRead a (fselOff p) (fselWord s.pins (p / fselPerWord) s.nextReserved) ::
          .memWrite a (fselOff p) (withFsel (fselWord s.pins (p / fselPerWord) s.nextReserved) p fn) :: rest) =
      wirePoint V (k + 2) (s.configured a p fn d).pins rest :: wireChanges V (k + 2) (s.configured a p fn d).pins rest := by
  have hb := sameBare_configured (a := a) (s := s) (p := p) fn d
  have hdiff : samePinOutput p s.pins (updatePin p (fun x => { x with fsel := fn }) s.pins) = false := by
    have hne : ((s.pins.getD p Pin.absent).fsel == fn) = false := beq_eq_false_iff_ne.2 hfn
    rw [samePinOutput, getD_updatePin_self _ _ _ hp]
    simp only [hne, Bool.false_and]
  have hsome : (samePinOutput V.scl s.pins (updatePin p (fun x => { x with fsel := fn }) s.pins) &&
      samePinOutput V.sda s.pins (updatePin p (fun x => { x with fsel := fn }) s.pins)) = false := by
    rcases hline with rfl | rfl
    · rw [hdiff, Bool.false_and]
    · rw [hdiff, Bool.and_false]
  rw [← hb.wireChanges, ← hb.wirePoint]
  refine (wireChanges_write V (k + 1) s.pins rest a _ _ (writePins_withFsel V.params s.pins p fn s.nextReserved hp)).trans ?_
  rw [hsome]
  rfl

/-- Looking past a function-select rewrite of another pin for the next read of a level. -/
theorem nextRead_configured {q : Nat} (hq : (s.pin q).fsel ≠ V.params.fnOutput) (hne : q ≠ p) (hoff : fselOff p ≠ levOff V.params q)
    (rest : List Event) :
    nextRead V.params V.inFlight q s.pins
        (.memRead a (fselOff p) (fselWord s.pins (p / fselPerWord) s.nextReserved) ::
          .memWrite a (fselOff p) (withFsel (fselWord s.pins (p / fselPerWord) s.nextReserved) p fn) :: rest) =
      nextRead V.params V.inFlight q (updatePin p (fun x => { x with fsel := fn }) s.pins) rest := by
  rw [nextRead_other _ _ _ _ _ _ _ _ (.inl hoff)]
  exact nextRead_write _ _ _ _ _ _ _ _ (writePins_withFsel V.params s.pins p fn s.nextReserved hp)
    (by rw [getD_updatePin_ne _ _ _ _ hne]; exact hq)

end

/-- The trace of I2CDISP from SCL high and SDA low: the levels drawn at the two releases (R142). -/
theorem traceTo_i2cdisp {s t : State} {b : BusRegs} (h : s.busReady b) (hd : b.dir = .writing) (hscl : (s.pin b.scl).latch = true)
    (hsda : (s.pin b.sda).latch = false) (ht : t.history = s.history ++ disposalEvents s b) (draw : Nat → Nat → Level) :
    s.traceTo t b draw = [(true, false), (draw (s.history.length + 2) b.scl, false),
      (draw (s.history.length + 4) b.scl, draw (s.history.length + 4) b.sda)] := by
  have D := h.driven
  let V : WireView := { params := s.params, scl := b.scl, sda := b.sda, inFlight := t.masterInFlight, draw := draw }
  let u := s.configured s.turn b.scl s.params.fnInput .input
  let u' := u.configured s.turn b.sda s.params.fnInput .input
  have hin : s.params.fnInput ≠ s.params.fnOutput := D.fnInput_ne
  have hsclOut : (s.pin b.scl).fsel = s.params.fnOutput := D.scl_fsel
  have hsdaOut : (s.pin b.sda).fsel = s.params.fnOutput := D.sda_output hd
  have hlen : u.pins.length = s.pins.length := length_updatePin _ _ _
  have hsclLt : b.scl < s.pins.length := D.scl_lt
  have hsdaLt : b.sda < u.pins.length := hlen.symm ▸ D.sda_lt
  have hu : ∀ q, u.pin q = if q = b.scl then { s.pin b.scl with fsel := s.params.fnInput, dir := some .input } else s.pin q :=
    fun q => pin_configured hsclLt s.turn q _ _
  have hu' : ∀ q, u'.pin q = if q = b.sda then { u.pin b.sda with fsel := s.params.fnInput, dir := some .input } else u.pin q :=
    fun q => pin_configured hsdaLt s.turn q _ _
  have huscl : (u.pin b.scl).fsel = s.params.fnInput := by rw [hu, if_pos rfl]
  have husda : u.pin b.sda = s.pin b.sda := by rw [hu, if_neg D.distinct.symm]
  have hu'scl : (u'.pin b.scl).fsel = s.params.fnInput := by rw [hu', if_neg D.distinct, huscl]
  have hu'sda : (u'.pin b.sda).fsel = s.params.fnInput := by rw [hu', if_pos rfl]
  let last : List Event := [.completed s.turn .i2cdisp (.ok .none)]
  let second : List Event := .memRead s.turn (fselOff b.sda) (fselWord u.pins (b.sda / fselPerWord) u.nextReserved) ::
    .memWrite s.turn (fselOff b.sda) (withFsel (fselWord u.pins (b.sda / fselPerWord) u.nextReserved) b.sda s.params.fnInput) :: last
  have hoff : fselOff b.sda ≠ levOff V.params b.scl := fselOff_ne_levOff D.ok D.sda_lt hsclLt
  have hstart : wirePoint V s.history.length s.pins (disposalEvents s b) = (true, false) := by
    rw [← hscl, ← hsda]
    exact wirePoint_outputs V _ _ _ hsclOut hsdaOut
  have hmid : wirePoint V (s.history.length + 2) u.pins second = (draw (s.history.length + 2) b.scl, false) := by
    have hlow : wireLevel V b.sda (s.history.length + 2) u.pins second = false :=
      (wireLevel_output V b.sda _ _ _ ((congrArg Pin.fsel husda).trans hsdaOut)).trans ((congrArg Pin.latch husda).trans hsda)
    have hdrawn : wireLevel V b.scl (s.history.length + 2) u.pins second = draw (s.history.length + 2) b.scl := by
      refine (wireLevel_input V b.scl _ _ _ (by rw [← State.pin, huscl]; exact hin)).trans ?_
      rw [nextRead_configured hsdaLt (by rw [huscl]; exact hin) D.distinct hoff]
      rfl
    exact Prod.ext hdrawn hlow
  have hend : wirePoint V (s.history.length + 4) u'.pins last =
      (draw (s.history.length + 4) b.scl, draw (s.history.length + 4) b.sda) :=
    Prod.ext (wireLevel_input V b.scl _ _ _ (by rw [← State.pin, hu'scl]; exact hin))
      (wireLevel_input V b.sda _ _ _ (by rw [← State.pin, hu'sda]; exact hin))
  have hchanges : wireChanges V s.history.length s.pins (disposalEvents s b) =
      [wirePoint V (s.history.length + 2) u.pins second, wirePoint V (s.history.length + 4) u'.pins last] := by
    refine (wireChanges_configured (V := V) hsclLt .input (.inl rfl) (by rw [hsclOut]; exact hin.symm) _ second).trans ?_
    rw [wireChanges_configured (V := V) hsdaLt .input (.inr rfl) (by rw [husda, hsdaOut]; exact hin.symm)]
    rfl
  have htrace : s.traceTo t b draw = wirePoint V s.history.length s.pins (disposalEvents s b) ::
      wireChanges V s.history.length s.pins (disposalEvents s b) := by
    rw [← newEvents_of_append ht]
    rfl
  rw [htrace, hchanges, hstart, hmid, hend]

/-- What the three pairs show, by the levels drawn. -/
theorem disposal_counts : ∀ c₁ c₂ d₂ : Level,
    countChanges isStopCondition [(true, false), (c₁, false), (c₂, d₂)] = (if c₁ ∧ c₂ ∧ d₂ then 1 else 0) ∧
    countChanges isStartCondition [(true, false), (c₁, false), (c₂, d₂)] = 0 ∧
    countChanges isClockPulse [(true, false), (c₁, false), (c₂, d₂)] = (if c₁ = false ∧ c₂ then 1 else 0) := by decide

/-- Settles O41. -/
theorem disposalWithPullUpsShowsAStop : Obligations.DisposalWithPullUpsShowsAStop := by
  unfold Obligations.DisposalWithPullUpsShowsAStop
  intro s b draw h hd hscl hsda
  refine ⟨_, _, _, _, exec_i2cdisp h, rfl, rfl, rfl, ?_⟩
  rw [traceTo_i2cdisp h hd hscl hsda (history_busReleased s b)]
  exact disposal_counts _ _ _

end Sys2Proof.Machine
end

section
/-! SUPPORT. The exact accesses of the direction switches, the bits and START (spec/42_i2c_primitives.md R143 to R147, R155). -/

namespace Sys2Proof.Machine

/-! ## The direction switches -/

theorem le_waitedTo (s : State) (n : Nat) : n ≤ s.waitedTo n := Nat.le_trans (Nat.le_max_right _ _) (Nat.le_add_right _ _)

/-- A switch of a free bus's direction. -/
theorem bus_switched {c : Bus} (h : c.owner = none) (d : BusDir) :
    ({ c with dir := some d, owner := none } : Bus) = { c with dir := some d } := by rw [← h]

section
variable {P : Params} {a : AgentId} {b : BusRegs} {s : State} (D : Driven P b s)
include D

theorem pin_madeWriting (q : Nat) : (s.madeWriting a b).pin q =
    if q = b.sda then { fsel := P.fnOutput, latch := true, dir := some .output, last := some true } else (s.valueGot a b.scl).pin q := by
  have L1 : Live P b (s.valueGot a b.scl) := D.toLive.valueGot _
  refine (pin_drivenHigh L1.sda_lt a q).trans ?_
  rw [L1.params]

theorem pin_madeReading (q : Nat) : (s.madeReading a b).pin q =
    if q = b.sda then { s.pin b.sda with fsel := P.fnInput, dir := some .input } else (s.valueGot a b.scl).pin q := by
  have L1 : Live P b (s.valueGot a b.scl) := D.toLive.valueGot _
  refine (pin_configured L1.sda_lt a q _ _).trans ?_
  rw [pin_valueGot D.scl_lt a b.sda, if_neg D.distinct.symm, D.params]

/-- SCL after its level has been read (R123). -/
theorem pin_scl_valueGot : (s.valueGot a b.scl).pin b.scl = { s.pin b.scl with last := some (s.pin b.scl).latch } := by
  rw [pin_valueGot D.scl_lt, if_pos rfl, D.levelOf_scl]

theorem pin_scl_madeWriting : (s.madeWriting a b).pin b.scl = { s.pin b.scl with last := some (s.pin b.scl).latch } := by
  rw [pin_madeWriting D, if_neg D.distinct, pin_scl_valueGot D]

theorem pin_sda_madeWriting : (s.madeWriting a b).pin b.sda =
    { fsel := P.fnOutput, latch := true, dir := some .output, last := some true } := by rw [pin_madeWriting D, if_pos rfl]

theorem pin_scl_madeReading : (s.madeReading a b).pin b.scl = { s.pin b.scl with last := some (s.pin b.scl).latch } := by
  rw [pin_madeReading D, if_neg D.distinct, pin_scl_valueGot D]

theorem pin_sda_madeReading : (s.madeReading a b).pin b.sda = { s.pin b.sda with fsel := P.fnInput, dir := some .input } := by
  rw [pin_madeReading D, if_pos rfl]

omit D in
theorem history_madeWriting : ∃ w₁ w₂, (s.madeWriting a b).history = s.history ++
    [.memRead a (levOff s.params b.scl) w₁, .memWrite a (setOff s.params b.sda) (bitMask b.sda),
     .memRead a (fselOff b.sda) w₂, .memWrite a (fselOff b.sda) (withFsel w₂ b.sda s.params.fnOutput)] := by
  obtain ⟨w₂, h₂⟩ := history_drivenHigh a (s.valueGot a b.scl) b.sda
  exact ⟨_, w₂, h₂.trans (List.append_assoc _ _ _)⟩

omit D in
theorem history_madeReading : ∃ w₁ w₂, (s.madeReading a b).history = s.history ++
    [.memRead a (levOff s.params b.scl) w₁, .memRead a (fselOff b.sda) w₂,
     .memWrite a (fselOff b.sda) (withFsel w₂ b.sda s.params.fnInput)] := ⟨_, _, List.append_assoc _ _ _⟩

end

/-- A bus command that only reads SCL, high, and raises ProtocolViolation. -/
theorem violates_exactly {s : State} {b : BusRegs} {i : Instr} (h : s.busReady b) (hi : isBusCommand i = true)
    (ha : ¬ badArguments s.numPins i) (hl : (s.pin b.scl).latch = true)
    (hrun : ((commandOf i).body s.params).run s.turn (s.setOwner (some s.turn)) =
      .finished (.error .protocolViolation) ((s.setOwner (some s.turn)).valueGot s.turn b.scl)) :
    ∃ (t : State) (w : Word),
      exec i s = .next t ∧ s.busFrame t b ∧ t.bus = s.bus ∧ t.pin b.scl = { s.pin b.scl with last := some true } ∧
      t.pin b.sda = s.pin b.sda ∧
      t.history = s.history ++
        [.memRead s.turn (levOff s.params b.scl) w, .completed s.turn i (.error .protocolViolation)] := by
  have D := h.driven
  have c := completes_deliver h hi ha hrun (moves_valueGot D (.inl rfl))
  obtain ⟨-, -, -, howner, -⟩ := h
  refine ⟨_, levWord s.params s.pins (b.scl / pinsPerBank) s.nextLevels, c.executes, c.frame, bus_setOwner_none howner, ?_, ?_, ?_⟩
  · exact (pin_scl_valueGot (a := s.turn) D).trans (by rw [show ((s.setOwner (some s.turn)).pin b.scl).latch = true from hl]; rfl)
  · exact (pin_valueGot D.scl_lt s.turn _).trans (if_neg D.distinct.symm)
  · exact List.append_assoc _ _ _

/-- Settles O42. -/
theorem setwmSwitchesOnlyWhileSclLow : Obligations.SetwmSwitchesOnlyWhileSclLow := by
  unfold Obligations.SetwmSwitchesOnlyWhileSclLow
  intro s b h
  have D := h.driven
  have hfree := h
  obtain ⟨-, ho, hc, howner, -⟩ := hfree
  refine ⟨fun hd => ?_, fun hd hl => ?_, fun hd hl => ?_⟩
  · rw [exec_of_busFree (i := .setwm) ho hc howner rfl id
      (run_setWriteMode_writing D.toLive hd raiseProtocolViolation returnNone), deliver_setOwner howner]
  · have c := completes_deliver (i := .setwm) h rfl id
      (run_setWriteMode_low D.toLive hd (D.levelOf_scl.trans hl) raiseProtocolViolation returnNone) (moves_madeWriting D hl)
    obtain ⟨w₁, w₂, hhist⟩ := history_madeWriting (a := s.turn) (b := b) (s := s.setOwner (some s.turn))
    refine ⟨_, w₁, w₂, c.executes, c.frame, bus_switched howner .writing, ?_, pin_sda_madeWriting D, ?_⟩
    · exact (pin_scl_madeWriting D).trans (by rw [show ((s.setOwner (some s.turn)).pin b.scl).latch = false from hl]; rfl)
    · rw [State.deliver_history, hhist, List.append_assoc]
      rfl
  · exact violates_exactly h rfl id hl
      (run_setWriteMode_high D.toLive hd (D.levelOf_scl.trans hl) raiseProtocolViolation returnNone)

/-- Settles O43. -/
theorem setrmSwitchesOnlyWhileSclLow : Obligations.SetrmSwitchesOnlyWhileSclLow := by
  unfold Obligations.SetrmSwitchesOnlyWhileSclLow
  intro s b h
  have D := h.driven
  have hfree := h
  obtain ⟨-, ho, hc, howner, -⟩ := hfree
  refine ⟨fun hd => ?_, fun hd hl => ?_, fun hd hl => ?_⟩
  · rw [exec_of_busFree (i := .setrm) ho hc howner rfl id
      (run_setReadMode_reading D.toLive hd raiseProtocolViolation returnNone), deliver_setOwner howner]
  · have c := completes_deliver (i := .setrm) h rfl id
      (run_setReadMode_low D.toLive hd (D.levelOf_scl.trans hl) raiseProtocolViolation returnNone) (moves_madeReading D hl)
    obtain ⟨w₁, w₂, hhist⟩ := history_madeReading (a := s.turn) (b := b) (s := s.setOwner (some s.turn))
    refine ⟨_, w₁, w₂, c.executes, c.frame, bus_switched howner .reading, ?_, pin_sda_madeReading D, ?_⟩
    · exact (pin_scl_madeReading D).trans (by rw [show ((s.setOwner (some s.turn)).pin b.scl).latch = false from hl]; rfl)
    · rw [State.deliver_history, hhist, List.append_assoc]
      rfl
  · exact violates_exactly h rfl id hl
      (run_setReadMode_high D.toLive hd (D.levelOf_scl.trans hl) raiseProtocolViolation returnNone)

/-! ## START -/

section
variable {P : Params} {a : AgentId} {b : BusRegs} {s : State}

/-- From writing mode with SDA high START's body is its two reads and SDA's fall. -/
theorem run_startCondition_idle (D : Driven P b s) (hl : (s.pin b.scl).latch = true) (fail k : Prog) (hd : b.dir = .writing)
    (hsda : (s.pin b.sda).latch = true) : (startCondition P fail k).run a s = k.run a (s.sdaFallen a b) := by
  have L2 : Live P b ((s.valueGot a b.scl).valueGot a b.sda) := (D.toLive.valueGot _).valueGot _
  rw [run_startCondition_writing D hl fail k hd, hsda, if_pos rfl, run_sdaDrive L2]
  rfl

theorem history_sdaFallen (s : State) (a : AgentId) (b : BusRegs) : ∃ w₁ w₂ t₁, b.lastEdge + b.quarterPeriod ≤ t₁ ∧
    (s.sdaFallen a b).history = s.history ++
      [.memRead a (levOff s.params b.scl) w₁, .memRead a (levOff s.params b.sda) w₂, .tick a t₁,
       .memWrite a (clrOff s.params b.sda) (bitMask b.sda)] := by
  let u := s.valueGot a b.scl
  refine ⟨levWord s.params s.pins (b.scl / pinsPerBank) s.nextLevels, levWord u.params u.pins (b.sda / pinsPerBank) u.nextLevels,
    (u.valueGot a b.sda).waitedTo (b.lastEdge + b.quarterPeriod), le_waitedTo _ _, ?_⟩
  simp [State.sdaFallen, State.sdaSet, State.valueSet, State.waited, State.valueGot, State.waitedTo, u]

end

/-- Settles O46: from writing mode with SDA high START is its two reads and the one fall of SDA, otherwise a re-arming comes before. -/
theorem startMakesOneStartCondition : Obligations.StartMakesOneStartCondition := by
  unfold Obligations.StartMakesOneStartCondition
  intro s b draw h hl
  have D := h.driven
  by_cases hidle : b.dir = .writing ∧ (s.pin b.sda).latch = true
  · obtain ⟨hd, hsda⟩ := hidle
    obtain ⟨m, hsent⟩ := moves_sdaFallen (a := s.turn) D hl hd hsda
    have c := completes_deliver (i := .start) h rfl id (run_startCondition_idle D hl raiseProtocolViolation returnNone hd hsda) m
    obtain ⟨-, hstarts, hstops⟩ := c.trace draw
    obtain ⟨w₁, w₂, t₁, hwait, hhist⟩ := history_sdaFallen (s.setOwner (some s.turn)) s.turn b
    refine ⟨_, b.lastEdge, c.executes, c.frame, hd ▸ c.dir, c.lastEdge, hsent.scl_latch, hsent.sda_latch, m.driven.sda_output hd, c.last,
      hstarts, hstops, fun _ _ => ⟨rfl, w₁, w₂, t₁, hwait, ?_⟩, fun hor => ?_⟩
    · rw [State.deliver_history, hhist, List.append_assoc]
      rfl
    · simp [hd, hsda] at hor
  · obtain ⟨b', u, hrun, hsent, ⟨hd, hsda, -⟩ | ⟨-, m⟩⟩ := run_startCondition (a := s.turn) D hl raiseProtocolViolation returnNone
    · exact absurd ⟨hd, hsda⟩ hidle
    · have c := completes_deliver (i := .start) h rfl id hrun m
      obtain ⟨hbits, hstarts, hstops⟩ := c.trace draw
      have hout := m.driven.sda_output hsent.dir
      have hscl := hsent.scl_latch
      have hsda := hsent.sda_latch
      rw [m.scl] at hscl
      rw [m.sda] at hout hsda
      refine ⟨_, b'.lastEdge, c.executes, c.frame, hsent.dir ▸ c.dir, c.lastEdge, hscl, hsda, hout, c.last, hstarts, hstops,
        fun hd hs => absurd ⟨hd, hs⟩ hidle, fun _ => ⟨c.time, ?_⟩⟩
      rw [countChanges_isClockPulse, hbits]
      rfl

/-- Settles O47: the one read of SCL finds 0, and START raises. -/
theorem startWithSclLowFails : Obligations.StartWithSclLowFails := by
  unfold Obligations.StartWithSclLowFails
  intro s b ok ho hc howner hregs hlt hlow
  have hlevel : s.levelOf b.scl = false := hlow
  have hexec := exec_of_busFree (i := .start) ho hc howner rfl id (run_startCondition_levelLow (s := s.setOwner (some s.turn)) rfl ok ho
    hregs hlt hlevel raiseProtocolViolation returnNone)
  have hend := deliver_setOwner (s := s.valueGot s.turn b.scl) (i := .start) howner s.turn (.error .protocolViolation)
  refine ⟨(s.valueGot s.turn b.scl).pins, levWord s.params s.pins (b.scl / pinsPerBank) s.nextLevels,
    hexec.trans (congrArg Host.Outcome.next (hend.trans ?_)), length_updatePin _ _ _, fun p _ => ?_⟩
  · simp only [State.valueGot, List.append_assoc]
    rfl
  · refine (pin_valueGot hlt s.turn p).trans ?_
    rw [hlevel]
    split
    · next hp => rw [hp]
    · rfl

/-! ## Bits -/

/-- The accesses of a switch to writing (R143). -/
def WriteSwitch (P : Params) (a : AgentId) (b : BusRegs) : BusDir → List Event → Prop
  | .writing, switch => switch = []
  | .reading, switch => ∃ w₁ w₂, switch =
      [.memRead a (levOff P b.scl) w₁, .memWrite a (setOff P b.sda) (bitMask b.sda),
       .memRead a (fselOff b.sda) w₂, .memWrite a (fselOff b.sda) (withFsel w₂ b.sda P.fnOutput)]

/-- The accesses of a switch to reading (R144). -/
def ReadSwitch (P : Params) (a : AgentId) (b : BusRegs) : BusDir → List Event → Prop
  | .reading, switch => switch = []
  | .writing, switch => ∃ w₁ w₂, switch =
      [.memRead a (levOff P b.scl) w₁, .memRead a (fselOff b.sda) w₂,
       .memWrite a (fselOff b.sda) (withFsel w₂ b.sda P.fnInput)]

section
variable {P : Params} {a : AgentId} {b : BusRegs} {s : State} (D : Driven P b s) (hl : (s.pin b.scl).latch = false) (fail k : Prog)
include D hl

/-- SetWriteMode while SCL is low, with its accesses and the pins it leaves. -/
theorem run_setWriteMode_exact :
    ∃ t switch, (setWriteMode P fail k).run a s = k.run a t ∧
      Moves P a b s { b with dir := .writing } t (drawsToWrite b.dir) 0 .nothing ∧
      t.history = s.history ++ switch ∧ WriteSwitch P a b b.dir switch ∧ (∃ x, t.pin b.scl = { s.pin b.scl with last := x }) ∧
      ∃ v x, t.pin b.sda = { fsel := P.fnOutput, latch := v, last := x, dir := match b.dir with
        | .writing => (s.pin b.sda).dir
        | .reading => some .output } := by
  cases hd : b.dir with
  | writing =>
    have hb : b = { b with dir := .writing } := by rw [← hd]
    refine ⟨s, [], run_setWriteMode_writing D.toLive hd fail k, hb ▸ Moves.refl D, (List.append_nil _).symm, rfl, ⟨_, rfl⟩,
      (s.pin b.sda).latch, (s.pin b.sda).last, ?_⟩
    rw [← D.sda_output hd]
  | reading =>
    obtain ⟨w₁, w₂, hhist⟩ := history_madeWriting (a := a) (b := b) (s := s)
    rw [D.params] at hhist
    exact ⟨_, _, run_setWriteMode_low D.toLive hd (D.levelOf_scl.trans hl) fail k, moves_madeWriting D hl, hhist, ⟨w₁, w₂, rfl⟩,
      ⟨_, pin_scl_madeWriting D⟩, _, _, pin_sda_madeWriting D⟩

/-- SetReadMode while SCL is low, with its accesses and the pins it leaves. -/
theorem run_setReadMode_exact :
    ∃ t switch, (setReadMode P fail k).run a s = k.run a t ∧
      Moves P a b s { b with dir := .reading } t (drawsToRead b.dir) 0 .nothing ∧
      t.history = s.history ++ switch ∧ ReadSwitch P a b b.dir switch ∧ (∃ x, t.pin b.scl = { s.pin b.scl with last := x }) ∧
      t.pin b.sda = { s.pin b.sda with fsel := P.fnInput, dir := match b.dir with
        | .writing => some .input
        | .reading => (s.pin b.sda).dir } := by
  cases hd : b.dir with
  | reading =>
    have hb : b = { b with dir := .reading } := by rw [← hd]
    refine ⟨s, [], run_setReadMode_reading D.toLive hd fail k, hb ▸ Moves.refl D, (List.append_nil _).symm, rfl, ⟨_, rfl⟩, ?_⟩
    rw [← D.sda_input hd]
  | writing =>
    obtain ⟨w₁, w₂, hhist⟩ := history_madeReading (a := a) (b := b) (s := s)
    rw [D.params] at hhist
    exact ⟨_, _, run_setReadMode_low D.toLive hd (D.levelOf_scl.trans hl) fail k, moves_madeReading D hl, hhist, ⟨w₁, w₂, rfl⟩,
      ⟨_, pin_scl_madeReading D⟩, pin_sda_madeReading D⟩

end

end Sys2Proof.Machine
end

section
/-! SUPPORT. WBIT and RBIT to the letter (spec/42_i2c_primitives.md R145, R146, R150 to R152). -/

namespace Sys2Proof.Machine

section
variable {P : Params} {a : AgentId} {b : BusRegs} {s : State}

theorem history_sclLow (s : State) (a : AgentId) (b : BusRegs) : (s.sclSet a b false).history = s.history ++
    [.tick a (s.waitedTo (b.lastEdge + b.halfPeriod)), .memWrite a (clrOff s.params b.scl) (bitMask b.scl)] :=
  List.append_assoc _ _ _

theorem history_bitSent (s : State) (a : AgentId) (b : BusRegs) (v : Level) : (s.bitSent a b v).history = s.history ++
    [.tick a (s.waitedTo (b.lastEdge + b.quarterPeriod)),
     .memWrite a (if v then setOff s.params b.sda else clrOff s.params b.sda) (bitMask b.sda),
     .tick a ((s.sdaSet a b v).waitedTo (b.lastEdge + b.halfPeriod)), .memWrite a (setOff s.params b.scl) (bitMask b.scl)] := by
  simp [State.bitSent, State.sclSet, State.sdaSet, State.valueSet, State.waited, State.waitedTo]

variable (L : Live P b s)
include L

theorem pin_scl_sclLow : (s.sclSet a b false).pin b.scl = { s.pin b.scl with latch := false, last := some false } := by
  rw [pin_sclSet L, if_pos rfl]

theorem pin_scl_bitSent (v : Level) :
    (s.bitSent a b v).pin b.scl = { s.pin b.scl with latch := true, last := some true } := by
  rw [State.bitSent, pin_sclSet (L.sdaSet v), if_pos rfl, sdaSet_scl L]

theorem pin_sda_bitSent (v : Level) : (s.bitSent a b v).pin b.sda = { s.pin b.sda with latch := v, last := some v } := by
  rw [State.bitSent, sclSet_sda (L.sdaSet v), pin_sdaSet L, if_pos rfl]

theorem pin_sampled (q : Nat) : (s.sampled a b).pin q =
    if q = b.sda then { s.pin b.sda with last := some (((s.sclSet a b true).waited a
      ((b.stamped s).lastEdge + b.quarterPeriod)).levelOf b.sda) } else (s.sclSet a b true).pin q := by
  have L2 : Live P (b.stamped s) ((s.sclSet a b true).waited a ((b.stamped s).lastEdge + b.quarterPeriod)) :=
    (L.sclSet true).waited _
  refine (pin_valueGot L2.sda_lt a q).trans ?_
  rw [← sclSet_sda (a := a) L true]
  rfl

theorem pin_scl_sampled : (s.sampled a b).pin b.scl = { s.pin b.scl with latch := true, last := some true } := by
  rw [pin_sampled L, if_neg L.distinct, pin_sclSet L, if_pos rfl]

end

/-- SDA after the sample. -/
theorem pin_sda_sampled {P : Params} {a : AgentId} {b : BusRegs} {s : State} (D : Driven P b s) (hd : b.dir = .reading) :
    (s.sampled a b).pin b.sda = { s.pin b.sda with last := some (s.sdaDraw b 0) } := by
  rw [pin_sampled D.toLive, if_pos rfl, levelOf_beforeSample D hd]

/-- Settles O44. -/
theorem wbitSendsOneBit : Obligations.WbitSendsOneBit := by
  unfold Obligations.WbitSendsOneBit
  intro s b v h
  have D := h.driven
  let s₀ := s.setOwner (some s.turn)
  let s₁ := s₀.sclSet s.turn b false
  let b₂ : BusRegs := { b.stamped s₀ with dir := .writing }
  have mlow : Moves s.params s.turn b s₀ (b.stamped s₀) s₁ 0 1 .nothing := moves_sclLow D
  obtain ⟨s₂, switch, hrun₂, m₂, hhist₂, hswitch, ⟨x, hscl₂⟩, y, z, hsda₂⟩ := run_setWriteMode_exact (a := s.turn) mlow.driven
    (sclSet_scl_latch D.toLive false) raiseProtocolViolation (sdaDrive s.params v (sclHigh s.params returnNone))
  have D₂ : Driven s.params b₂ s₂ := m₂.driven
  have hscl₁ : s₁.pin (b.stamped s₀).scl = { s.pin b.scl with latch := false, last := some false } := pin_scl_sclLow D.toLive
  have hsda₁ : s₁.pin (b.stamped s₀).sda = s.pin b.sda := sclSet_sda D.toLive false
  have hpar : s₂.params = s.params := D₂.params
  obtain ⟨m₃, -⟩ := moves_bitSent (a := s.turn) D₂ rfl (by rw [hscl₂]; exact congrArg Pin.latch hscl₁) v
  have hrun : (writeBit s.params v raiseProtocolViolation returnNone).run s.turn s₀ = .finished (.ok .none) (s₂.bitSent s.turn b₂ v) := by
    rw [writeBit, run_sclLow D.toLive, hrun₂, run_bitSent D₂]
    rfl
  have c := completes_deliver (i := .wbit v) h rfl id hrun ((mlow.trans m₂).trans m₃)
  refine ⟨_, s₀.waitedTo (b.lastEdge + b.halfPeriod), s₂.waitedTo (b₂.lastEdge + b₂.quarterPeriod),
    (s₂.sdaSet s.turn b₂ v).waitedTo (b₂.lastEdge + b₂.halfPeriod), switch, c.executes, c.frame, c.dir, c.lastEdge, ?_, ?_,
    le_waitedTo _ _, le_waitedTo _ _, le_waitedTo _ _, ?_, ?_⟩
  · refine (pin_scl_bitSent (b := b₂) D₂.toLive v).trans ?_
    rw [hscl₂, hscl₁]
  · refine (pin_sda_bitSent (b := b₂) D₂.toLive v).trans ?_
    rw [hsda₂, hsda₁]
    rfl
  · rw [State.deliver_history, history_bitSent, hhist₂, history_sclLow, hpar]
    simp only [List.append_assoc]
    rfl
  · revert hswitch
    rw [show (b.stamped s₀).dir = b.dir from rfl]
    cases b.dir <;> exact id

/-- Settles O45. -/
theorem rbitReceivesOneBit : Obligations.RbitReceivesOneBit := by
  unfold Obligations.RbitReceivesOneBit
  intro s b h
  have D := h.driven
  let s₀ := s.setOwner (some s.turn)
  let s₁ := s₀.sclSet s.turn b false
  let b₂ : BusRegs := { b.stamped s₀ with dir := .reading }
  have mlow : Moves s.params s.turn b s₀ (b.stamped s₀) s₁ 0 1 .nothing := moves_sclLow D
  let k : Level → Prog := fun v => .done (.ok (.bit v))
  obtain ⟨s₂, switch, hrun₂, m₂, hhist₂, hswitch, ⟨x, hscl₂⟩, hsda₂⟩ := run_setReadMode_exact (a := s.turn) mlow.driven
    (sclSet_scl_latch D.toLive false) raiseProtocolViolation (sclHigh s.params
      (.look fun b => .wait (b.lastEdge + b.quarterPeriod) fun _ => .look fun b => getValue s.params b.sda k))
  have D₂ : Driven s.params b₂ s₂ := m₂.driven
  have hscl₁ : s₁.pin (b.stamped s₀).scl = { s.pin b.scl with latch := false, last := some false } := pin_scl_sclLow D.toLive
  have hsda₁ : s₁.pin (b.stamped s₀).sda = s.pin b.sda := sclSet_sda D.toLive false
  have hpar : s₂.params = s.params := D₂.params
  have hdraw : s₂.sdaDraw b₂ 0 = s.sdaDraw b (match b.dir with
      | .writing => 1
      | .reading => 0) := by
    refine ((mlow.trans m₂).sdaDraw 0).trans ?_
    rw [show (b.stamped s₀).dir = b.dir from rfl]
    cases b.dir <;> rfl
  have m₃ := moves_sampled (a := s.turn) D₂ rfl (by rw [hscl₂]; exact congrArg Pin.latch hscl₁)
  have hrun : (readBit s.params raiseProtocolViolation k).run s.turn s₀ =
      .finished (.ok (.bit (s₂.sdaDraw b₂ 0))) (s₂.sampled s.turn b₂) := by
    rw [readBit, run_sclLow D.toLive, hrun₂, run_sampled D₂ rfl]
    rfl
  have c := completes_deliver (i := .rbit) h rfl id hrun ((mlow.trans m₂).trans m₃)
  refine ⟨_, s₀.waitedTo (b.lastEdge + b.halfPeriod), s₂.waitedTo (b₂.lastEdge + b₂.halfPeriod),
    (s₂.sclSet s.turn b₂ true).waitedTo ((b₂.stamped s₂).lastEdge + b₂.quarterPeriod), switch,
    levWord s₂.params (s₂.sclSet s.turn b₂ true).pins (b₂.sda / pinsPerBank) s₂.nextLevels, s₂.sdaDraw b₂ 0, c.executes, c.frame, c.dir,
    c.lastEdge, hdraw, (getLsbD_sample D₂ rfl).symm, ?_, ?_, le_waitedTo _ _, le_waitedTo _ _, le_waitedTo _ _, ?_, ?_⟩
  · refine (pin_scl_sampled (b := b₂) D₂.toLive).trans ?_
    rw [hscl₂, hscl₁]
  · refine (pin_sda_sampled (b := b₂) D₂ rfl).trans ?_
    rw [hsda₂, hsda₁]
    rfl
  · rw [State.deliver_history, history_sampled, hhist₂, history_sclLow, hpar]
    simp only [List.append_assoc]
    rfl
  · revert hswitch
    rw [show (b.stamped s₀).dir = b.dir from rfl]
    cases b.dir <;> exact id

end Sys2Proof.Machine
end
